-- ==== Sys2Proof/Word.lean ====
section
/-! DEFINITION. The word types of the block: the widths of spec/00_scope.md R6, R8 and spec/30_encoding.md R80. -/

namespace Sys2Proof

/-- A byte of the buffer, or the 8-bit `CNT` operand of a command (R50, R80). -/
abbrev Byte := BitVec 8

/-- A 64-bit unsigned value: `W` of R6. -/
abbrev Word := BitVec 64

/-- The 80-bit command word `CMD[79:0]` (R80). -/
abbrev CmdWord := BitVec 80

end Sys2Proof
end

