-- ==== Sys2Proof/Syntax.lean ====
section
/-! DEFINITION. The fourteen commands of spec/30_encoding.md R82, one constructor per row of spec/opcode_table.json. -/

namespace Sys2Proof

/-- The seven registers of the register map (spec/10_state.md R30), numbers 0 to 6 in this order. -/
inductive Reg where
  | lookahead
  | bitoff
  | byteoff
  | acc
  | p
  | cap
  | status
deriving DecidableEq, Repr

/-- A command with its operands (R82, R87). `count` and `p` are the whole 8-bit `CNT` field: a value outside
the range a command allows decodes, and the command's own rule answers for it (R83). -/
inductive Instr where
  /-- `INIT` (R100) -/
  | init
  /-- `GETBITS count` (R105) -/
  | getbits (count : Byte)
  /-- `PUTBITS value, count` (R125) -/
  | putbits (value : Word) (count : Byte)
  /-- `FINALIZE` (R126) -/
  | finalize
  /-- `DECG p` (R171) -/
  | decg (p : Byte)
  /-- `DECF p` (R177) -/
  | decf (p : Byte)
  /-- `ENCG.START p` (R141) -/
  | encgStart (p : Byte)
  /-- `ENCG.ITEM value` (R143) -/
  | encgItem (value : Word)
  /-- `ENCG.END` (R148) -/
  | encgEnd
  /-- `ENCF.START p` (R161) -/
  | encfStart (p : Byte)
  /-- `ENCF.ITEM value` (R162) -/
  | encfItem (value : Word)
  /-- `ENCF.END` (R164) -/
  | encfEnd
  /-- `RDREG reg` (R191) -/
  | rdreg (reg : Reg)
  /-- `WRREG reg, value` (R192) -/
  | wrreg (reg : Reg) (value : Word)
deriving DecidableEq, Repr

end Sys2Proof
end

