-- ==== Sys2Proof/WellFormed.lean ====
section
/-! DEFINITION. Which commands have a legal command word: the one check the operand types leave open. -/

namespace Sys2Proof

/-- The access column of the register map (R30): `LOOKAHEAD`, `BITOFF`, `BYTEOFF` and `CAP` are RW. -/
def Reg.writable : Reg → Bool
  | .lookahead => true
  | .bitoff => true
  | .byteoff => true
  | .acc => false
  | .p => false
  | .cap => true
  | .status => false

/-- A command is well formed when some legal word carries it (R84): a `WRREG` names a writable register.
Register numbers above 6 and wide operands cannot be written in `Instr`. -/
def Instr.wellFormed : Instr → Bool
  | .init => true
  | .getbits _ => true
  | .putbits _ _ => true
  | .finalize => true
  | .decg _ => true
  | .decf _ => true
  | .encgStart _ => true
  | .encgItem _ => true
  | .encgEnd => true
  | .encfStart _ => true
  | .encfItem _ => true
  | .encfEnd => true
  | .rdreg _ => true
  | .wrreg reg _ => reg.writable

end Sys2Proof
end

