-- ==== Sys2Proof/Decode.lean ====
section
/-! DEFINITION. The command decoder and encoder: fields R80, formats R81, opcode map R82, illegal words R84. -/

namespace Sys2Proof

/-- Why a command word is illegal (R84). -/
inductive DecodeError where
  /-- `OP` is not one of the fourteen values of R82. -/
  | unknownOp
  /-- The format does not use `CNT` and it is not zero. -/
  | countNotZero
  /-- The format does not use `VAL` and it is not zero. -/
  | valueNotZero
  /-- `RDREG` or `WRREG` with `CNT` above 6. -/
  | noSuchRegister
  /-- `WRREG` of a read-only register (`CNT` 3, 4 or 6). -/
  | readOnlyRegister
deriving DecidableEq, Repr

/-- The four formats of R81. -/
inductive Format where
  | n
  | c
  | v
  | cv
deriving DecidableEq, Repr

/-- The fourteen operation codes of R82. -/
inductive Opcode where
  | init
  | getbits
  | putbits
  | finalize
  | decg
  | decf
  | encgStart
  | encgItem
  | encgEnd
  | encfStart
  | encfItem
  | encfEnd
  | rdreg
  | wrreg
deriving DecidableEq, Repr

/-- The format uses the `CNT` field (R81). -/
def Format.usesCount : Format → Bool
  | .n => false
  | .c => true
  | .v => false
  | .cv => true

/-- The format uses the `VAL` field (R81). -/
def Format.usesValue : Format → Bool
  | .n => false
  | .c => false
  | .v => true
  | .cv => true

/-- The format column of R82. -/
def Opcode.format : Opcode → Format
  | .init => .n
  | .getbits => .c
  | .putbits => .cv
  | .finalize => .n
  | .decg => .c
  | .decf => .c
  | .encgStart => .c
  | .encgItem => .v
  | .encgEnd => .n
  | .encfStart => .c
  | .encfItem => .v
  | .encfEnd => .n
  | .rdreg => .c
  | .wrreg => .cv

/-- The `OP` column of R82. -/
def Opcode.byte : Opcode → Byte
  | .init => 0x01#8
  | .getbits => 0x02#8
  | .putbits => 0x03#8
  | .finalize => 0x04#8
  | .decg => 0x08#8
  | .decf => 0x09#8
  | .encgStart => 0x10#8
  | .encgItem => 0x11#8
  | .encgEnd => 0x12#8
  | .encfStart => 0x18#8
  | .encfItem => 0x19#8
  | .encfEnd => 0x1A#8
  | .rdreg => 0x20#8
  | .wrreg => 0x21#8

/-- The opcode map of R82 read from the `OP` byte. -/
def opcodeOf (op : Byte) : Option Opcode :=
  if op = 0x01#8 then some .init
  else if op = 0x02#8 then some .getbits
  else if op = 0x03#8 then some .putbits
  else if op = 0x04#8 then some .finalize
  else if op = 0x08#8 then some .decg
  else if op = 0x09#8 then some .decf
  else if op = 0x10#8 then some .encgStart
  else if op = 0x11#8 then some .encgItem
  else if op = 0x12#8 then some .encgEnd
  else if op = 0x18#8 then some .encfStart
  else if op = 0x19#8 then some .encfItem
  else if op = 0x1A#8 then some .encfEnd
  else if op = 0x20#8 then some .rdreg
  else if op = 0x21#8 then some .wrreg
  else none

/-- The register number column of R30. -/
def Reg.number : Reg → Byte
  | .lookahead => 0#8
  | .bitoff => 1#8
  | .byteoff => 2#8
  | .acc => 3#8
  | .p => 4#8
  | .cap => 5#8
  | .status => 6#8

/-- The register a number names, none for 7..255 (R30). -/
def regOf (n : Byte) : Option Reg :=
  if n = 0#8 then some .lookahead
  else if n = 1#8 then some .bitoff
  else if n = 2#8 then some .byteoff
  else if n = 3#8 then some .acc
  else if n = 4#8 then some .p
  else if n = 5#8 then some .cap
  else if n = 6#8 then some .status
  else none

/-- `RDREG` names any of the seven registers (R84). -/
def decodeRdreg (cnt : Byte) : Except DecodeError Instr :=
  match regOf cnt with
  | none => .error .noSuchRegister
  | some reg => .ok (.rdreg reg)

/-- `WRREG` names a writable register (R84). -/
def decodeWrreg (cnt : Byte) (val : Word) : Except DecodeError Instr :=
  match regOf cnt with
  | none => .error .noSuchRegister
  | some reg => if reg.writable then .ok (.wrreg reg val) else .error .readOnlyRegister

/-- The command an operation code and its operand fields name (R82, R83). -/
def decodeOperands (o : Opcode) (cnt : Byte) (val : Word) : Except DecodeError Instr :=
  match o with
  | .init => .ok .init
  | .getbits => .ok (.getbits cnt)
  | .putbits => .ok (.putbits val cnt)
  | .finalize => .ok .finalize
  | .decg => .ok (.decg cnt)
  | .decf => .ok (.decf cnt)
  | .encgStart => .ok (.encgStart cnt)
  | .encgItem => .ok (.encgItem val)
  | .encgEnd => .ok .encgEnd
  | .encfStart => .ok (.encfStart cnt)
  | .encfItem => .ok (.encfItem val)
  | .encfEnd => .ok .encfEnd
  | .rdreg => decodeRdreg cnt
  | .wrreg => decodeWrreg cnt val

/-- The fields of R80. -/
def opField (w : CmdWord) : Byte := w.extractLsb' 72 8
def cntField (w : CmdWord) : Byte := w.extractLsb' 64 8
def valField (w : CmdWord) : Word := w.extractLsb' 0 64

/-- The total decoder (R84): every 80-bit word is a command or illegal. -/
def decode (w : CmdWord) : Except DecodeError Instr :=
  match opcodeOf (opField w) with
  | none => .error .unknownOp
  | some o =>
    if o.format.usesCount = false ∧ cntField w ≠ 0#8 then .error .countNotZero
    else if o.format.usesValue = false ∧ valField w ≠ 0#64 then .error .valueNotZero
    else decodeOperands o (cntField w) (valField w)

/-- A command word from its three fields (R80). -/
def packCommand (o : Opcode) (cnt : Byte) (val : Word) : CmdWord := o.byte ++ cnt ++ val

/-- The command word of a well-formed command (R80 to R82, R87). -/
def encode : Instr → CmdWord
  | .init => packCommand .init 0#8 0#64
  | .getbits count => packCommand .getbits count 0#64
  | .putbits value count => packCommand .putbits count value
  | .finalize => packCommand .finalize 0#8 0#64
  | .decg p => packCommand .decg p 0#64
  | .decf p => packCommand .decf p 0#64
  | .encgStart p => packCommand .encgStart p 0#64
  | .encgItem value => packCommand .encgItem 0#8 value
  | .encgEnd => packCommand .encgEnd 0#8 0#64
  | .encfStart p => packCommand .encfStart p 0#64
  | .encfItem value => packCommand .encfItem 0#8 value
  | .encfEnd => packCommand .encfEnd 0#8 0#64
  | .rdreg reg => packCommand .rdreg reg.number 0#64
  | .wrreg reg value => packCommand .wrreg reg.number value

/-- The command word whose low `nbits` bits are `w` and whose other bits are zero. All commands are one
80-bit word (R80), so the table's bit numbers are the word's. -/
def tableWord (nbits w : Nat) : CmdWord := BitVec.ofNat 80 (w % 2 ^ nbits)

/-- The command the decoder reads from a row's word of spec/opcode_table.json. -/
def decodeTableWord (nbits w : Nat) : Option Instr :=
  match decode (tableWord nbits w) with
  | .ok i => some i
  | .error _ => none

end Sys2Proof
end

