-- ==== Sys2Proof/Config.lean ====
section
/-! DEFINITION. The constants spec/00_scope.md R6 fixes and the values the model names where the spec leaves one open. -/

namespace Sys2Proof.Config

/-- `WINDOW_BYTES` (R6): bytes loaded by one refill. -/
def windowBytes : Nat := 8

/-- `CNT_MAX_RD` (R6): largest bit count of one read. -/
def countMaxRead : Nat := 57

/-- `P_MAX_ENC` (R6): largest remainder width of the encoders; also the largest count of one write (R127). -/
def pMaxEncode : Nat := 56

/-- `MARGIN` (R6): the safety margin of the Golomb encoder's capacity check, in bytes. -/
def margin : Nat := 1024

/-- `CAP_DEFAULT` (R6): the reset value of `CAP`, 4 MiB. -/
def capDefault : Word := 4194304#64

/-- The least `MEMSIZE` (R7, spec/92_eei_decisions.md D6). -/
def memSizeMin : Nat := 8

/-- The greatest `MEMSIZE` (R7, spec/92_eei_decisions.md D6). -/
def memSizeMax : Nat := 2 ^ 60

/-- DESIGN CHOICE, unsafe (log 2): the `MEMSIZE` that `State.reset` carries. `MEMSIZE` is an open parameter
(R7); every statement of the model is over every `MEMSIZE`. -/
def memSizeAtReset : Nat := 4194304

/-- DESIGN CHOICE, unsafe (log 1): what a byte of `BUF` that memory does not list reads as. The spec gives
the contents of `BUF` at launch no value (spec/93_implementation_defined.md U18); a memory that lists bytes
stands for any contents. -/
def unlistedByte : Byte := 0#8

end Sys2Proof.Config
end

