-- ==== Sys2Proof/Machine/State.lean ====
section
/-! DEFINITION. The state of the block, the buffer and the ports, and the machine right after reset. -/

namespace Sys2Proof.Machine

/-- `STATUS.MODE` (spec/10_state.md R31). The values 6 and 7, which no rule produces, are not of the type
(spec/93_implementation_defined.md U20). -/
inductive Mode where
  | fresh
  | rd
  | wr
  | encg
  | encf
  | done
deriving DecidableEq, Repr

/-- The seven fault codes (spec/30_encoding.md R86; spec/60_exceptions.md R204 to R208, R214, R215). -/
inductive FaultCode where
  | cmd
  | seq
  | count
  | width
  | cursor
  | bus
  | ovf
deriving DecidableEq, Repr

/-- The statuses a response can carry (R86). -/
inductive Status where
  | ok
  | eParam
  | eCapacity
  | eEmpty
  | fault (code : FaultCode)
  | refused
deriving DecidableEq, Repr

/-- The response word `RESP` (R86): `RSTATUS` and `RVAL`. -/
structure Response where
  status : Status
  value : Word
deriving DecidableEq, Repr

/-- What the host can do to the block and to the buffer between commands (spec/70_reset_and_hazards.md
R231, R243, R248). DESIGN CHOICE (log 4): the host's actions stand in the state as a list of these. -/
inductive PortEvent where
  /-- A command word is presented on the command port (R80). -/
  | command (w : CmdWord)
  /-- The reset input is applied (R230). -/
  | reset
  /-- The host writes one byte of the buffer (R243). -/
  | poke (offset : Nat) (value : Byte)
deriving DecidableEq, Repr

/-- The buffer `BUF` (spec/20_memory.md R50): offset and byte pairs, offsets strictly rising, no byte equal
to what an unlisted one reads as. -/
abbrev Memory := List Host.Cell

/-- The seven registers of R30, the buffer, and the ports. The types of `bitOff`, `p`, `mode` and `fault`
hold the legal values and no others (R22, R29, U20). -/
structure State where
  /-- `LOOKAHEAD`, register 0 (R21) -/
  lookahead : Word
  /-- `BITOFF`, register 1, a 7-bit register of legal values 0..64 (R22) -/
  bitOff : Fin 65
  /-- `BYTEOFF`, register 2 (R23) -/
  byteOff : Word
  /-- `ACC`, register 3 (R28) -/
  acc : Word
  /-- `P`, register 4, a 6-bit register of legal values 0..56 (R29) -/
  p : Fin 57
  /-- `CAP`, register 5 (R27) -/
  cap : Word
  /-- `STATUS.MODE` (R31) -/
  mode : Mode
  /-- `STATUS.FAULT` and `STATUS.FCODE` (R30, R210): none while `FAULT` is 0, else the first fault's code. -/
  fault : Option FaultCode
  /-- `BUF` (R50) -/
  mem : Memory
  /-- The parameter `MEMSIZE` (R7), which no step changes. -/
  memSize : Nat
  /-- What the host will present, oldest first. -/
  inputs : List PortEvent
  /-- The response port: the response of the last command since reset. -/
  resp : Option Response
deriving DecidableEq, Repr

/-- Why the machine stops. No command stops it: the block's own faults are sticky codes (R210). -/
inductive Fault where
  /-- Raised by a host write of the buffer at an offset that is not in the window of `MEMSIZE` bytes: the
  byte does not exist (R50, R53) and R248 gives the host no such move. Safe: the machine stops (log 6). -/
  | pokeOutsideWindow (offset : Nat)
deriving DecidableEq, Repr

/-- Why an instruction has no meaning. -/
inductive Refusal where
  /-- For an arm of `exec` that has no meaning yet; no arm raises it. Safe. -/
  | notModelled (mnemonic : String)
deriving DecidableEq, Repr

/-- The machine right after reset (R37, R230). The registers have the values R37 states; `mem` lists nothing
(log 1), `memSize` is the model's (log 2), no event is waiting (log 4) and no response has been given (log 5). -/
def State.reset : State where
  lookahead := 0#64
  bitOff := 0
  byteOff := 0#64
  acc := 0#64
  p := 0
  cap := Config.capDefault
  mode := .fresh
  fault := none
  mem := []
  memSize := Config.memSizeAtReset
  inputs := []
  resp := none

end Sys2Proof.Machine
end

