-- ==== Sys2Proof/Machine/Ops.lean ====
section
/-! DEFINITION. The named operations: register updates, the buffer, fault entry and reset, the micro-operations. -/

namespace Sys2Proof.Machine

/-! ## Register updates -/

def State.setLookahead (s : State) (v : Word) : State := { s with lookahead := v }
def State.setBitOff (s : State) (v : Fin 65) : State := { s with bitOff := v }
def State.setByteOff (s : State) (v : Word) : State := { s with byteOff := v }
def State.setAcc (s : State) (v : Word) : State := { s with acc := v }
def State.setP (s : State) (v : Fin 57) : State := { s with p := v }
def State.setCap (s : State) (v : Word) : State := { s with cap := v }
def State.setMode (s : State) (v : Mode) : State := { s with mode := v }
def State.setFault (s : State) (v : Option FaultCode) : State := { s with fault := v }
def State.setMem (s : State) (v : Memory) : State := { s with mem := v }
def State.setInputs (s : State) (v : List PortEvent) : State := { s with inputs := v }
def State.setResp (s : State) (v : Option Response) : State := { s with resp := v }

/-- A bit offset from a number; the rules that call it keep the number at most 64 (R22). -/
def bitOffOf (n : Nat) : Fin 65 := Fin.ofNat 65 n

/-- A remainder width from a number; the rules that call it keep the number at most 56 (R29). -/
def widthOf (n : Nat) : Fin 57 := Fin.ofNat 57 n

/-- The stream position `POS = 8·BYTEOFF + BITOFF` (R32). -/
def State.pos (s : State) : Nat := 8 * s.byteOff.toNat + s.bitOff.val

/-- `STATUS.FAULT` (R30). -/
def State.faulted (s : State) : Bool := s.fault.isSome

/-! ## The buffer -/

/-- The byte of the buffer at an offset; an unlisted byte reads as `Config.unlistedByte` (log 1). -/
def Memory.read : Memory → Nat → Byte
  | [], _ => Config.unlistedByte
  | c :: m, a => if c.1 = a then c.2 else Memory.read m a

/-- A cell in front of a memory, unless its byte is what an unlisted byte reads as. -/
def Memory.consCell (a : Nat) (b : Byte) (m : Memory) : Memory :=
  if b = Config.unlistedByte then m else (a, b) :: m

/-- Stores one byte, keeping the canonical form. -/
def Memory.write : Memory → Nat → Byte → Memory
  | [], a, b => Memory.consCell a b []
  | c :: m, a, b =>
    if a < c.1 then Memory.consCell a b (c :: m)
    else if a = c.1 then Memory.consCell a b m
    else c :: Memory.write m a b

/-- The canonical form: offsets strictly rising, no byte equal to what an unlisted byte reads as. -/
abbrev Memory.wf (m : Memory) : Prop :=
  m.Pairwise (fun x y => x.1 < y.1) ∧ ∀ c ∈ m, c.2 ≠ Config.unlistedByte

/-- `n` bytes from `a`, big-endian (R11, R54). -/
def Memory.readBytes (m : Memory) (a : Nat) : Nat → Nat
  | 0 => 0
  | n + 1 => Memory.readBytes m a n * 256 + (Memory.read m (a + n)).toNat

/-- `n` bytes to `a`, big-endian, in rising order of offset (R11, R54). -/
def Memory.writeBytes (m : Memory) (a : Nat) : Nat → Nat → Memory
  | 0, _ => m
  | n + 1, v => Memory.write (Memory.writeBytes m a n (v / 256)) (a + n) (BitVec.ofNat 8 v)

/-- The bounds rule R52: an access of `n ≥ 1` bytes with `a + n > MEMSIZE` is out of the window. -/
def State.outOfWindow (s : State) (a n : Nat) : Bool := decide (1 ≤ n ∧ s.memSize < a + n)

/-- `MemRead(a, n)` (R11, R52); none where it raises `F_BUS`. -/
def State.memRead (s : State) (a n : Nat) : Option Nat :=
  if s.outOfWindow a n then none else some (Memory.readBytes s.mem a n)

/-- `MemWrite(a, n, v)` (R11, R52); none where it raises `F_BUS`. -/
def State.memWrite (s : State) (a n v : Nat) : Option State :=
  if s.outOfWindow a n then none else some (s.setMem (Memory.writeBytes s.mem a n v))

/-! ## Responses, fault entry, refusal, reset -/

/-- `reply(status, value)` (R11, R86). -/
def reply (status : Status) (value : Word) (s : State) : State := s.setResp (some ⟨status, value⟩)

/-- Fault entry (R210): `FCODE` takes the code unless a fault is already latched, `FAULT` becomes 1, the
response is `(code, 0)`; nothing else is saved and control goes nowhere. -/
def raiseFault (code : FaultCode) (s : State) : State :=
  reply (.fault code) 0#64 (s.setFault (some (s.fault.getD code)))

/-- The answer of a faulted block (R212): `(0xFF, 0)` and nothing changes. -/
def refuse (s : State) : State := reply .refused 0#64 s

/-- An illegal command word (R84, R85, R214): refused by a faulted block, else `F_CMD`. -/
def illegalCommand (s : State) : State := if s.faulted then refuse s else raiseFault .cmd s

/-- Reset (R230, R231), the one way out of a fault: every register to its reset value, the buffer kept.
`MEMSIZE` is a parameter and the host's coming events are the host's: both are kept. -/
def resetBlock (s : State) : State :=
  { State.reset with mem := s.mem, memSize := s.memSize, inputs := s.inputs }

/-- The host stores one byte of the buffer (R243). -/
def pokeByte (a : Nat) (b : Byte) (s : State) : State := s.setMem (Memory.write s.mem a b)

/-- A fresh cursor (R26, R100). -/
def zeroCursor (s : State) : State := ((s.setLookahead 0#64).setBitOff 0).setByteOff 0#64

/-! ## Micro-operations -/

/-- How a micro-operation ends: done with a value, or a fault raised at that point (R11, R211). Either way
the state is what the command's completed micro-operations left. -/
inductive Micro (α : Type) where
  | done (value : α) (s : State)
  | raised (code : FaultCode) (s : State)
deriving DecidableEq, Repr

/-- One micro-operation after another. -/
def Micro.andThen {α β : Type} (m : Micro α) (k : α → State → Micro β) : Micro β :=
  match m with
  | .done v s => k v s
  | .raised c s => .raised c s

/-- The end of a command: a raised fault is taken (R210), else the rest of the rule runs. -/
def Micro.finish {α : Type} (m : Micro α) (k : α → State → State) : State :=
  match m with
  | .done v s => k v s
  | .raised c s => raiseFault c s

/-- The refill address `BYTEOFF + (BITOFF >> 3)` (R101), a mathematical integer. -/
def State.refillAddress (s : State) : Nat := s.byteOff.toNat + s.bitOff.val / 8

/-- `U.REFILL` (R101). -/
def refill (s : State) : Micro Unit :=
  match s.memRead s.refillAddress Config.windowBytes with
  | none => .raised .bus s
  | some w =>
    .done () (((s.setByteOff (BitVec.ofNat 64 s.refillAddress)).setLookahead (BitVec.ofNat 64 w)).setBitOff
      (bitOffOf (s.bitOff.val % 8)))

/-- `U.PEEK(count)` (R102). -/
def peek (count : Nat) (s : State) : Word := (s.lookahead <<< s.bitOff.val) >>> (64 - count)

/-- `U.CONSUME(count)` (R103). -/
def consume (count : Nat) (s : State) : State := s.setBitOff (bitOffOf (s.bitOff.val + count))

/-- `U.GETBITS(count)` (R104). -/
def getBits (count : Nat) (s : State) : Micro Word :=
  (refill s).andThen fun _ s' => .done (peek count s') (consume count s')

/-- `U.REFILLW` (R121): `F_CURSOR` before `F_BUS`, both before any change. -/
def refillW (s : State) : Micro Unit :=
  if 64 ≤ s.bitOff.val then .raised .cursor s
  else
    match s.memWrite s.byteOff.toNat (s.bitOff.val / 8)
        (s.lookahead.toNat / 2 ^ (64 - 8 * (s.bitOff.val / 8))) with
    | none => .raised .bus s
    | some s' =>
      .done () (((s'.setByteOff (BitVec.ofNat 64 (s.byteOff.toNat + s.bitOff.val / 8))).setLookahead
        (s.lookahead <<< (8 * (s.bitOff.val / 8)))).setBitOff (bitOffOf (s.bitOff.val % 8)))

/-- `U.WRITE(value, count)` (R122). -/
def writeBits (value : Word) (count : Nat) (s : State) : State :=
  s.setLookahead (s.lookahead ||| ((value <<< (64 - count)) >>> s.bitOff.val))

/-- `U.PUTBITS(value, count)` (R123). -/
def putBits (value : Word) (count : Nat) (s : State) : Micro Unit :=
  (refillW s).andThen fun _ s' => .done () (consume count (writeBits value count s'))

/-- The partial byte of `U.FINALW` (R124): the whole top byte of `LOOKAHEAD`, if any bit is queued. -/
def putPartialByte (s : State) : Micro Unit :=
  if s.bitOff.val = 0 then .done () s
  else
    match s.memWrite s.byteOff.toNat 1 (s.lookahead.toNat / 2 ^ 56) with
    | none => .raised .bus s
    | some s' => .done () (s'.setByteOff (BitVec.ofNat 64 (s.byteOff.toNat + 1)))

/-- `U.FINALW` (R124): when the partial byte faults the drain stays done. -/
def finalW (s : State) : Micro Unit := (refillW s).andThen fun _ s' => putPartialByte s'

/-- The unary ones of an item, one bit a `U.PUTBITS` (R143, R144). -/
def putOnes : Nat → State → Micro Unit
  | 0, s => .done () s
  | q + 1, s => (putBits 1#64 1 s).andThen fun _ s' => putOnes q s'

/-- The unary reader of `DECG` with at most `fuel` reads left (R171, R173): counts the 1 bits, consumes the
terminator. With no read left the next refill is past the window (R175). -/
def readUnaryFuel : Nat → Nat → State → Micro Nat
  | 0, _, s => .raised .bus s
  | fuel + 1, q, s =>
    (getBits 1 s).andThen fun b s' => if b = 1#64 then readUnaryFuel fuel (q + 1) s' else .done q s'

/-- The loop of `DECG` (R171). Every read moves the position by one bit and a refill above `MEMSIZE - 8`
faults, so `8·MEMSIZE` reads are more than can succeed (R175). -/
def readUnary (s : State) : Micro Nat := readUnaryFuel (8 * s.memSize) 0 s

end Sys2Proof.Machine
end

