-- ==== Sys2Proof/Machine/Flags.lean ====
section
/-! DEFINITION. The status register, the status codes, the response word and the mode admission table. The block has no condition codes (R35). -/

namespace Sys2Proof.Machine

/-- The value of `MODE` (R31). -/
def Mode.code : Mode → BitVec 3
  | .fresh => 0#3
  | .rd => 1#3
  | .wr => 2#3
  | .encg => 3#3
  | .encf => 4#3
  | .done => 5#3

/-- The fault codes of R86. -/
def FaultCode.byte : FaultCode → Byte
  | .cmd => 0x81#8
  | .seq => 0x82#8
  | .count => 0x83#8
  | .width => 0x84#8
  | .cursor => 0x85#8
  | .bus => 0x86#8
  | .ovf => 0x87#8

/-- The status codes of R86. -/
def Status.byte : Status → Byte
  | .ok => 0x00#8
  | .eParam => 0x01#8
  | .eCapacity => 0x02#8
  | .eEmpty => 0x03#8
  | .fault c => c.byte
  | .refused => 0xFF#8

/-- The response word `RESP = {RSTATUS, RVAL}` (R86). -/
def Response.word (r : Response) : BitVec 72 := r.status.byte ++ r.value

/-- `FCODE` (R30): the first fault's code, 0 while `FAULT` is 0. -/
def State.fcode (s : State) : Byte :=
  match s.fault with
  | none => 0#8
  | some c => c.byte

/-- `STATUS` as `RDREG 6` reads it (R30): `FCODE` in 15:8, `FAULT` in 3, `MODE` in 2:0, zero elsewhere. -/
def State.statusWord (s : State) : Word :=
  0#48 ++ s.fcode ++ 0#4 ++ BitVec.ofBool s.faulted ++ s.mode.code

/-- The modes that admit `GETBITS`, `DECF` and `DECG` (R31). -/
def Mode.admitsRead : Mode → Bool
  | .fresh => true
  | .rd => true
  | .wr => false
  | .encg => false
  | .encf => false
  | .done => false

/-- The modes that admit `PUTBITS` and `FINALIZE` (R31, R125, R126). -/
def Mode.admitsWrite : Mode → Bool
  | .fresh => true
  | .rd => false
  | .wr => true
  | .encg => false
  | .encf => false
  | .done => false

/-- The modes that admit `ENCG.START` and `ENCF.START` (R31). -/
def Mode.admitsStart : Mode → Bool
  | .fresh => true
  | .rd => true
  | .wr => true
  | .encg => false
  | .encf => false
  | .done => true

/-- The mode that admits `ENCG.ITEM` and `ENCG.END` (R31). -/
def Mode.admitsGolombItem : Mode → Bool
  | .fresh => false
  | .rd => false
  | .wr => false
  | .encg => true
  | .encf => false
  | .done => false

/-- The mode that admits `ENCF.ITEM` and `ENCF.END` (R31). -/
def Mode.admitsFixedItem : Mode → Bool
  | .fresh => false
  | .rd => false
  | .wr => false
  | .encg => false
  | .encf => true
  | .done => false

/-- The modes that admit `WRREG` (R31, R192). -/
def Mode.admitsRegWrite : Mode → Bool
  | .fresh => true
  | .rd => true
  | .wr => true
  | .encg => false
  | .encf => false
  | .done => false

/-- The value `RDREG` reads, zero-extended to 64 bits (R30, R191). -/
def readReg (reg : Reg) (s : State) : Word :=
  match reg with
  | .lookahead => s.lookahead
  | .bitoff => BitVec.ofNat 64 s.bitOff.val
  | .byteoff => s.byteOff
  | .acc => s.acc
  | .p => BitVec.ofNat 64 s.p.val
  | .cap => s.cap
  | .status => s.statusWord

/-- The register write of `WRREG` (R192), for a value the rule has checked; a read-only register keeps its value. -/
def writeReg (reg : Reg) (value : Word) (s : State) : State :=
  match reg with
  | .lookahead => s.setLookahead value
  | .bitoff => s.setBitOff (bitOffOf value.toNat)
  | .byteoff => s.setByteOff value
  | .acc => s
  | .p => s
  | .cap => s.setCap value
  | .status => s

/-- `WRREG 1` with a value above 64 (R192, R207). -/
def illegalBitOff (reg : Reg) (value : Word) : Bool := decide (reg = .bitoff ∧ 64 < value.toNat)

end Sys2Proof.Machine
end

