-- ==== Sys2Proof/Machine/Operands.lean ====
section
/-! DEFINITION. Operand ranges and the codec's arithmetic: R83, R102, R127, R141, R143, R152, R171, R176. -/

namespace Sys2Proof.Machine

/-- A count or width the read side accepts: 1..57 (R105, R176). -/
def readCountOk (c : Byte) : Bool := decide (1 ≤ c.toNat ∧ c.toNat ≤ Config.countMaxRead)

/-- A count the write side accepts: 1..56 (R127). -/
def writeCountOk (c : Byte) : Bool := decide (1 ≤ c.toNat ∧ c.toNat ≤ Config.pMaxEncode)

/-- A remainder width the encoders call a parameter error: above 56 (R141, R161). -/
def widthTooLarge (p : Byte) : Bool := decide (Config.pMaxEncode < p.toNat)

/-- `value >> count = 0` (R122, R206). -/
def fitsIn (value : Word) (count : Nat) : Bool := decide (value >>> count = 0#64)

/-- The delta transform: `(v - ACC) mod 2^64` (R145). -/
def deltaOf (value acc : Word) : Word := value - acc

/-- The quotient `delta >> p` (R72, R143). -/
def quotientOf (delta : Word) (p : Nat) : Nat := (delta >>> p).toNat

/-- The remainder `delta & (2^p - 1)` (R72, R143). -/
def remainderOf (delta : Word) (p : Nat) : Word := delta &&& BitVec.ofNat 64 (2 ^ p - 1)

/-- `q < 2^(64-p)`: the decoded value fits in 64 bits (R174). -/
def quotientFits (q p : Nat) : Bool := decide (q < 2 ^ (64 - p))

/-- `(q << p) + r` (R72, R171). -/
def itemValue (q p : Nat) (r : Word) : Word := BitVec.ofNat 64 (q * 2 ^ p + r.toNat)

/-- The capacity check `BYTEOFF + 1024 ≥ CAP` on mathematical integers (R146). -/
def capacityReached (byteOff cap : Word) : Bool := decide (cap.toNat ≤ byteOff.toNat + Config.margin)

end Sys2Proof.Machine
end

