-- ==== Sys2Proof/Machine/ReadCursor.lean ====
section
/-! DEFINITION. The read side of the bit cursor: `INIT` and `GETBITS` (spec/40_cursor_read.md). -/

namespace Sys2Proof.Machine

/-- `INIT` (R100). -/
def execInit (s : State) : Host.Outcome State Fault Refusal :=
  if s.faulted then .next (refuse s)
  else .next (reply .ok 0#64 ((zeroCursor s).setMode .fresh))

/-- The field read that `GETBITS` (R105) and `DECF` (R177) share: mode, count, `U.GETBITS`. -/
def readField (count : Byte) (s : State) : State :=
  if !s.mode.admitsRead then raiseFault .seq s
  else if !readCountOk count then raiseFault .count s
  else (getBits count.toNat s).finish fun v s' => reply .ok v (s'.setMode .rd)

/-- `GETBITS count` (R105). -/
def execGetbits (count : Byte) (s : State) : Host.Outcome State Fault Refusal :=
  if s.faulted then .next (refuse s) else .next (readField count s)

end Sys2Proof.Machine
end

