-- ==== Sys2Proof/Machine/Decoders.lean ====
section
/-! DEFINITION. The decoders: `DECG` and `DECF` (spec/44_decode.md). -/

namespace Sys2Proof.Machine

/-- The item read of `DECG` (R171) after its checks: the unary quotient, then the remainder. -/
def readItem (p : Nat) (s : State) : Micro (Nat × Word) :=
  (readUnary s).andThen fun q s' => (getBits p s').andThen fun r s'' => .done (q, r) s''

/-- `DECG p` (R171, R174). -/
def execDecg (p : Byte) (s : State) : Host.Outcome State Fault Refusal :=
  if s.faulted then .next (refuse s)
  else if !s.mode.admitsRead then .next (raiseFault .seq s)
  else if !readCountOk p then .next (raiseFault .count s)
  else .next ((readItem p.toNat s).finish fun item s' =>
    if quotientFits item.1 p.toNat then reply .ok (itemValue item.1 p.toNat item.2) (s'.setMode .rd)
    else raiseFault .ovf s')

/-- `DECF p` (R177). -/
def execDecf (p : Byte) (s : State) : Host.Outcome State Fault Refusal :=
  if s.faulted then .next (refuse s) else .next (readField p s)

end Sys2Proof.Machine
end

