-- ==== Sys2Proof/Machine/WriteCursor.lean ====
section
/-! DEFINITION. The write side of the bit cursor: `PUTBITS` and `FINALIZE` (spec/41_cursor_write.md). -/

namespace Sys2Proof.Machine

/-- `PUTBITS value, count` (R125). -/
def execPutbits (value : Word) (count : Byte) (s : State) : Host.Outcome State Fault Refusal :=
  if s.faulted then .next (refuse s)
  else if !s.mode.admitsWrite then .next (raiseFault .seq s)
  else if !writeCountOk count then .next (raiseFault .count s)
  else if !fitsIn value count.toNat then .next (raiseFault .width s)
  else .next ((putBits value count.toNat s).finish fun _ s' => reply .ok 0#64 (s'.setMode .wr))

/-- `FINALIZE` (R126). -/
def execFinalize (s : State) : Host.Outcome State Fault Refusal :=
  if s.faulted then .next (refuse s)
  else if !s.mode.admitsWrite then .next (raiseFault .seq s)
  else .next ((finalW s).finish fun _ s' => reply .ok s'.byteOff (s'.setMode .done))

/-- The end of an encode session, shared by `ENCG.END` (R148) and `ENCF.END` (R164). -/
def endSession (s : State) : State :=
  (finalW s).finish fun _ s' =>
    if s'.byteOff = 0#64 then reply .eEmpty 0#64 (s'.setMode .done)
    else reply .ok s'.byteOff (s'.setMode .done)

end Sys2Proof.Machine
end

