-- ==== Sys2Proof/Machine/FixedEncode.lean ====
section
/-! DEFINITION. The fixed-width encoder: `ENCF.START`, `ENCF.ITEM`, `ENCF.END` (spec/43_fixed_encode.md). -/

namespace Sys2Proof.Machine

/-- `ENCF.START p` (R161): as `ENCG.START`, but `ACC` is left alone. -/
def execEncfStart (p : Byte) (s : State) : Host.Outcome State Fault Refusal :=
  if s.faulted then .next (refuse s)
  else if !s.mode.admitsStart then .next (raiseFault .seq s)
  else if p = 0#8 then .next (raiseFault .count s)
  else if widthTooLarge p then .next (reply .eParam 0#64 s)
  else .next (reply .ok 0#64 (((zeroCursor s).setP (widthOf p.toNat)).setMode .encf))

/-- `ENCF.ITEM value` (R162, R163): no capacity check (R165). -/
def execEncfItem (value : Word) (s : State) : Host.Outcome State Fault Refusal :=
  if s.faulted then .next (refuse s)
  else if !s.mode.admitsFixedItem then .next (raiseFault .seq s)
  else if !fitsIn value s.p.val then .next (raiseFault .width s)
  else .next ((putBits value s.p.val s).finish fun _ s' => reply .ok 0#64 s')

/-- `ENCF.END` (R164). -/
def execEncfEnd (s : State) : Host.Outcome State Fault Refusal :=
  if s.faulted then .next (refuse s)
  else if !s.mode.admitsFixedItem then .next (raiseFault .seq s)
  else .next (endSession s)

end Sys2Proof.Machine
end

