-- ==== Sys2Proof/Machine/GolombEncode.lean ====
section
/-! DEFINITION. The Golomb-Rice encoder: `ENCG.START`, `ENCG.ITEM`, `ENCG.END` (spec/42_golomb_encode.md). -/

namespace Sys2Proof.Machine

/-- `ENCG.START p` (R141). -/
def execEncgStart (p : Byte) (s : State) : Host.Outcome State Fault Refusal :=
  if s.faulted then .next (refuse s)
  else if !s.mode.admitsStart then .next (raiseFault .seq s)
  else if p = 0#8 then .next (raiseFault .count s)
  else if widthTooLarge p then .next (reply .eParam 0#64 s)
  else .next (reply .ok 0#64 ((((zeroCursor s).setAcc 0#64).setP (widthOf p.toNat)).setMode .encg))

/-- The bits of a Golomb-Rice item of value `d` (R143, R71): `q` ones, a zero, the remainder in `p` bits. -/
def putItem (d : Word) (p : Nat) (s : State) : Micro Unit :=
  (putOnes (quotientOf d p) s).andThen fun _ s' =>
    (putBits 0#64 1 s').andThen fun _ s'' => putBits (remainderOf d p) p s''

/-- `ENCG.ITEM value` (R143): `ACC` is updated before the bits are put; the capacity check comes last (R146). -/
def execEncgItem (value : Word) (s : State) : Host.Outcome State Fault Refusal :=
  if s.faulted then .next (refuse s)
  else if !s.mode.admitsGolombItem then .next (raiseFault .seq s)
  else .next
    ((putItem (deltaOf value s.acc) s.p.val (s.setAcc (s.acc + deltaOf value s.acc))).finish fun _ s' =>
      if capacityReached s'.byteOff s'.cap then reply .eCapacity 0#64 (s'.setMode .done)
      else reply .ok 0#64 s')

/-- `ENCG.END` (R148). -/
def execEncgEnd (s : State) : Host.Outcome State Fault Refusal :=
  if s.faulted then .next (refuse s)
  else if !s.mode.admitsGolombItem then .next (raiseFault .seq s)
  else .next (endSession s)

end Sys2Proof.Machine
end

