-- ==== Sys2Proof/Machine/RegisterAccess.lean ====
section
/-! DEFINITION. Register access: `RDREG` and `WRREG` (spec/45_register_access.md). -/

namespace Sys2Proof.Machine

/-- `RDREG reg` (R191): admitted in every mode and by a faulted block. -/
def execRdreg (reg : Reg) (s : State) : Host.Outcome State Fault Refusal :=
  .next (reply .ok (readReg reg s) s)

/-- `WRREG reg, value` (R192): `F_CMD`, then `F_SEQ`, then `F_CURSOR`. -/
def execWrreg (reg : Reg) (value : Word) (s : State) : Host.Outcome State Fault Refusal :=
  if s.faulted then .next (refuse s)
  else if !reg.writable then .next (raiseFault .cmd s)
  else if !s.mode.admitsRegWrite then .next (raiseFault .seq s)
  else if illegalBitOff reg value then .next (raiseFault .cursor s)
  else .next (reply .ok 0#64 (writeReg reg value s))

end Sys2Proof.Machine
end

