-- ==== Sys2Proof/Machine/Dispatch.lean ====
section
/-! DEFINITION. One arm per command (R82). -/

namespace Sys2Proof.Machine

def exec (i : Instr) (s : State) : Host.Outcome State Fault Refusal :=
  match i with
  | .init => Sys2Proof.Machine.execInit s
  | .getbits count => Sys2Proof.Machine.execGetbits count s
  | .putbits value count => Sys2Proof.Machine.execPutbits value count s
  | .finalize => Sys2Proof.Machine.execFinalize s
  | .decg p => Sys2Proof.Machine.execDecg p s
  | .decf p => Sys2Proof.Machine.execDecf p s
  | .encgStart p => Sys2Proof.Machine.execEncgStart p s
  | .encgItem value => Sys2Proof.Machine.execEncgItem value s
  | .encgEnd => Sys2Proof.Machine.execEncgEnd s
  | .encfStart p => Sys2Proof.Machine.execEncfStart p s
  | .encfItem value => Sys2Proof.Machine.execEncfItem value s
  | .encfEnd => Sys2Proof.Machine.execEncfEnd s
  | .rdreg reg => Sys2Proof.Machine.execRdreg reg s
  | .wrreg reg value => Sys2Proof.Machine.execWrreg reg value s

end Sys2Proof.Machine
end

