-- ==== Sys2Proof/Machine/Port.lean ====
section
/-! DEFINITION. What the block does with one event the host presents: a command word, reset, a buffer write. -/

namespace Sys2Proof.Machine

/-- A command word on the command port (R84, R85): decoded, then run or illegal. -/
def runCommand (w : CmdWord) (s : State) : Host.Outcome State Fault Refusal :=
  match decode w with
  | .ok i => exec i s
  | .error _ => .next (illegalCommand s)

/-- A host write of one buffer byte between commands (R243); outside the window there is no byte (log 6). -/
def runPoke (a : Nat) (b : Byte) (s : State) : Host.Outcome State Fault Refusal :=
  if s.outOfWindow a 1 then .fault (.pokeOutsideWindow a) else .next (pokeByte a b s)

/-- One event, after it has left the list of coming events. -/
def runEvent (e : PortEvent) (s : State) : Host.Outcome State Fault Refusal :=
  match e with
  | .command w => runCommand w s
  | .reset => .next (resetBlock s)
  | .poke a b => runPoke a b s

/-- The next event is taken off the list and runs; with none the block waits (R230). -/
def takeEvent (s : State) : Host.Outcome State Fault Refusal :=
  match s.inputs with
  | [] => .next s
  | e :: rest => runEvent e (s.setInputs rest)

/-- The command port presents one more word before everything the host has waiting. -/
def presentCommand (w : CmdWord) (s : State) : State := s.setInputs (.command w :: s.inputs)

end Sys2Proof.Machine
end

