-- ==== Sys2Proof/Machine/Step.lean ====
section
/-! DEFINITION. The step of the machine, and how a command word is placed where the step takes its next one. -/

namespace Sys2Proof.Machine

/-- One step: one event of the host (R251). -/
def step (s : State) : Host.Outcome State Fault Refusal := takeEvent s

/-- `s` with a row's word of spec/opcode_table.json presented on the command port as the next event. -/
def State.withFetchWord (s : State) (nbits w : Nat) : State := presentCommand (tableWord nbits w) s

end Sys2Proof.Machine
end

