-- ==== Sys2Proof/Machine/HostMacros.lean ====
section
/-! DEFINITION. The pseudo-instructions: the host's sequences of commands of spec/30_encoding.md R88 to R91. -/

namespace Sys2Proof.Machine

/-- The state after one command. -/
def issue (i : Instr) (s : State) : State :=
  match exec i s with
  | .next t => t
  | .fault _ => s
  | .refused _ => s

/-- The last response is `OK`. -/
def State.answeredOk (s : State) : Bool := decide (s.resp.map Response.status = some .ok)

/-- The value of the last response. -/
def State.answer (s : State) : Word := (s.resp.map Response.value).getD 0#64

/-- Commands issued in order until the first response that is not `OK` (R88). -/
def issueWhileOk : List Instr → State → State
  | [], s => s
  | i :: is, s => if (issue i s).answeredOk then issueWhileOk is (issue i s) else issue i s

/-- `ENCODE_GOLOMB p, values` (R88); the response left on the port is the call's result. -/
def encodeGolomb (p : Byte) (values : List Word) (s : State) : State :=
  issueWhileOk (.encgStart p :: (values.map .encgItem ++ [.encgEnd])) s

/-- `ENCODE_FIXED p, values` (R89). -/
def encodeFixed (p : Byte) (values : List Word) (s : State) : State :=
  issueWhileOk (.encfStart p :: (values.map .encfItem ++ [.encfEnd])) s

/-- `n` times `DECF p`, collecting the returned values (R90). -/
def decodeFixedItems (p : Byte) : Nat → State → List Word × State
  | 0, s => ([], s)
  | n + 1, s =>
    let rest := decodeFixedItems p n (issue (.decf p) s)
    ((issue (.decf p) s).answer :: rest.1, rest.2)

/-- `DECODE_FIXED p, n` (R90). -/
def decodeFixed (p : Byte) (n : Nat) (s : State) : List Word × State := decodeFixedItems p n (issue .init s)

/-- `n` times `DECG p` with the host's prefix sum, stopping at the first response that is not `OK` (R91). -/
def decodeGcsItems (p : Byte) : Nat → Word → State → List Word × State
  | 0, _, s => ([], s)
  | n + 1, sum, s =>
    let t := issue (.decg p) s
    if t.answeredOk then
      let rest := decodeGcsItems p n (sum + t.answer) t
      ((sum + t.answer) :: rest.1, rest.2)
    else ([], t)

/-- `DECODE_GCS p, n` (R91). -/
def decodeGcs (p : Byte) (n : Nat) (s : State) : List Word × State := decodeGcsItems p n 0#64 (issue .init s)

end Sys2Proof.Machine
end

