-- ==== Sys2Proof/Machine/Pass.lean ====
section
/-! DEFINITION. Runs, passes and their good end: spec/70_reset_and_hazards.md R249. -/

namespace Sys2Proof.Machine

/-- A run: the finite sequence of commands the host issues (R249), whatever each answers. -/
def issueAll : List Instr → State → State
  | [], s => s
  | i :: is, s => issueAll is (issue i s)

/-- Every command of a run answers `OK`. -/
def allAnsweredOk : List Instr → State → Bool
  | [], _ => true
  | i :: is, s => (issue i s).answeredOk && allAnsweredOk is (issue i s)

/-- The commands that close a write pass: `FINALIZE`, `ENCG.END`, `ENCF.END` (R249). -/
def closesWritePass : Instr → Bool
  | .init => false
  | .getbits _ => false
  | .putbits _ _ => false
  | .finalize => true
  | .decg _ => false
  | .decf _ => false
  | .encgStart _ => false
  | .encgItem _ => false
  | .encgEnd => true
  | .encfStart _ => false
  | .encfItem _ => false
  | .encfEnd => true
  | .rdreg _ => false
  | .wrreg _ _ => false

/-- The commands of a read pass: `GETBITS`, `DECG`, `DECF` (R31). -/
def readsItem : Instr → Bool
  | .init => false
  | .getbits _ => true
  | .putbits _ _ => false
  | .finalize => false
  | .decg _ => true
  | .decf _ => true
  | .encgStart _ => false
  | .encgItem _ => false
  | .encgEnd => false
  | .encfStart _ => false
  | .encfItem _ => false
  | .encfEnd => false
  | .rdreg _ => false
  | .wrreg _ _ => false

/-- A write pass has ended well with `n` bytes (R249): the command `i`, run at `s` and leaving `t`, closes a
write pass and has itself responded `OK` with `n`. It is a property of that command, not of the state alone: an
`OK` that another command gives later is no end of a pass. -/
def EndedWell (i : Instr) (s t : State) (n : Word) : Prop :=
  closesWritePass i = true ∧ exec i s = .next t ∧ t.resp = some ⟨.ok, n⟩

/-- A read pass has ended well (R249): each of the items the host meant to read was answered `OK`, and no fault
is latched. The block knows no end of a read pass; the host names the items. -/
def ReadEndedWell (items : List Instr) (s : State) : Prop :=
  (∀ i ∈ items, readsItem i = true) ∧ allAnsweredOk items s = true ∧ (issueAll items s).fault = none

end Sys2Proof.Machine
end

