-- ==== Sys2Proof/Machine/Stream.lean ====
section
/-! DEFINITION. The bitstream format, as bits of the buffer and as lists of bits: spec/00_scope.md R10, spec/30_encoding.md R70 to R77. -/

namespace Sys2Proof.Machine

/-- Stream bit `k` (R10): bit `7 - (k mod 8)` of byte `BUF[k div 8]`. -/
def Memory.streamBit (m : Memory) (k : Nat) : Bool := (Memory.read m (k / 8)).getLsbD (7 - k % 8)

/-- `StreamBits(k, n)` (R10): the `n` stream bits from `k` as a number, the first the most significant. -/
def Memory.streamBits (m : Memory) (k : Nat) : Nat → Nat
  | 0 => 0
  | n + 1 => 2 * Memory.streamBits m k n + (Memory.streamBit m (k + n)).toNat

/-- The cursor after reading `n` bits at stream position `k` (R32): `BYTEOFF = k div 8`,
`BITOFF = (k mod 8) + n`, `LOOKAHEAD` the 8 bytes from `k div 8`. -/
def State.afterRead (s : State) (k n : Nat) : State :=
  { s with
    byteOff := BitVec.ofNat 64 (k / 8)
    bitOff := bitOffOf (k % 8 + n)
    lookahead := BitVec.ofNat 64 (Memory.readBytes s.mem (k / 8) 8) }

/-- Bit `k` of the stream a write pass has produced so far (R33): in the buffer below `8·BYTEOFF`, queued at
the top of `LOOKAHEAD` from there on. -/
def State.outBit (s : State) (k : Nat) : Bool :=
  if k < 8 * s.byteOff.toNat then Memory.streamBit s.mem k
  else s.lookahead.getLsbD (63 - (k - 8 * s.byteOff.toNat))

/-- The cursor and the buffer after a drain (R121): the `BITOFF >> 3` whole bytes at the top of `LOOKAHEAD`
are in the buffer from the old `BYTEOFF` on, the other bits are carried. -/
def State.drained (s : State) : State :=
  { s with
    mem := Memory.writeBytes s.mem s.byteOff.toNat (s.bitOff.val / 8)
      (s.lookahead.toNat / 2 ^ (64 - 8 * (s.bitOff.val / 8)))
    byteOff := BitVec.ofNat 64 (s.byteOff.toNat + s.bitOff.val / 8)
    lookahead := s.lookahead <<< (8 * (s.bitOff.val / 8))
    bitOff := bitOffOf (s.bitOff.val % 8) }

/-- The cursor and the buffer after `U.FINALW` (R124): the drain, then the top byte of `LOOKAHEAD` if a bit is
still queued; `BYTEOFF` is the old one plus `BITOFF / 8` rounded up. -/
def State.closed (s : State) : State :=
  { s.drained with
    mem := Memory.writeBytes s.drained.mem s.drained.byteOff.toNat (if s.bitOff.val % 8 = 0 then 0 else 1)
      (s.drained.lookahead.toNat / 2 ^ 56)
    byteOff := BitVec.ofNat 64 (s.byteOff.toNat + (s.bitOff.val + 7) / 8) }

/-- The low `n` bits of a value, most significant first (R74). -/
def bitsOf (v : Nat) : Nat → List Bool
  | 0 => []
  | n + 1 => bitsOf (v / 2) n ++ [decide (v % 2 = 1)]

/-- A Golomb-Rice item `1^q 0 <p-bit remainder>` of the value `d` (R71, R72, R73). -/
def golombItem (p d : Nat) : List Bool :=
  List.replicate (d / 2 ^ p) true ++ false :: bitsOf (d % 2 ^ p) p

/-- The items of a sequence of values after `prev`: one per difference modulo 2^64 (R70, R77, R145). -/
def golombStream (p : Nat) : Word → List Word → List Bool
  | _, [] => []
  | prev, v :: vs => golombItem p (v - prev).toNat ++ golombStream p v vs

/-- The fixed-width stream of a sequence of values (R70, R74). -/
def fixedStream (p : Nat) (vs : List Word) : List Bool := vs.flatMap fun v => bitsOf v.toNat p

/-- The stream of a bit-level write pass: the fields of its `PUTBITS`, value and count, one after another (R33). -/
def fieldStream (fields : List (Word × Byte)) : List Bool := fields.flatMap fun f => bitsOf f.1.toNat f.2.toNat

end Sys2Proof.Machine
end

