-- ==== Sys2Proof/Safety.lean ====
section
/-! DEFINITION. The terms the statements use: a clean cursor, the invariant of the block, the admission table. -/

namespace Sys2Proof.Machine

/-- The open parameter's range (R7). -/
abbrev WindowOk (s : State) : Prop := Config.memSizeMin ≤ s.memSize ∧ s.memSize ≤ Config.memSizeMax

/-- Clean for writing (R33): `BITOFF ≤ 63` and every bit of `LOOKAHEAD` below the queued ones is zero. -/
abbrev Clean (s : State) : Prop := s.bitOff.val ≤ 63 ∧ s.lookahead.toNat % 2 ^ (64 - s.bitOff.val) = 0

/-- An encode session is open (R31). -/
abbrev InSession (s : State) : Prop := s.mode = .encg ∨ s.mode = .encf

/-- What a session keeps (R143, R148): a latched width, a clean cursor, an output offset inside the window. -/
abbrev SessionOk (s : State) : Prop := 1 ≤ s.p.val ∧ Clean s ∧ s.byteOff.toNat ≤ s.memSize

/-- What the capacity check keeps of an unfaulted Golomb session (R146): nothing was put yet, or the last
check passed. -/
abbrev MarginOk (s : State) : Prop := s.pos = 0 ∨ s.byteOff.toNat + Config.margin < s.cap.toNat

/-- `t` continues the output of `s` by `bits` (R33): the stream position moves over them, the stream reads
them after everything it read before, the cursor is clean again, and the buffer is unchanged outside the
bytes drained between the two, `BUF[s.BYTEOFF … t.BYTEOFF - 1]`. -/
structure OutputExtends (s t : State) (bits : List Bool) : Prop where
  pos : t.pos = s.pos + bits.length
  earlier : ∀ k, k < s.pos → t.outBit k = s.outBit k
  appended : ∀ j, j < bits.length → bits[j]? = some (t.outBit (s.pos + j))
  clean : Clean t
  rises : s.byteOff.toNat ≤ t.byteOff.toNat
  elsewhere : ∀ a, a < s.byteOff.toNat ∨ t.byteOff.toNat ≤ a → Memory.read t.mem a = Memory.read s.mem a

/-- The registers that no bit written or read moves (R56: the cursor and the buffer are all a micro-operation
touches): `ACC`, `P`, `CAP`, `STATUS`, the parameter and the ports. -/
structure SameControl (s t : State) : Prop where
  acc : t.acc = s.acc
  p : t.p = s.p
  cap : t.cap = s.cap
  mode : t.mode = s.mode
  fault : t.fault = s.fault
  memSize : t.memSize = s.memSize
  inputs : t.inputs = s.inputs
  resp : t.resp = s.resp

/-- The invariant of the block: the window's size is in range, the buffer is in canonical form inside the
window, and a session is in order. -/
abbrev Inv (s : State) : Prop :=
  WindowOk s ∧ Memory.wf s.mem ∧ (∀ c ∈ s.mem, c.1 < s.memSize) ∧ (InSession s → SessionOk s) ∧
    (s.fault = none → s.mode = .encg → MarginOk s)

/-- The admission table (R31): the modes that admit a command. -/
def admittedModes : Instr → List Mode
  | .init => [.fresh, .rd, .wr, .encg, .encf, .done]
  | .getbits _ => [.fresh, .rd]
  | .putbits _ _ => [.fresh, .wr]
  | .finalize => [.fresh, .wr]
  | .decg _ => [.fresh, .rd]
  | .decf _ => [.fresh, .rd]
  | .encgStart _ => [.fresh, .rd, .wr, .done]
  | .encgItem _ => [.encg]
  | .encgEnd => [.encg]
  | .encfStart _ => [.fresh, .rd, .wr, .done]
  | .encfItem _ => [.encf]
  | .encfEnd => [.encf]
  | .rdreg _ => [.fresh, .rd, .wr, .encg, .encf, .done]
  | .wrreg _ _ => [.fresh, .rd, .wr]

/-- A count or width operand outside its range (R205): reads take 1..57, `PUTBITS` 1..56, and a `START` with
0 is no width (above 56 it is `E_PARAM`, no fault). -/
def countOutOfRange : Instr → Bool
  | .init => false
  | .getbits count => decide (count.toNat = 0 ∨ 57 < count.toNat)
  | .putbits _ count => decide (count.toNat = 0 ∨ 56 < count.toNat)
  | .finalize => false
  | .decg p => decide (p.toNat = 0 ∨ 57 < p.toNat)
  | .decf p => decide (p.toNat = 0 ∨ 57 < p.toNat)
  | .encgStart p => decide (p.toNat = 0)
  | .encgItem _ => false
  | .encgEnd => false
  | .encfStart p => decide (p.toNat = 0)
  | .encfItem _ => false
  | .encfEnd => false
  | .rdreg _ => false
  | .wrreg _ _ => false

/-- A value with bits at or above its field width (R206): `PUTBITS` against its count, `ENCF.ITEM` against `P`. -/
def tooWide (s : State) : Instr → Bool
  | .init => false
  | .getbits _ => false
  | .putbits value count => decide (2 ^ count.toNat ≤ value.toNat)
  | .finalize => false
  | .decg _ => false
  | .decf _ => false
  | .encgStart _ => false
  | .encgItem _ => false
  | .encgEnd => false
  | .encfStart _ => false
  | .encfItem value => decide (2 ^ s.p.val ≤ value.toNat)
  | .encfEnd => false
  | .rdreg _ => false
  | .wrreg _ _ => false

/-- An illegal command word (R84), read off its fields `OP` = 79:72, `CNT` = 71:64, `VAL` = 63:0: an unknown
`OP`, an unused field that is not zero, a register number above 6, a write of a read-only register. -/
abbrev IllegalWord (w : CmdWord) : Prop :=
  w.toNat / 2 ^ 72 ∉ [0x01, 0x02, 0x03, 0x04, 0x08, 0x09, 0x10, 0x11, 0x12, 0x18, 0x19, 0x1A, 0x20, 0x21] ∨
  (w.toNat / 2 ^ 72 ∈ [0x01, 0x04, 0x11, 0x12, 0x19, 0x1A] ∧ w.toNat / 2 ^ 64 % 256 ≠ 0) ∨
  (w.toNat / 2 ^ 72 ∈ [0x01, 0x02, 0x04, 0x08, 0x09, 0x10, 0x12, 0x18, 0x1A, 0x20] ∧ w.toNat % 2 ^ 64 ≠ 0) ∨
  (w.toNat / 2 ^ 72 ∈ [0x20, 0x21] ∧ 6 < w.toNat / 2 ^ 64 % 256) ∨
  (w.toNat / 2 ^ 72 = 0x21 ∧ w.toNat / 2 ^ 64 % 256 ∈ [3, 4, 6])

/-- The state of a fault entry that changed nothing else (R210, R211). -/
def faultedBy (c : FaultCode) (s : State) : State :=
  { s with fault := some c, resp := some ⟨.fault c, 0#64⟩ }

/-- The commands that can write the buffer (R56). -/
def storesToBuffer : Instr → Bool
  | .init => false
  | .getbits _ => false
  | .putbits _ _ => true
  | .finalize => true
  | .decg _ => false
  | .decf _ => false
  | .encgStart _ => false
  | .encgItem _ => true
  | .encgEnd => true
  | .encfStart _ => false
  | .encfItem _ => true
  | .encfEnd => true
  | .rdreg _ => false
  | .wrreg _ _ => false

end Sys2Proof.Machine
end

