-- ==== Sys2Proof/Certificates/Slice0/Obligations.lean ====
section
/-! DEFINITION. The statements for the provers. -/

open Sys2Proof Sys2Proof.Machine

/-! ## Encoding -/

/-- R80 to R83: decoding the word of any well-formed command, every operand at every value, gives the command
back: no bit of an encoding is dropped. -/
def Obligations.DecodeOfEncodeIsTheCommand : Prop :=
  ∀ i : Instr, i.wellFormed = true → decode (encode i) = .ok i

/-- R81, R83, R84: a word that decodes carries a well-formed command and is that command's one encoding: no
bit of a legal word is ignored. -/
def Obligations.LegalWordIsItsCommandsEncoding : Prop :=
  ∀ (w : CmdWord) (i : Instr), decode w = .ok i → i.wellFormed = true ∧ encode i = w

/-- R84, R214: exactly the words R84 lists are illegal, and an illegal word raises `F_CMD` in an unfaulted block
and changes nothing else. -/
def Obligations.IllegalWordsRaiseFCmd : Prop :=
  FaultCode.byte .cmd = 0x81#8 ∧ (∀ w : CmdWord, (∃ i, decode w = .ok i) ↔ ¬ IllegalWord w) ∧
    ∀ (s : State) (w : CmdWord) (rest : List PortEvent),
      s.fault = none → s.inputs = .command w :: rest → IllegalWord w →
        step s = .next (faultedBy .cmd { s with inputs := rest })

/-- R82, R87: command words written out from the encoding decode to the commands they stand for, one for every
family of the opcode map. -/
def Obligations.WordsOfEveryFamilyDecode : Prop :=
  decode 0x01000000000000000000#80 = .ok .init ∧
  decode 0x020D0000000000000000#80 = .ok (.getbits 13#8) ∧
  decode 0x03030000000000000005#80 = .ok (.putbits 5#64 3#8) ∧
  decode 0x08020000000000000000#80 = .ok (.decg 2#8) ∧
  decode 0x10040000000000000000#80 = .ok (.encgStart 4#8) ∧
  decode 0x110000000000000003E8#80 = .ok (.encgItem 1000#64) ∧
  decode 0x19000000000000000003#80 = .ok (.encfItem 3#64) ∧
  decode 0x20060000000000000000#80 = .ok (.rdreg .status) ∧
  decode 0x21050000000000000400#80 = .ok (.wrreg .cap 1024#64)

/-- R86: the response word is the status code in bits 71:64 and the value in 63:0, with the codes of R86. -/
def Obligations.ResponseWordCarriesStatusAndValue : Prop :=
  (∀ r : Response, r.word.toNat = r.status.byte.toNat * 2 ^ 64 + r.value.toNat) ∧
  [Status.ok, .eParam, .eCapacity, .eEmpty, .fault .cmd, .fault .seq, .fault .count, .fault .width,
      .fault .cursor, .fault .bus, .fault .ovf, .refused].map Status.byte =
    [0x00#8, 0x01#8, 0x02#8, 0x03#8, 0x81#8, 0x82#8, 0x83#8, 0x84#8, 0x85#8, 0x86#8, 0x87#8, 0xFF#8] ∧
  ∀ (s : State) (c : FaultCode), s.fault = some c → s.fcode = (Status.fault c).byte

/-! ## The step -/

/-- R85, R251: when the next event (log 4) is a command word that decodes, the step takes it off the list of coming
events and is the command's meaning at the state that is left; nothing else surrounds it. -/
def Obligations.StepRunsTheDecodedCommand : Prop :=
  ∀ (s : State) (w : CmdWord) (rest : List PortEvent) (i : Instr),
    s.inputs = .command w :: rest → decode w = .ok i → step s = exec i { s with inputs := rest }

/-- R212: a faulted block answers `(0xFF, 0)` to every word that is not a legal `RDREG` and changes nothing; a
legal `RDREG` reads its register; reset clears the latch and nothing else clears or changes it. -/
def Obligations.FaultedBlockRefusesAllButRdreg : Prop :=
  Status.byte .refused = 0xFF#8 ∧ (∀ (s : State) (c : FaultCode) (w : CmdWord) (rest : List PortEvent),
    s.fault = some c → s.inputs = .command w :: rest → (∀ r, decode w ≠ .ok (.rdreg r)) →
      step s = .next { s with inputs := rest, resp := some ⟨.refused, 0#64⟩ }) ∧
  (∀ (s : State) (c : FaultCode) (w : CmdWord) (rest : List PortEvent) (r : Reg),
    s.fault = some c → s.inputs = .command w :: rest → decode w = .ok (.rdreg r) →
      step s = .next { s with inputs := rest, resp := some ⟨.ok, readReg r s⟩ }) ∧
  (∀ (s t : State) (c : FaultCode),
    s.fault = some c → (∀ rest, s.inputs ≠ .reset :: rest) → step s = .next t → t.fault = some c) ∧
  (∀ (s : State) (rest : List PortEvent), s.inputs = .reset :: rest → ∃ t, step s = .next t ∧ t.fault = none)

/-- R37, R230, R231: reset, from any state, faulted or not, gives every register the value R30 states and leaves
the buffer as it is; the machine right after reset has the same register values. The model's own fields, by its
choice: `MEMSIZE` is kept (log 2), the events still waiting are kept (log 4), the response port is empty (log 5);
with these the state after reset is given whole. -/
def Obligations.ResetGivesEveryRegisterItsValue : Prop :=
  (∀ (s : State) (rest : List PortEvent), s.inputs = .reset :: rest →
    ∃ t, step s = .next t ∧ t.lookahead = 0#64 ∧ t.bitOff.val = 0 ∧ t.byteOff = 0#64 ∧ t.acc = 0#64 ∧
      t.p.val = 0 ∧ t.cap = 4194304#64 ∧ t.mode = .fresh ∧ t.fault = none ∧ t.statusWord = 0#64 ∧
      t.mem = s.mem ∧ t.memSize = s.memSize ∧ t.inputs = rest ∧ t.resp = none) ∧
  State.reset.lookahead = 0#64 ∧ State.reset.bitOff.val = 0 ∧ State.reset.byteOff = 0#64 ∧
  State.reset.acc = 0#64 ∧ State.reset.p.val = 0 ∧ State.reset.cap = 4194304#64 ∧
  State.reset.mode = .fresh ∧ State.reset.fault = none ∧ State.reset.statusWord = 0#64

/-- The model's own ports (log 4, log 6): with no event waiting the step changes nothing; a host write changes
one byte of the window and nothing else, and at an offset outside the window the machine stops. -/
def Obligations.HostWritesAndWaiting : Prop :=
  (∀ s : State, s.inputs = [] → step s = .next s) ∧
  (∀ (s : State) (a : Nat) (b : Byte) (rest : List PortEvent),
    Memory.wf s.mem → s.inputs = .poke a b :: rest → a < s.memSize →
      ∃ m, step s = .next { s with inputs := rest, mem := m } ∧
        ∀ x, Memory.read m x = if x = a then b else Memory.read s.mem x) ∧
  (∀ (s : State) (a : Nat) (b : Byte) (rest : List PortEvent),
    s.inputs = .poke a b :: rest → s.memSize ≤ a → step s = .fault (.pokeOutsideWindow a))

/-! ## The invariant -/

/-- The invariant of the block holds right after reset (R37, R230), with the model's `MEMSIZE` there (log 2) and no
byte of the buffer listed (log 1). -/
def Obligations.InvHoldsAtReset : Prop := Inv State.reset

/-- Every step from a state that meets the invariant, reached or not, gives one that meets it: the buffer stays
in canonical form and inside the window, an open session keeps its latched width, its clean cursor and its
output inside the window (R33, R143), and an unfaulted Golomb session has passed its last capacity check (R146). -/
def Obligations.EveryStepKeepsInv : Prop :=
  ∀ s t : State, Inv s → step s = .next t → Inv t

/-! ## Whole-machine rules -/

/-- R14, R250: every command in every state answers, with a next state and a response: `OK` or a reported error
without a fault, a fault with its code latched, or, in a faulted block, `REFUSED` (`OK` for `RDREG`). -/
def Obligations.EveryCommandAnswersInOneWay : Prop :=
  ∀ (i : Instr) (s : State), ∃ t r, exec i s = .next t ∧ t.resp = some r ∧
    (s.fault = none →
      (t.fault = none ∧ r.status ∈ [Status.ok, .eParam, .eCapacity, .eEmpty]) ∨
      ∃ c, t.fault = some c ∧ r = ⟨.fault c, 0#64⟩) ∧
    (∀ c, s.fault = some c → t.fault = some c ∧ ((∃ g, i = .rdreg g) ∧ r.status = .ok ∨ r = ⟨.refused, 0#64⟩))

/-- R210, R211: a command that faults leaves `MODE`, `P` and `CAP` as they were and answers `(code, 0)`; the
faults checked before any state change leave everything but the latch and the response as it was. -/
def Obligations.FaultsArePrecise : Prop :=
  ∀ (i : Instr) (s t : State) (c : FaultCode),
    s.fault = none → exec i s = .next t → t.fault = some c →
      t.mode = s.mode ∧ t.p = s.p ∧ t.cap = s.cap ∧ t.resp = some ⟨.fault c, 0#64⟩ ∧
        (c ∈ [FaultCode.cmd, .seq, .count, .width] → t = faultedBy c s)

/-- R27, R28, R29: `CAP` is written by `WRREG` of `CAP` alone, `ACC` by `ENCG.START` and `ENCG.ITEM` alone, `P` by
the two `START`s alone (reset apart); no command changes the parameter or the coming events. -/
def Obligations.CodecRegistersHaveTheirOwnWriters : Prop :=
  ∀ (i : Instr) (s t : State), exec i s = .next t →
    ((∀ v, i ≠ .wrreg .cap v) → t.cap = s.cap) ∧
    ((∀ p, i ≠ .encgStart p) → (∀ v, i ≠ .encgItem v) → t.acc = s.acc) ∧
    ((∀ p, i ≠ .encgStart p) → (∀ p, i ≠ .encfStart p) → t.p = s.p) ∧
    t.memSize = s.memSize ∧ t.inputs = s.inputs

/-- R27, R165: `CAP` feeds the capacity check of `ENCG.ITEM` alone: every command but `ENCG.ITEM` and the two
accesses of `CAP` itself does the same whatever `CAP` holds. -/
def Obligations.CapFeedsOnlyTheGolombItem : Prop :=
  ∀ (i : Instr) (s t : State) (c : Word),
    (∀ v, i ≠ .encgItem v) → i ≠ .rdreg .cap → (∀ v, i ≠ .wrreg .cap v) →
      exec i s = .next t → exec i { s with cap := c } = .next { t with cap := c }

/-- R32, R62: a read command that does not fault gives the same state whatever `LOOKAHEAD` held before: the
block caches nothing of the buffer. -/
def Obligations.ReadsDoNotDependOnLookahead : Prop :=
  ∀ (i : Instr) (n : Byte) (s t : State) (v : Word),
    i ∈ [Instr.getbits n, .decf n, .decg n] → s.fault = none → exec i s = .next t → t.fault = none →
      exec i { s with lookahead := v } = .next t

/-- R56: a byte of the buffer that a command changes lies in the window, at or above the `BYTEOFF` before and
below the `BYTEOFF` after, and the command is one of the write side. -/
def Obligations.OnlyWriteCommandsStoreAndOnlyBelowByteoff : Prop :=
  ∀ (i : Instr) (s t : State) (a : Nat),
    s.memSize ≤ 2 ^ 60 → Memory.wf s.mem → exec i s = .next t →
      Memory.read t.mem a ≠ Memory.read s.mem a →
        storesToBuffer i = true ∧ s.byteOff.toNat ≤ a ∧ a < t.byteOff.toNat ∧ a < s.memSize

/-! ## When a command faults or reports -/

/-- R204: a command in a mode that does not admit it raises `F_SEQ` and changes nothing else, and `F_SEQ` comes
from nothing else. -/
def Obligations.FSeqExactlyOutsideTheAdmittedModes : Prop :=
  FaultCode.byte .seq = 0x82#8 ∧
    ∀ (i : Instr) (s : State), i.wellFormed = true → s.fault = none →
      (s.mode ∉ admittedModes i → exec i s = .next (faultedBy .seq s)) ∧
      (∀ t, exec i s = .next t → t.fault = some .seq → s.mode ∉ admittedModes i)

/-- R205: in an admitted mode a count or width operand outside its range raises `F_COUNT` before any state
change, and `F_COUNT` comes from nothing else. -/
def Obligations.FCountExactlyOnOperandsOutOfRange : Prop :=
  FaultCode.byte .count = 0x83#8 ∧
    ∀ (i : Instr) (s : State), i.wellFormed = true → s.fault = none → s.mode ∈ admittedModes i →
      (countOutOfRange i = true → exec i s = .next (faultedBy .count s)) ∧
      (∀ t, exec i s = .next t → t.fault = some .count → countOutOfRange i = true)

/-- R206: in an admitted mode, with its count in range, a value too wide for its field raises `F_WIDTH` before
any state change, and `F_WIDTH` comes from nothing else. -/
def Obligations.FWidthExactlyOnValuesTooWide : Prop :=
  FaultCode.byte .width = 0x84#8 ∧
    ∀ (i : Instr) (s : State), i.wellFormed = true → s.fault = none → s.mode ∈ admittedModes i →
      countOutOfRange i = false →
      (tooWide s i = true → exec i s = .next (faultedBy .width s)) ∧
      (∀ t, exec i s = .next t → t.fault = some .width → tooWide s i = true)

/-- R207: with `BITOFF` = 64, `FINALIZE` and a `PUTBITS` with a legal count and value raise `F_CURSOR`, and so
does a `WRREG` of `BITOFF` above 64; nothing else changes. -/
def Obligations.FCursorOnABreachedCursor : Prop :=
  (∀ (s : State) (value : Word) (count : Byte),
    s.fault = none → s.mode = .fresh ∨ s.mode = .wr → s.bitOff.val = 64 →
      exec .finalize s = .next (faultedBy .cursor s) ∧
      (1 ≤ count.toNat → count.toNat ≤ 56 → value.toNat < 2 ^ count.toNat →
        exec (.putbits value count) s = .next (faultedBy .cursor s))) ∧
  (∀ (s : State) (value : Word),
    s.fault = none → s.mode = .fresh ∨ s.mode = .rd ∨ s.mode = .wr → 64 < value.toNat →
      exec (.wrreg .bitoff value) s = .next (faultedBy .cursor s))

/-- R201: a `START` with a width above 56 answers `(E_PARAM, 0)` and changes nothing at all, unless the mode check
comes first; no other command and no other width reports `E_PARAM`. -/
def Obligations.ParameterErrorChangesNothing : Prop :=
  Status.byte .eParam = 0x01#8 ∧ (∀ (s : State) (p : Byte), s.fault = none → s.mode ≠ .encg → s.mode ≠ .encf → 56 < p.toNat →
    exec (.encgStart p) s = .next { s with resp := some ⟨.eParam, 0#64⟩ } ∧
    exec (.encfStart p) s = .next { s with resp := some ⟨.eParam, 0#64⟩ }) ∧
  (∀ (s : State) (p : Byte), s.fault = none → s.mode = .encg ∨ s.mode = .encf → 56 < p.toNat →
    exec (.encgStart p) s = .next (faultedBy .seq s) ∧ exec (.encfStart p) s = .next (faultedBy .seq s)) ∧
  (∀ (i : Instr) (s t : State) (v : Word), exec i s = .next t → t.resp = some ⟨.eParam, v⟩ →
    ∃ p : Byte, 56 < p.toNat ∧ (i = .encgStart p ∨ i = .encfStart p))

/-- R202, R203: `E_CAPACITY` comes from an `ENCG.ITEM` after whose bits `BYTEOFF + 1024 ≥ CAP`, and from every
such one that does not fault; `E_EMPTY` comes from an `END` that finds `BYTEOFF` = 0 after the final drain. Both
carry the value 0, end the session and latch nothing. -/
def Obligations.CapacityAndEmptyAreReportedWhereTheyArise : Prop :=
  (∀ (i : Instr) (s t : State) (v : Word), exec i s = .next t → t.resp = some ⟨.eCapacity, v⟩ →
    (∃ x, i = .encgItem x) ∧ v = 0#64 ∧ t.mode = .done ∧ t.fault = none ∧
      t.cap.toNat ≤ t.byteOff.toNat + 1024) ∧
  (∀ (x : Word) (s t : State), s.fault = none → s.mode = .encg → exec (.encgItem x) s = .next t →
    t.fault = none → t.cap.toNat ≤ t.byteOff.toNat + 1024 → t.resp = some ⟨.eCapacity, 0#64⟩) ∧
  (∀ (i : Instr) (s t : State) (v : Word), exec i s = .next t → t.resp = some ⟨.eEmpty, v⟩ →
    (i = .encgEnd ∨ i = .encfEnd) ∧ v = 0#64 ∧ t.mode = .done ∧ t.fault = none ∧ t.byteOff = 0#64)

/-- R143, R148, R162, R164: in an open session only the window stops an encoder: `ENCG.ITEM`, `ENCG.END` and
`ENCF.END` raise no fault but `F_BUS`, and `ENCF.ITEM` none but `F_BUS` and `F_WIDTH`. -/
def Obligations.SessionCommandsFaultOnlyOnTheBus : Prop :=
  ∀ (s t : State) (c : FaultCode) (v : Word), Inv s → s.fault = none →
    (s.mode = .encg → exec (.encgItem v) s = .next t ∨ exec .encgEnd s = .next t → t.fault = some c → c = .bus) ∧
    (s.mode = .encf → exec .encfEnd s = .next t → t.fault = some c → c = .bus) ∧
    (s.mode = .encf → exec (.encfItem v) s = .next t → t.fault = some c → c = .bus ∨ c = .width)

/-! ## The read side -/

/-- R100: `INIT` creates a fresh cursor in every mode and changes nothing else; a faulted block refuses it, and an
`INIT` word with an operand is illegal. -/
def Obligations.InitCreatesAFreshCursor : Prop :=
  (∀ s : State, s.fault = none →
    exec .init s = .next { s with
      lookahead := 0#64, bitOff := 0, byteOff := 0#64, mode := .fresh, resp := some ⟨.ok, 0#64⟩ }) ∧
  (∀ s : State, s.fault ≠ none → exec .init s = .next { s with resp := some ⟨.refused, 0#64⟩ }) ∧
  (∀ (w : CmdWord) (i : Instr), w.toNat / 2 ^ 72 = 1 → decode w = .ok i → w.toNat = 2 ^ 72 ∧ i = .init)

/-- R32, R105, R177: `GETBITS n` and `DECF n` whose refill stays in the window return `StreamBits(POS, n)` and
leave the cursor at `POS + n`, on any cursor and any buffer; only the cursor, `MODE` and the response change. -/
def Obligations.GetbitsAndDecfReturnTheNextBits : Prop :=
  ∀ (i : Instr) (n : Byte) (s : State), i ∈ [Instr.getbits n, .decf n] → s.fault = none →
    s.mode = .fresh ∨ s.mode = .rd → 1 ≤ n.toNat → n.toNat ≤ 57 →
    s.memSize ≤ 2 ^ 60 → s.pos / 8 + 8 ≤ s.memSize →
      ∃ b : Fin 65, b.val = s.pos % 8 + n.toNat ∧
        exec i s = .next { s with
          lookahead := BitVec.ofNat 64 (Memory.streamBits s.mem (8 * (s.pos / 8)) 64)
          bitOff := b
          byteOff := BitVec.ofNat 64 (s.pos / 8)
          mode := .rd
          resp := some ⟨.ok, BitVec.ofNat 64 (Memory.streamBits s.mem s.pos n.toNat)⟩ }

/-- R32, R208: a read command whose first refill would pass the window raises `F_BUS` and changes nothing. -/
def Obligations.ReadPastTheWindowChangesNothing : Prop :=
  ∀ (i : Instr) (n : Byte) (s : State), i ∈ [Instr.getbits n, .decf n, .decg n] → s.fault = none →
    s.mode = .fresh ∨ s.mode = .rd → 1 ≤ n.toNat → n.toNat ≤ 57 → s.memSize < s.pos / 8 + 8 →
      exec i s = .next (faultedBy .bus s)

/-- R59, R235: with the buffer over-allocated by 7 bytes, a read of bits inside the first `len` bytes does not
fault, and every byte it refilled from lies below `len + 7`. -/
def Obligations.OverAllocationMakesReadsSafe : Prop :=
  ∀ (i : Instr) (n : Byte) (s : State) (len : Nat), i ∈ [Instr.getbits n, .decf n] → s.fault = none →
    s.mode = .fresh ∨ s.mode = .rd → 1 ≤ n.toNat → n.toNat ≤ 57 → s.memSize ≤ 2 ^ 60 →
    s.pos + n.toNat ≤ 8 * len → len + 7 ≤ s.memSize →
      ∃ t, exec i s = .next t ∧ t.fault = none ∧ t.byteOff.toNat + 8 ≤ len + 7 ∧ t.pos = s.pos + n.toNat

/-- R171: `DECG p` on a run of `q` ones and a zero at the position, with `q < 2^(64-p)`, returns
`q·2^p + StreamBits(POS + q + 1, p)` and leaves the cursor past the item; only the cursor, `MODE` and the response
change. -/
def Obligations.DecgReturnsTheItemsValue : Prop :=
  ∀ (p : Byte) (s : State) (q : Nat), s.fault = none → s.mode = .fresh ∨ s.mode = .rd →
    1 ≤ p.toNat → p.toNat ≤ 57 → s.memSize ≤ 2 ^ 60 →
    (∀ j, j < q → Memory.streamBit s.mem (s.pos + j) = true) → Memory.streamBit s.mem (s.pos + q) = false →
    (s.pos + q + 1) / 8 + 8 ≤ s.memSize → q < 2 ^ (64 - p.toNat) →
      ∃ b : Fin 65, b.val = (s.pos + q + 1) % 8 + p.toNat ∧
        exec (.decg p) s = .next { s with
          lookahead := BitVec.ofNat 64 (Memory.streamBits s.mem (8 * ((s.pos + q + 1) / 8)) 64)
          bitOff := b
          byteOff := BitVec.ofNat 64 ((s.pos + q + 1) / 8)
          mode := .rd
          resp := some ⟨.ok, BitVec.ofNat 64
            (q * 2 ^ p.toNat + Memory.streamBits s.mem (s.pos + q + 1) p.toNat)⟩ }

/-- R174, R215: the same run with `q ≥ 2^(64-p)` raises `F_OVF` after the remainder has been read: the cursor is
past the item, `MODE` keeps its value. -/
def Obligations.DecgQuotientOverflowFaults : Prop :=
  ∀ (p : Byte) (s : State) (q : Nat), s.fault = none → s.mode = .fresh ∨ s.mode = .rd →
    1 ≤ p.toNat → p.toNat ≤ 57 → s.memSize ≤ 2 ^ 60 →
    (∀ j, j < q → Memory.streamBit s.mem (s.pos + j) = true) → Memory.streamBit s.mem (s.pos + q) = false →
    (s.pos + q + 1) / 8 + 8 ≤ s.memSize → 2 ^ (64 - p.toNat) ≤ q →
      exec (.decg p) s = .next (faultedBy .ovf (s.afterRead (s.pos + q + 1) p.toNat))

/-- R171, R175: a run of ones up to the last bit that can be read ends `DECG` in `F_BUS` with
`BYTEOFF = MEMSIZE - 8` and `BITOFF = 8`; a terminator with no room for the refill of the remainder ends it in
`F_BUS` with the cursor after the terminator. Only the cursor, the latch and the response change. -/
def Obligations.DecgRunsIntoTheWindowsEnd : Prop :=
  ∀ (p : Byte) (s : State), s.fault = none → s.mode = .fresh ∨ s.mode = .rd →
    1 ≤ p.toNat → p.toNat ≤ 57 → s.memSize ≤ 2 ^ 60 →
    (s.pos / 8 + 8 ≤ s.memSize →
      (∀ k, k < 8 * s.memSize → s.pos ≤ k → k / 8 + 8 ≤ s.memSize → Memory.streamBit s.mem k = true) →
        exec (.decg p) s = .next (faultedBy .bus { s with
          lookahead := BitVec.ofNat 64 (Memory.streamBits s.mem (8 * (s.memSize - 8)) 64)
          bitOff := 8
          byteOff := BitVec.ofNat 64 (s.memSize - 8) })) ∧
    (∀ q, (∀ j, j < q → Memory.streamBit s.mem (s.pos + j) = true) →
      Memory.streamBit s.mem (s.pos + q) = false → (s.pos + q) / 8 + 8 ≤ s.memSize →
      s.memSize < (s.pos + q + 1) / 8 + 8 →
        exec (.decg p) s = .next (faultedBy .bus (s.afterRead (s.pos + q) 1)))

/-! ## The write side -/

/-- R33, R125: `PUTBITS value, n` on a clean cursor appends the `n` bits of the value, most significant first, to
the stream: the bytes of `BUF[BYTEOFF … POS div 8 - 1]` are stored and no other, the cursor moves to `POS + n`
and is clean again; no other register changes. -/
def Obligations.PutbitsAppendsTheValuesBits : Prop :=
  ∀ (value : Word) (n : Byte) (s : State), s.fault = none → s.mode = .fresh ∨ s.mode = .wr →
    1 ≤ n.toNat → n.toNat ≤ 56 → value.toNat < 2 ^ n.toNat → Clean s → Memory.wf s.mem →
    s.memSize ≤ 2 ^ 60 → s.bitOff.val / 8 = 0 ∨ s.pos / 8 ≤ s.memSize →
      ∃ t, exec (.putbits value n) s = .next t ∧ OutputExtends s t (bitsOf value.toNat n.toNat) ∧
        t.byteOff.toNat = s.pos / 8 ∧ t.bitOff.val = s.pos % 8 + n.toNat ∧
        t.mode = .wr ∧ t.resp = some ⟨.ok, 0#64⟩ ∧ t.fault = none ∧ t.acc = s.acc ∧ t.p = s.p ∧
        t.cap = s.cap ∧ t.memSize = s.memSize ∧ t.inputs = s.inputs

/-- R121, R122, R125: `PUTBITS` on any cursor with `BITOFF` below 64, clean or not: the whole bytes at the top of
`LOOKAHEAD` are stored from `BYTEOFF` on and no other byte, the value is ORed in below the carried bits. -/
def Obligations.PutbitsOnAnyCursorOrsTheValueIn : Prop :=
  ∀ (value : Word) (n : Byte) (s : State), s.fault = none → s.mode = .fresh ∨ s.mode = .wr →
    1 ≤ n.toNat → n.toNat ≤ 56 → value.toNat < 2 ^ n.toNat → s.bitOff.val < 64 → Memory.wf s.mem →
    s.memSize ≤ 2 ^ 60 → s.bitOff.val / 8 = 0 ∨ s.byteOff.toNat + s.bitOff.val / 8 ≤ s.memSize →
      ∃ t, exec (.putbits value n) s = .next t ∧
        t.lookahead = (s.lookahead <<< (8 * (s.bitOff.val / 8))) |||
          ((value <<< (64 - n.toNat)) >>> (s.bitOff.val % 8)) ∧
        t.bitOff.val = s.bitOff.val % 8 + n.toNat ∧
        t.byteOff.toNat = s.byteOff.toNat + s.bitOff.val / 8 ∧
        (∀ a, Memory.read t.mem a =
          if s.byteOff.toNat ≤ a ∧ a < s.byteOff.toNat + s.bitOff.val / 8 then
            BitVec.ofNat 8 (s.lookahead.toNat / 2 ^ (56 - 8 * (a - s.byteOff.toNat)))
          else Memory.read s.mem a) ∧
        t.mode = .wr ∧ t.resp = some ⟨.ok, 0#64⟩ ∧ t.fault = none ∧ t.acc = s.acc ∧ t.p = s.p ∧
        t.cap = s.cap ∧ t.memSize = s.memSize ∧ t.inputs = s.inputs

/-- R124, R126: `FINALIZE` stores every queued bit, the last byte whole, from `BYTEOFF` on and no other byte, sets
`BYTEOFF` to the bytes rounded up, answers with it and enters `DONE`; `LOOKAHEAD` and `BITOFF` stay as the drain
left them and no other register changes. -/
def Obligations.FinalizeStoresEveryQueuedBit : Prop :=
  ∀ s : State, s.fault = none → s.mode = .fresh ∨ s.mode = .wr → s.bitOff.val < 64 → Memory.wf s.mem →
    s.memSize ≤ 2 ^ 60 → s.bitOff.val = 0 ∨ s.byteOff.toNat + (s.bitOff.val + 7) / 8 ≤ s.memSize →
      ∃ t, exec .finalize s = .next t ∧
        t.byteOff.toNat = s.byteOff.toNat + (s.bitOff.val + 7) / 8 ∧
        t.mode = .done ∧ t.fault = none ∧ t.resp = some ⟨.ok, t.byteOff⟩ ∧
        (∀ a, Memory.read t.mem a =
          if s.byteOff.toNat ≤ a ∧ a < s.byteOff.toNat + (s.bitOff.val + 7) / 8 then
            BitVec.ofNat 8 (s.lookahead.toNat / 2 ^ (56 - 8 * (a - s.byteOff.toNat)))
          else Memory.read s.mem a) ∧
        t.lookahead = s.lookahead <<< (8 * (s.bitOff.val / 8)) ∧ t.bitOff.val = s.bitOff.val % 8 ∧
        t.acc = s.acc ∧ t.p = s.p ∧ t.cap = s.cap ∧ t.memSize = s.memSize ∧ t.inputs = s.inputs

/-- R52, R121, R208: a drain of one byte or more that would pass the window ends the command that needs it in
`F_BUS` with nothing changed: a `PUTBITS` with a legal count and value, `FINALIZE`, an `ENCF.ITEM` that fits, and
the two `END`s. -/
def Obligations.DrainPastTheWindowChangesNothing : Prop :=
  ∀ (i : Instr) (s : State), s.fault = none → s.mode ∈ admittedModes i →
    i = .finalize ∨ i = .encgEnd ∨ i = .encfEnd ∨ (∃ v, i = .encfItem v) ∨ (∃ v n, i = .putbits v n) →
    countOutOfRange i = false → tooWide s i = false →
    8 ≤ s.bitOff.val → s.bitOff.val < 64 → s.memSize < s.byteOff.toNat + s.bitOff.val / 8 →
      exec i s = .next (faultedBy .bus s)

/-- R124, R211: when the drain of `FINALIZE` or of an `END` can be done, because it has no byte or its bytes fit, and
the partial byte does not fit, the command ends in `F_BUS` with the drain done: the whole bytes are stored, the
cursor stands after them, `MODE` keeps its value. -/
def Obligations.PartialByteFaultKeepsTheDrain : Prop :=
  ∀ (i : Instr) (s : State), i ∈ [Instr.finalize, .encgEnd, .encfEnd] → s.fault = none →
    s.mode ∈ admittedModes i → s.bitOff.val < 64 → s.bitOff.val % 8 ≠ 0 → Memory.wf s.mem →
    s.memSize ≤ 2 ^ 60 → s.bitOff.val / 8 = 0 ∨ s.byteOff.toNat + s.bitOff.val / 8 ≤ s.memSize →
    s.memSize < s.byteOff.toNat + s.bitOff.val / 8 + 1 →
      ∃ t, exec i s = .next (faultedBy .bus t) ∧
        t.byteOff.toNat = s.byteOff.toNat + s.bitOff.val / 8 ∧ t.bitOff.val = s.bitOff.val % 8 ∧
        t.lookahead = s.lookahead <<< (8 * (s.bitOff.val / 8)) ∧
        (∀ a, Memory.read t.mem a =
          if s.byteOff.toNat ≤ a ∧ a < s.byteOff.toNat + s.bitOff.val / 8 then
            BitVec.ofNat 8 (s.lookahead.toNat / 2 ^ (56 - 8 * (a - s.byteOff.toNat)))
          else Memory.read s.mem a) ∧ SameControl s t

/-! ## The encoders -/

/-- R141, R161: a `START` with a width of 1..56 outside a session opens one on a fresh cursor with the width
latched; `ENCG.START` zeroes `ACC`, `ENCF.START` leaves it; `CAP` and the buffer are left. Inside a session it
raises `F_SEQ`, with width 0 `F_COUNT`, and above 56 it answers `E_PARAM`, each with nothing changed. -/
def Obligations.StartOpensASession : Prop :=
  (∀ (s : State) (w : Fin 57), s.fault = none → s.mode ≠ .encg → s.mode ≠ .encf → 1 ≤ w.val →
    exec (.encgStart (BitVec.ofNat 8 w.val)) s = .next { s with
      lookahead := 0#64, bitOff := 0, byteOff := 0#64, acc := 0#64, p := w, mode := .encg,
      resp := some ⟨.ok, 0#64⟩ } ∧
    exec (.encfStart (BitVec.ofNat 8 w.val)) s = .next { s with
      lookahead := 0#64, bitOff := 0, byteOff := 0#64, p := w, mode := .encf, resp := some ⟨.ok, 0#64⟩ }) ∧
  (∀ (i : Instr) (p : Byte) (s : State), i ∈ [Instr.encgStart p, .encfStart p] → s.fault = none →
    (s.mode = .encg ∨ s.mode = .encf → exec i s = .next (faultedBy .seq s)) ∧
    (s.mode ≠ .encg → s.mode ≠ .encf → p.toNat = 0 → exec i s = .next (faultedBy .count s)) ∧
    (s.mode ≠ .encg → s.mode ≠ .encf → 56 < p.toNat →
      exec i s = .next { s with resp := some ⟨.eParam, 0#64⟩ }))

/-- R143, R144, R146: `ENCG.ITEM v` appends the Golomb-Rice item of `(v - ACC) mod 2^64` to the stream, stores the
bytes below the new `BYTEOFF` and no other, sets `ACC` to `v`, leaves the cursor in the closed form of R144, and
reports `E_CAPACITY` and ends the session exactly when `BYTEOFF + 1024 ≥ CAP` then. -/
def Obligations.EncgItemAppendsTheItem : Prop :=
  ∀ (v : Word) (s : State), s.fault = none → s.mode = .encg → s.memSize ≤ 2 ^ 60 → Memory.wf s.mem →
    (∀ c ∈ s.mem, c.1 < s.memSize) → SessionOk s →
    (s.pos + (v - s.acc).toNat / 2 ^ s.p.val + 1) / 8 ≤ s.memSize →
      ∃ t, exec (.encgItem v) s = .next t ∧ OutputExtends s t (golombItem s.p.val (v - s.acc).toNat) ∧
        t.byteOff.toNat = (s.pos + (v - s.acc).toNat / 2 ^ s.p.val + 1) / 8 ∧
        t.bitOff.val = (s.pos + (v - s.acc).toNat / 2 ^ s.p.val + 1) % 8 + s.p.val ∧ t.acc = v ∧
        (t.mode, t.resp) = (if s.cap.toNat ≤ t.byteOff.toNat + 1024
          then (.done, some ⟨.eCapacity, 0#64⟩) else (.encg, some ⟨.ok, 0#64⟩)) ∧
        t.fault = none ∧ t.p = s.p ∧ t.cap = s.cap ∧ t.memSize = s.memSize ∧ t.inputs = s.inputs

/-- R143, R144: an `ENCG.ITEM` some drain of which would pass the window ends in `F_BUS` with `ACC` already `v`:
with the cursor untouched when the first drain is the one, and otherwise with the window full
(`BYTEOFF = MEMSIZE`), eight bits queued and the item's first bits appended; `MODE` keeps its value. -/
def Obligations.EncgItemStopsAtTheWindowsEnd : Prop :=
  ∀ (v : Word) (s : State), s.fault = none → s.mode = .encg → s.memSize ≤ 2 ^ 60 → Memory.wf s.mem →
    (∀ c ∈ s.mem, c.1 < s.memSize) → SessionOk s →
    s.memSize < (s.pos + (v - s.acc).toNat / 2 ^ s.p.val + 1) / 8 →
      ∃ t, exec (.encgItem v) s = .next t ∧ t.fault = some .bus ∧ t.resp = some ⟨.fault .bus, 0#64⟩ ∧
        t.acc = v ∧ t.mode = .encg ∧ t.p = s.p ∧ t.cap = s.cap ∧ t.memSize = s.memSize ∧
        t.inputs = s.inputs ∧
        (if s.memSize < s.pos / 8 then
          t.lookahead = s.lookahead ∧ t.bitOff = s.bitOff ∧ t.byteOff = s.byteOff ∧ t.mem = s.mem
        else t.byteOff.toNat = s.memSize ∧ t.bitOff.val = 8 ∧
          OutputExtends s t ((golombItem s.p.val (v - s.acc).toNat).take (8 * s.memSize + 8 - s.pos)))

/-- R148, R164: `ENCG.END` and `ENCF.END` store every queued bit of the session's stream followed by zeros to the
byte, and no byte outside `BUF[BYTEOFF … t.BYTEOFF - 1]`, enter `DONE`, and answer the length in bytes, or
`E_EMPTY` when it is 0. -/
def Obligations.EndStoresTheStreamAndReportsItsLength : Prop :=
  ∀ (i : Instr) (s : State), i ∈ [Instr.encgEnd, .encfEnd] → s.fault = none → s.mode ∈ admittedModes i →
    s.memSize ≤ 2 ^ 60 → Memory.wf s.mem → SessionOk s → (s.pos + 7) / 8 ≤ s.memSize →
      ∃ t, exec i s = .next t ∧ t.byteOff.toNat = (s.pos + 7) / 8 ∧ t.mode = .done ∧ t.fault = none ∧
        t.resp = (if s.pos = 0 then some ⟨.eEmpty, 0#64⟩ else some ⟨.ok, t.byteOff⟩) ∧
        (∀ k, k < 8 * t.byteOff.toNat →
          Memory.streamBit t.mem k = if k < s.pos then s.outBit k else false) ∧
        (∀ a, a < s.byteOff.toNat ∨ t.byteOff.toNat ≤ a → Memory.read t.mem a = Memory.read s.mem a) ∧
        t.lookahead = s.lookahead <<< (8 * (s.bitOff.val / 8)) ∧ t.bitOff.val = s.bitOff.val % 8 ∧
        t.acc = s.acc ∧ t.p = s.p ∧ t.cap = s.cap ∧ t.memSize = s.memSize ∧ t.inputs = s.inputs

/-- R162, R165: `ENCF.ITEM v` with `v < 2^P` appends the `P` bits of the value, most significant first, whatever
`CAP` holds; the cursor is in closed form, the bytes below the new `BYTEOFF` are stored and no other, and no other
register changes. -/
def Obligations.EncfItemAppendsTheField : Prop :=
  ∀ (v : Word) (s : State), s.fault = none → s.mode = .encf → s.memSize ≤ 2 ^ 60 → Memory.wf s.mem →
    SessionOk s → v.toNat < 2 ^ s.p.val → s.pos / 8 ≤ s.memSize →
      ∃ t, exec (.encfItem v) s = .next t ∧ OutputExtends s t (bitsOf v.toNat s.p.val) ∧
        t.byteOff.toNat = s.pos / 8 ∧ t.bitOff.val = s.pos % 8 + s.p.val ∧
        t.mode = .encf ∧ t.resp = some ⟨.ok, 0#64⟩ ∧ t.fault = none ∧ t.acc = s.acc ∧ t.p = s.p ∧
        t.cap = s.cap ∧ t.memSize = s.memSize ∧ t.inputs = s.inputs

/-- R245: a Golomb session that ends with `OK` reports a length of at most `CAP - 1017`. -/
def Obligations.GolombLengthStaysBelowTheCapacity : Prop :=
  ∀ (s t : State) (n : Word), Inv s → s.mode = .encg → exec .encgEnd s = .next t →
    t.resp = some ⟨.ok, n⟩ → n.toNat + 1017 ≤ s.cap.toNat

/-- R150, with the premise `BYTEOFF + 1024 < CAP` that its proof uses (log 8: for `CAP ≤ 1024` R150 as written is
false of the rules): when `CAP ≤ MEMSIZE`, no item of at most 8129 bits and no `ENCG.END` raises `F_BUS`. -/
def Obligations.MarginProtectsTheWindow : Prop :=
  ∀ (s : State), Inv s → s.fault = none → s.mode = .encg → s.byteOff.toNat + 1024 < s.cap.toNat →
    s.cap.toNat ≤ s.memSize →
      (∀ v : Word, (golombItem s.p.val (v - s.acc).toNat).length ≤ 8129 →
        ∃ t, exec (.encgItem v) s = .next t ∧ t.fault = none) ∧
      ∃ t, exec .encgEnd s = .next t ∧ t.fault = none

/-! ## Register access -/

/-- R30, R191: `RDREG` answers the register, zero-extended, in every mode and in a faulted block, and changes
nothing but the response; `STATUS` reads `MODE` in bits 2:0, `FAULT` in bit 3, `FCODE` in bits 15:8 and zero
elsewhere. -/
def Obligations.RdregReadsEveryRegister : Prop :=
  ∀ s : State,
    exec (.rdreg .lookahead) s = .next { s with resp := some ⟨.ok, s.lookahead⟩ } ∧
    exec (.rdreg .bitoff) s = .next { s with resp := some ⟨.ok, BitVec.ofNat 64 s.bitOff.val⟩ } ∧
    exec (.rdreg .byteoff) s = .next { s with resp := some ⟨.ok, s.byteOff⟩ } ∧
    exec (.rdreg .acc) s = .next { s with resp := some ⟨.ok, s.acc⟩ } ∧
    exec (.rdreg .p) s = .next { s with resp := some ⟨.ok, BitVec.ofNat 64 s.p.val⟩ } ∧
    exec (.rdreg .cap) s = .next { s with resp := some ⟨.ok, s.cap⟩ } ∧
    exec (.rdreg .status) s = .next { s with resp := some ⟨.ok, BitVec.ofNat 64
      ((match s.mode with | .fresh => 0 | .rd => 1 | .wr => 2 | .encg => 3 | .encf => 4 | .done => 5) +
        (match s.fault with
          | none => 0
          | some .cmd => 0x8108
          | some .seq => 0x8208
          | some .count => 0x8308
          | some .width => 0x8408
          | some .cursor => 0x8508
          | some .bus => 0x8608
          | some .ovf => 0x8708))⟩ }

/-- R192: `WRREG` in `FRESH`, `RD` or `WR` writes `LOOKAHEAD`, `BITOFF` (0..64), `BYTEOFF` or `CAP`, leaves `MODE` and
everything else, and answers `(OK, 0)`; of a read-only register it raises `F_CMD` in every mode, in another mode
`F_SEQ`, and of `BITOFF` above 64 `F_CURSOR`. -/
def Obligations.WrregWritesTheWritableRegisters : Prop :=
  (∀ (s : State) (v : Word), s.fault = none → s.mode = .fresh ∨ s.mode = .rd ∨ s.mode = .wr →
    exec (.wrreg .lookahead v) s = .next { s with lookahead := v, resp := some ⟨.ok, 0#64⟩ } ∧
    exec (.wrreg .byteoff v) s = .next { s with byteOff := v, resp := some ⟨.ok, 0#64⟩ } ∧
    exec (.wrreg .cap v) s = .next { s with cap := v, resp := some ⟨.ok, 0#64⟩ } ∧
    ∀ b : Fin 65, exec (.wrreg .bitoff (BitVec.ofNat 64 b.val)) s =
      .next { s with bitOff := b, resp := some ⟨.ok, 0#64⟩ }) ∧
  (∀ (s : State) (v : Word) (r : Reg), s.fault = none → r ∈ [Reg.acc, .p, .status] →
    exec (.wrreg r v) s = .next (faultedBy .cmd s)) ∧
  (∀ (s : State) (v : Word) (r : Reg), s.fault = none → r ∈ [Reg.lookahead, .bitoff, .byteoff, .cap] →
    s.mode ∈ [Mode.encg, .encf, .done] → exec (.wrreg r v) s = .next (faultedBy .seq s)) ∧
  (∀ (s : State) (v : Word), s.fault = none → s.mode ∉ [Mode.encg, .encf, .done] → 64 < v.toNat →
    exec (.wrreg .bitoff v) s = .next (faultedBy .cursor s))

/-- R190, R192: a read pass is resumed by writing `BYTEOFF` and `BITOFF` alone: the next `GETBITS` returns the bits
at the position written, whatever the cursor held before. -/
def Obligations.RestoredCursorReadsOn : Prop :=
  ∀ (s : State) (by' : Word) (bo : Fin 65) (n : Byte), s.fault = none → s.mode = .fresh ∨ s.mode = .rd →
    1 ≤ n.toNat → n.toNat ≤ 57 → s.memSize ≤ 2 ^ 60 → (8 * by'.toNat + bo.val) / 8 + 8 ≤ s.memSize →
      (issue (.getbits n) (issue (.wrreg .bitoff (BitVec.ofNat 64 bo.val))
        (issue (.wrreg .byteoff by') s))).resp =
          some ⟨.ok, BitVec.ofNat 64 (Memory.streamBits s.mem (8 * by'.toNat + bo.val) n.toNat)⟩

/-! ## Whole passes -/

/-- R70 to R77, R88, R140, R148: `ENCODE_GOLOMB p, values` of at least one value, where the stream and its margin
fit, ends well with the length of the Golomb-Rice stream of the differences in bytes, rounded up; the buffer
holds that stream bit for bit from stream bit 0, zeros to the end of its last byte, and is unchanged from there
on. -/
def Obligations.EncodeGolombWritesTheStream : Prop :=
  ∀ (s : State) (p : Byte) (values : List Word), WindowOk s → Memory.wf s.mem →
    (∀ c ∈ s.mem, c.1 < s.memSize) → s.fault = none → s.mode ≠ .encg → s.mode ≠ .encf →
    1 ≤ p.toNat → p.toNat ≤ 56 → values ≠ [] →
    ((golombStream p.toNat 0#64 values).length + 7) / 8 ≤ s.memSize →
    (golombStream p.toNat 0#64 values).length / 8 + 1024 < s.cap.toNat →
      ∃ n : Word, n.toNat = ((golombStream p.toNat 0#64 values).length + 7) / 8 ∧
        EndedWell .encgEnd (issueAll (.encgStart p :: values.map .encgItem) s) (encodeGolomb p values s) n ∧
        (encodeGolomb p values s).mode = .done ∧ (encodeGolomb p values s).fault = none ∧
        (∀ k, k < (golombStream p.toNat 0#64 values).length →
          (golombStream p.toNat 0#64 values)[k]? =
            some (Memory.streamBit (encodeGolomb p values s).mem k)) ∧
        (∀ k, (golombStream p.toNat 0#64 values).length ≤ k → k < 8 * n.toNat →
          Memory.streamBit (encodeGolomb p values s).mem k = false) ∧
        (∀ a, n.toNat ≤ a → Memory.read (encodeGolomb p values s).mem a = Memory.read s.mem a)

/-- R70, R74, R89, R160, R164: `ENCODE_FIXED p, values` of at least one value, each below `2^p`, where the stream
fits the window, ends well with `ceil(n·p / 8)` whatever `CAP` holds; the buffer holds the `p`-bit fields one
after another from stream bit 0, zeros to the end of the last byte, and is unchanged from there on. -/
def Obligations.EncodeFixedWritesTheStream : Prop :=
  ∀ (s : State) (p : Byte) (values : List Word), WindowOk s → Memory.wf s.mem →
    s.fault = none → s.mode ≠ .encg → s.mode ≠ .encf → 1 ≤ p.toNat → p.toNat ≤ 56 → values ≠ [] →
    (∀ v ∈ values, v.toNat < 2 ^ p.toNat) → (values.length * p.toNat + 7) / 8 ≤ s.memSize →
      ∃ n : Word, n.toNat = (values.length * p.toNat + 7) / 8 ∧
        EndedWell .encfEnd (issueAll (.encfStart p :: values.map .encfItem) s) (encodeFixed p values s) n ∧
        (encodeFixed p values s).mode = .done ∧ (encodeFixed p values s).fault = none ∧
        (∀ k, k < values.length * p.toNat →
          (fixedStream p.toNat values)[k]? = some (Memory.streamBit (encodeFixed p values s).mem k)) ∧
        (∀ k, values.length * p.toNat ≤ k → k < 8 * n.toNat →
          Memory.streamBit (encodeFixed p values s).mem k = false) ∧
        (∀ a, n.toNat ≤ a → Memory.read (encodeFixed p values s).mem a = Memory.read s.mem a)

/-- R151: if `ENCODE_GOLOMB p, values` returns `(OK, L)` and `MEMSIZE ≥ L + 7`, then `DECODE_GCS p, n` on the same
buffer yields the values, every `DECG` answering `OK`: the read pass ends well (R249). -/
def Obligations.GolombRoundTrip : Prop :=
  ∀ (s : State) (p : Byte) (values : List Word) (n : Word), WindowOk s → Memory.wf s.mem →
    (∀ c ∈ s.mem, c.1 < s.memSize) → (encodeGolomb p values s).resp = some ⟨.ok, n⟩ →
    n.toNat + 7 ≤ s.memSize →
      ReadEndedWell (List.replicate values.length (.decg p)) (issue .init (encodeGolomb p values s)) ∧
      (decodeGcs p values.length (encodeGolomb p values s)).1 = values ∧
      (decodeGcs p values.length (encodeGolomb p values s)).2.fault = none

/-- R166: if `ENCODE_FIXED p, values` returns `(OK, L)` and `MEMSIZE ≥ L + 7`, then `DECODE_FIXED p, n` returns the
values (each is below `2^p`, or its `ENCF.ITEM` would not have answered `OK`), every `DECF` answering `OK`: the
read pass ends well (R249). -/
def Obligations.FixedRoundTrip : Prop :=
  ∀ (s : State) (p : Byte) (values : List Word) (n : Word), WindowOk s → Memory.wf s.mem →
    (encodeFixed p values s).resp = some ⟨.ok, n⟩ → n.toNat + 7 ≤ s.memSize →
      ReadEndedWell (List.replicate values.length (.decf p)) (issue .init (encodeFixed p values s)) ∧
      (decodeFixed p values.length (encodeFixed p values s)).1 = values ∧
      (decodeFixed p values.length (encodeFixed p values s)).2.fault = none

/-! ## The end of a pass -/

/-- R249: a write pass that has ended well leaves `MODE` = `DONE`, no fault, and in `BUF[0 … n-1]` the stream, bit
for bit what the pass had put out, with zeros after a clean cursor's last bit; it was not faulted before. -/
def Obligations.GoodEndLeavesTheStream : Prop :=
  ∀ (i : Instr) (s t : State) (n : Word), EndedWell i s t n → Memory.wf s.mem → s.memSize ≤ 2 ^ 60 →
    s.fault = none ∧ t.mode = .done ∧ t.fault = none ∧ t.byteOff = n ∧ n.toNat = (s.pos + 7) / 8 ∧
    (∀ k, k < 8 * n.toNat → Memory.streamBit t.mem k = s.outBit k) ∧
    (Clean s → ∀ k, s.pos ≤ k → k < 8 * n.toNat → Memory.streamBit t.mem k = false) ∧
    (∀ a, a < s.byteOff.toNat ∨ n.toNat ≤ a → Memory.read t.mem a = Memory.read s.mem a)

/-- R249: a command issued in a write pass ends it well, or leaves it by `E_CAPACITY`, `E_EMPTY`, a fault, `INIT` or
a `START` that answered `OK`, or the pass goes on in its mode and the command closes nothing. Each other way out is
no good end, and no command but a closing one is. -/
def Obligations.WritePassEndsWellOnlyAtAnOkClose : Prop :=
  (∀ (i : Instr) (s t : State), s.fault = none → s.mode ∈ [Mode.wr, .encg, .encf] → exec i s = .next t →
    (∃ n, EndedWell i s t n) ∨ t.resp = some ⟨.eCapacity, 0#64⟩ ∨ t.resp = some ⟨.eEmpty, 0#64⟩ ∨
    (∃ c, t.fault = some c) ∨ i = .init ∨
    ((∃ p, i = .encgStart p ∨ i = .encfStart p) ∧ t.resp = some ⟨.ok, 0#64⟩) ∨
    (t.mode = s.mode ∧ t.fault = none ∧ closesWritePass i = false)) ∧
  (∀ (i : Instr) (s t : State) (n : Word), EndedWell i s t n →
    i ∈ [Instr.finalize, .encgEnd, .encfEnd] ∧ (∀ v, t.resp ≠ some ⟨.eCapacity, v⟩) ∧
      (∀ v, t.resp ≠ some ⟨.eEmpty, v⟩) ∧ ∀ c, t.fault ≠ some c) ∧
  (∀ (i : Instr) (s t : State), exec i s = .next t → t.mode = .done → s.mode ≠ .done →
    (∃ n, EndedWell i s t n) ∨ t.resp = some ⟨.eCapacity, 0#64⟩ ∨ t.resp = some ⟨.eEmpty, 0#64⟩)

/-- R88, R89, R249: `ENCODE_GOLOMB` and `ENCODE_FIXED` answer `OK` exactly when their own `END`, issued after the whole
session, ended the pass well. -/
def Obligations.EncodeCallsAnswerOkExactlyAtAGoodEnd : Prop :=
  ∀ (s : State) (p : Byte) (values : List Word) (n : Word),
    ((encodeGolomb p values s).resp = some ⟨.ok, n⟩ ↔
      allAnsweredOk (.encgStart p :: values.map .encgItem) s = true ∧
        EndedWell .encgEnd (issueAll (.encgStart p :: values.map .encgItem) s) (encodeGolomb p values s) n) ∧
    ((encodeFixed p values s).resp = some ⟨.ok, n⟩ ↔
      allAnsweredOk (.encfStart p :: values.map .encfItem) s = true ∧
        EndedWell .encfEnd (issueAll (.encfStart p :: values.map .encfItem) s) (encodeFixed p values s) n)

/-- R33, R126, R249: a bit-level write pass on a fresh cursor, `INIT`, the `PUTBITS` of fields in range and `FINALIZE`,
whose stream fits the window, has every command answered `OK` and ends well with the stream's bytes rounded up:
the buffer holds the fields one after another from stream bit 0, zeros to the end of the last byte, and is
unchanged from there on. -/
def Obligations.BitLevelPassWritesTheStream : Prop :=
  ∀ (s u : State) (fields : List (Word × Byte)), s.fault = none → Memory.wf s.mem → s.memSize ≤ 2 ^ 60 →
    (∀ f ∈ fields, 1 ≤ f.2.toNat ∧ f.2.toNat ≤ 56 ∧ f.1.toNat < 2 ^ f.2.toNat) →
    ((fieldStream fields).length + 7) / 8 ≤ s.memSize →
    u = issueAll (.init :: fields.map fun f => .putbits f.1 f.2) s →
      allAnsweredOk (.init :: fields.map fun f => .putbits f.1 f.2) s = true ∧
      ∃ (t : State) (n : Word), EndedWell .finalize u t n ∧ n.toNat = ((fieldStream fields).length + 7) / 8 ∧
        (∀ k, k < (fieldStream fields).length →
          (fieldStream fields)[k]? = some (Memory.streamBit t.mem k)) ∧
        (∀ k, (fieldStream fields).length ≤ k → k < 8 * n.toNat → Memory.streamBit t.mem k = false) ∧
        (∀ a, n.toNat ≤ a → Memory.read t.mem a = Memory.read s.mem a)

/-- R249, R59, R235: a read pass of fields, each a `GETBITS` or a `DECF` of a count in range, inside the first `len`
bytes of a window over-allocated by 7, ends well with the position past all of them and the buffer as it was. -/
def Obligations.ReadPassInsideTheDataEndsWell : Prop :=
  ∀ (items : List Instr) (ns : List Byte) (s : State) (len : Nat),
    List.Forall₂ (fun i n => i = Instr.getbits n ∨ i = .decf n) items ns →
    (∀ n ∈ ns, 1 ≤ n.toNat ∧ n.toNat ≤ 57) → s.fault = none → s.mode = .fresh ∨ s.mode = .rd →
    s.memSize ≤ 2 ^ 60 → s.pos + (ns.map BitVec.toNat).sum ≤ 8 * len → len + 7 ≤ s.memSize →
      ReadEndedWell items s ∧ (issueAll items s).pos = s.pos + (ns.map BitVec.toNat).sum ∧
        (issueAll items s).mem = s.mem
end

