-- ==== Sys2Proof/Laws/State.lean ====
section
/-! SUPPORT. One lemma per field per update of the state, true by definition. -/

namespace Sys2Proof.Machine

/-! ### `setLookahead` -/

@[simp] theorem State.setLookahead_lookahead (s : State) (v : Word) : (s.setLookahead v).lookahead = v := rfl
@[simp] theorem State.setLookahead_bitOff (s : State) (v : Word) : (s.setLookahead v).bitOff = s.bitOff := rfl
@[simp] theorem State.setLookahead_byteOff (s : State) (v : Word) : (s.setLookahead v).byteOff = s.byteOff := rfl
@[simp] theorem State.setLookahead_acc (s : State) (v : Word) : (s.setLookahead v).acc = s.acc := rfl
@[simp] theorem State.setLookahead_p (s : State) (v : Word) : (s.setLookahead v).p = s.p := rfl
@[simp] theorem State.setLookahead_cap (s : State) (v : Word) : (s.setLookahead v).cap = s.cap := rfl
@[simp] theorem State.setLookahead_mode (s : State) (v : Word) : (s.setLookahead v).mode = s.mode := rfl
@[simp] theorem State.setLookahead_fault (s : State) (v : Word) : (s.setLookahead v).fault = s.fault := rfl
@[simp] theorem State.setLookahead_mem (s : State) (v : Word) : (s.setLookahead v).mem = s.mem := rfl
@[simp] theorem State.setLookahead_memSize (s : State) (v : Word) : (s.setLookahead v).memSize = s.memSize := rfl
@[simp] theorem State.setLookahead_inputs (s : State) (v : Word) : (s.setLookahead v).inputs = s.inputs := rfl
@[simp] theorem State.setLookahead_resp (s : State) (v : Word) : (s.setLookahead v).resp = s.resp := rfl

/-! ### `setBitOff` -/

@[simp] theorem State.setBitOff_lookahead (s : State) (v : Fin 65) : (s.setBitOff v).lookahead = s.lookahead := rfl
@[simp] theorem State.setBitOff_bitOff (s : State) (v : Fin 65) : (s.setBitOff v).bitOff = v := rfl
@[simp] theorem State.setBitOff_byteOff (s : State) (v : Fin 65) : (s.setBitOff v).byteOff = s.byteOff := rfl
@[simp] theorem State.setBitOff_acc (s : State) (v : Fin 65) : (s.setBitOff v).acc = s.acc := rfl
@[simp] theorem State.setBitOff_p (s : State) (v : Fin 65) : (s.setBitOff v).p = s.p := rfl
@[simp] theorem State.setBitOff_cap (s : State) (v : Fin 65) : (s.setBitOff v).cap = s.cap := rfl
@[simp] theorem State.setBitOff_mode (s : State) (v : Fin 65) : (s.setBitOff v).mode = s.mode := rfl
@[simp] theorem State.setBitOff_fault (s : State) (v : Fin 65) : (s.setBitOff v).fault = s.fault := rfl
@[simp] theorem State.setBitOff_mem (s : State) (v : Fin 65) : (s.setBitOff v).mem = s.mem := rfl
@[simp] theorem State.setBitOff_memSize (s : State) (v : Fin 65) : (s.setBitOff v).memSize = s.memSize := rfl
@[simp] theorem State.setBitOff_inputs (s : State) (v : Fin 65) : (s.setBitOff v).inputs = s.inputs := rfl
@[simp] theorem State.setBitOff_resp (s : State) (v : Fin 65) : (s.setBitOff v).resp = s.resp := rfl

/-! ### `setByteOff` -/

@[simp] theorem State.setByteOff_lookahead (s : State) (v : Word) : (s.setByteOff v).lookahead = s.lookahead := rfl
@[simp] theorem State.setByteOff_bitOff (s : State) (v : Word) : (s.setByteOff v).bitOff = s.bitOff := rfl
@[simp] theorem State.setByteOff_byteOff (s : State) (v : Word) : (s.setByteOff v).byteOff = v := rfl
@[simp] theorem State.setByteOff_acc (s : State) (v : Word) : (s.setByteOff v).acc = s.acc := rfl
@[simp] theorem State.setByteOff_p (s : State) (v : Word) : (s.setByteOff v).p = s.p := rfl
@[simp] theorem State.setByteOff_cap (s : State) (v : Word) : (s.setByteOff v).cap = s.cap := rfl
@[simp] theorem State.setByteOff_mode (s : State) (v : Word) : (s.setByteOff v).mode = s.mode := rfl
@[simp] theorem State.setByteOff_fault (s : State) (v : Word) : (s.setByteOff v).fault = s.fault := rfl
@[simp] theorem State.setByteOff_mem (s : State) (v : Word) : (s.setByteOff v).mem = s.mem := rfl
@[simp] theorem State.setByteOff_memSize (s : State) (v : Word) : (s.setByteOff v).memSize = s.memSize := rfl
@[simp] theorem State.setByteOff_inputs (s : State) (v : Word) : (s.setByteOff v).inputs = s.inputs := rfl
@[simp] theorem State.setByteOff_resp (s : State) (v : Word) : (s.setByteOff v).resp = s.resp := rfl

/-! ### `setAcc` -/

@[simp] theorem State.setAcc_lookahead (s : State) (v : Word) : (s.setAcc v).lookahead = s.lookahead := rfl
@[simp] theorem State.setAcc_bitOff (s : State) (v : Word) : (s.setAcc v).bitOff = s.bitOff := rfl
@[simp] theorem State.setAcc_byteOff (s : State) (v : Word) : (s.setAcc v).byteOff = s.byteOff := rfl
@[simp] theorem State.setAcc_acc (s : State) (v : Word) : (s.setAcc v).acc = v := rfl
@[simp] theorem State.setAcc_p (s : State) (v : Word) : (s.setAcc v).p = s.p := rfl
@[simp] theorem State.setAcc_cap (s : State) (v : Word) : (s.setAcc v).cap = s.cap := rfl
@[simp] theorem State.setAcc_mode (s : State) (v : Word) : (s.setAcc v).mode = s.mode := rfl
@[simp] theorem State.setAcc_fault (s : State) (v : Word) : (s.setAcc v).fault = s.fault := rfl
@[simp] theorem State.setAcc_mem (s : State) (v : Word) : (s.setAcc v).mem = s.mem := rfl
@[simp] theorem State.setAcc_memSize (s : State) (v : Word) : (s.setAcc v).memSize = s.memSize := rfl
@[simp] theorem State.setAcc_inputs (s : State) (v : Word) : (s.setAcc v).inputs = s.inputs := rfl
@[simp] theorem State.setAcc_resp (s : State) (v : Word) : (s.setAcc v).resp = s.resp := rfl

/-! ### `setP` -/

@[simp] theorem State.setP_lookahead (s : State) (v : Fin 57) : (s.setP v).lookahead = s.lookahead := rfl
@[simp] theorem State.setP_bitOff (s : State) (v : Fin 57) : (s.setP v).bitOff = s.bitOff := rfl
@[simp] theorem State.setP_byteOff (s : State) (v : Fin 57) : (s.setP v).byteOff = s.byteOff := rfl
@[simp] theorem State.setP_acc (s : State) (v : Fin 57) : (s.setP v).acc = s.acc := rfl
@[simp] theorem State.setP_p (s : State) (v : Fin 57) : (s.setP v).p = v := rfl
@[simp] theorem State.setP_cap (s : State) (v : Fin 57) : (s.setP v).cap = s.cap := rfl
@[simp] theorem State.setP_mode (s : State) (v : Fin 57) : (s.setP v).mode = s.mode := rfl
@[simp] theorem State.setP_fault (s : State) (v : Fin 57) : (s.setP v).fault = s.fault := rfl
@[simp] theorem State.setP_mem (s : State) (v : Fin 57) : (s.setP v).mem = s.mem := rfl
@[simp] theorem State.setP_memSize (s : State) (v : Fin 57) : (s.setP v).memSize = s.memSize := rfl
@[simp] theorem State.setP_inputs (s : State) (v : Fin 57) : (s.setP v).inputs = s.inputs := rfl
@[simp] theorem State.setP_resp (s : State) (v : Fin 57) : (s.setP v).resp = s.resp := rfl

/-! ### `setCap` -/

@[simp] theorem State.setCap_lookahead (s : State) (v : Word) : (s.setCap v).lookahead = s.lookahead := rfl
@[simp] theorem State.setCap_bitOff (s : State) (v : Word) : (s.setCap v).bitOff = s.bitOff := rfl
@[simp] theorem State.setCap_byteOff (s : State) (v : Word) : (s.setCap v).byteOff = s.byteOff := rfl
@[simp] theorem State.setCap_acc (s : State) (v : Word) : (s.setCap v).acc = s.acc := rfl
@[simp] theorem State.setCap_p (s : State) (v : Word) : (s.setCap v).p = s.p := rfl
@[simp] theorem State.setCap_cap (s : State) (v : Word) : (s.setCap v).cap = v := rfl
@[simp] theorem State.setCap_mode (s : State) (v : Word) : (s.setCap v).mode = s.mode := rfl
@[simp] theorem State.setCap_fault (s : State) (v : Word) : (s.setCap v).fault = s.fault := rfl
@[simp] theorem State.setCap_mem (s : State) (v : Word) : (s.setCap v).mem = s.mem := rfl
@[simp] theorem State.setCap_memSize (s : State) (v : Word) : (s.setCap v).memSize = s.memSize := rfl
@[simp] theorem State.setCap_inputs (s : State) (v : Word) : (s.setCap v).inputs = s.inputs := rfl
@[simp] theorem State.setCap_resp (s : State) (v : Word) : (s.setCap v).resp = s.resp := rfl

/-! ### `setMode` -/

@[simp] theorem State.setMode_lookahead (s : State) (v : Mode) : (s.setMode v).lookahead = s.lookahead := rfl
@[simp] theorem State.setMode_bitOff (s : State) (v : Mode) : (s.setMode v).bitOff = s.bitOff := rfl
@[simp] theorem State.setMode_byteOff (s : State) (v : Mode) : (s.setMode v).byteOff = s.byteOff := rfl
@[simp] theorem State.setMode_acc (s : State) (v : Mode) : (s.setMode v).acc = s.acc := rfl
@[simp] theorem State.setMode_p (s : State) (v : Mode) : (s.setMode v).p = s.p := rfl
@[simp] theorem State.setMode_cap (s : State) (v : Mode) : (s.setMode v).cap = s.cap := rfl
@[simp] theorem State.setMode_mode (s : State) (v : Mode) : (s.setMode v).mode = v := rfl
@[simp] theorem State.setMode_fault (s : State) (v : Mode) : (s.setMode v).fault = s.fault := rfl
@[simp] theorem State.setMode_mem (s : State) (v : Mode) : (s.setMode v).mem = s.mem := rfl
@[simp] theorem State.setMode_memSize (s : State) (v : Mode) : (s.setMode v).memSize = s.memSize := rfl
@[simp] theorem State.setMode_inputs (s : State) (v : Mode) : (s.setMode v).inputs = s.inputs := rfl
@[simp] theorem State.setMode_resp (s : State) (v : Mode) : (s.setMode v).resp = s.resp := rfl

/-! ### `setFault` -/

@[simp] theorem State.setFault_lookahead (s : State) (v : Option FaultCode) : (s.setFault v).lookahead = s.lookahead := rfl
@[simp] theorem State.setFault_bitOff (s : State) (v : Option FaultCode) : (s.setFault v).bitOff = s.bitOff := rfl
@[simp] theorem State.setFault_byteOff (s : State) (v : Option FaultCode) : (s.setFault v).byteOff = s.byteOff := rfl
@[simp] theorem State.setFault_acc (s : State) (v : Option FaultCode) : (s.setFault v).acc = s.acc := rfl
@[simp] theorem State.setFault_p (s : State) (v : Option FaultCode) : (s.setFault v).p = s.p := rfl
@[simp] theorem State.setFault_cap (s : State) (v : Option FaultCode) : (s.setFault v).cap = s.cap := rfl
@[simp] theorem State.setFault_mode (s : State) (v : Option FaultCode) : (s.setFault v).mode = s.mode := rfl
@[simp] theorem State.setFault_fault (s : State) (v : Option FaultCode) : (s.setFault v).fault = v := rfl
@[simp] theorem State.setFault_mem (s : State) (v : Option FaultCode) : (s.setFault v).mem = s.mem := rfl
@[simp] theorem State.setFault_memSize (s : State) (v : Option FaultCode) : (s.setFault v).memSize = s.memSize := rfl
@[simp] theorem State.setFault_inputs (s : State) (v : Option FaultCode) : (s.setFault v).inputs = s.inputs := rfl
@[simp] theorem State.setFault_resp (s : State) (v : Option FaultCode) : (s.setFault v).resp = s.resp := rfl

/-! ### `setMem` -/

@[simp] theorem State.setMem_lookahead (s : State) (v : Memory) : (s.setMem v).lookahead = s.lookahead := rfl
@[simp] theorem State.setMem_bitOff (s : State) (v : Memory) : (s.setMem v).bitOff = s.bitOff := rfl
@[simp] theorem State.setMem_byteOff (s : State) (v : Memory) : (s.setMem v).byteOff = s.byteOff := rfl
@[simp] theorem State.setMem_acc (s : State) (v : Memory) : (s.setMem v).acc = s.acc := rfl
@[simp] theorem State.setMem_p (s : State) (v : Memory) : (s.setMem v).p = s.p := rfl
@[simp] theorem State.setMem_cap (s : State) (v : Memory) : (s.setMem v).cap = s.cap := rfl
@[simp] theorem State.setMem_mode (s : State) (v : Memory) : (s.setMem v).mode = s.mode := rfl
@[simp] theorem State.setMem_fault (s : State) (v : Memory) : (s.setMem v).fault = s.fault := rfl
@[simp] theorem State.setMem_mem (s : State) (v : Memory) : (s.setMem v).mem = v := rfl
@[simp] theorem State.setMem_memSize (s : State) (v : Memory) : (s.setMem v).memSize = s.memSize := rfl
@[simp] theorem State.setMem_inputs (s : State) (v : Memory) : (s.setMem v).inputs = s.inputs := rfl
@[simp] theorem State.setMem_resp (s : State) (v : Memory) : (s.setMem v).resp = s.resp := rfl

/-! ### `setInputs` -/

@[simp] theorem State.setInputs_lookahead (s : State) (v : List PortEvent) : (s.setInputs v).lookahead = s.lookahead := rfl
@[simp] theorem State.setInputs_bitOff (s : State) (v : List PortEvent) : (s.setInputs v).bitOff = s.bitOff := rfl
@[simp] theorem State.setInputs_byteOff (s : State) (v : List PortEvent) : (s.setInputs v).byteOff = s.byteOff := rfl
@[simp] theorem State.setInputs_acc (s : State) (v : List PortEvent) : (s.setInputs v).acc = s.acc := rfl
@[simp] theorem State.setInputs_p (s : State) (v : List PortEvent) : (s.setInputs v).p = s.p := rfl
@[simp] theorem State.setInputs_cap (s : State) (v : List PortEvent) : (s.setInputs v).cap = s.cap := rfl
@[simp] theorem State.setInputs_mode (s : State) (v : List PortEvent) : (s.setInputs v).mode = s.mode := rfl
@[simp] theorem State.setInputs_fault (s : State) (v : List PortEvent) : (s.setInputs v).fault = s.fault := rfl
@[simp] theorem State.setInputs_mem (s : State) (v : List PortEvent) : (s.setInputs v).mem = s.mem := rfl
@[simp] theorem State.setInputs_memSize (s : State) (v : List PortEvent) : (s.setInputs v).memSize = s.memSize := rfl
@[simp] theorem State.setInputs_inputs (s : State) (v : List PortEvent) : (s.setInputs v).inputs = v := rfl
@[simp] theorem State.setInputs_resp (s : State) (v : List PortEvent) : (s.setInputs v).resp = s.resp := rfl

/-! ### `setResp` -/

@[simp] theorem State.setResp_lookahead (s : State) (v : Option Response) : (s.setResp v).lookahead = s.lookahead := rfl
@[simp] theorem State.setResp_bitOff (s : State) (v : Option Response) : (s.setResp v).bitOff = s.bitOff := rfl
@[simp] theorem State.setResp_byteOff (s : State) (v : Option Response) : (s.setResp v).byteOff = s.byteOff := rfl
@[simp] theorem State.setResp_acc (s : State) (v : Option Response) : (s.setResp v).acc = s.acc := rfl
@[simp] theorem State.setResp_p (s : State) (v : Option Response) : (s.setResp v).p = s.p := rfl
@[simp] theorem State.setResp_cap (s : State) (v : Option Response) : (s.setResp v).cap = s.cap := rfl
@[simp] theorem State.setResp_mode (s : State) (v : Option Response) : (s.setResp v).mode = s.mode := rfl
@[simp] theorem State.setResp_fault (s : State) (v : Option Response) : (s.setResp v).fault = s.fault := rfl
@[simp] theorem State.setResp_mem (s : State) (v : Option Response) : (s.setResp v).mem = s.mem := rfl
@[simp] theorem State.setResp_memSize (s : State) (v : Option Response) : (s.setResp v).memSize = s.memSize := rfl
@[simp] theorem State.setResp_inputs (s : State) (v : Option Response) : (s.setResp v).inputs = s.inputs := rfl
@[simp] theorem State.setResp_resp (s : State) (v : Option Response) : (s.setResp v).resp = v := rfl

/-! ### Responses, fault entry, reset, the fresh cursor -/

@[simp] theorem reply_lookahead (st : Status) (v : Word) (s : State) : (reply st v s).lookahead = s.lookahead := rfl
@[simp] theorem reply_bitOff (st : Status) (v : Word) (s : State) : (reply st v s).bitOff = s.bitOff := rfl
@[simp] theorem reply_byteOff (st : Status) (v : Word) (s : State) : (reply st v s).byteOff = s.byteOff := rfl
@[simp] theorem reply_acc (st : Status) (v : Word) (s : State) : (reply st v s).acc = s.acc := rfl
@[simp] theorem reply_p (st : Status) (v : Word) (s : State) : (reply st v s).p = s.p := rfl
@[simp] theorem reply_cap (st : Status) (v : Word) (s : State) : (reply st v s).cap = s.cap := rfl
@[simp] theorem reply_mode (st : Status) (v : Word) (s : State) : (reply st v s).mode = s.mode := rfl
@[simp] theorem reply_fault (st : Status) (v : Word) (s : State) : (reply st v s).fault = s.fault := rfl
@[simp] theorem reply_mem (st : Status) (v : Word) (s : State) : (reply st v s).mem = s.mem := rfl
@[simp] theorem reply_memSize (st : Status) (v : Word) (s : State) : (reply st v s).memSize = s.memSize := rfl
@[simp] theorem reply_inputs (st : Status) (v : Word) (s : State) : (reply st v s).inputs = s.inputs := rfl
@[simp] theorem reply_resp (st : Status) (v : Word) (s : State) : (reply st v s).resp = some ⟨st, v⟩ := rfl

@[simp] theorem raiseFault_lookahead (c : FaultCode) (s : State) : (raiseFault c s).lookahead = s.lookahead := rfl
@[simp] theorem raiseFault_bitOff (c : FaultCode) (s : State) : (raiseFault c s).bitOff = s.bitOff := rfl
@[simp] theorem raiseFault_byteOff (c : FaultCode) (s : State) : (raiseFault c s).byteOff = s.byteOff := rfl
@[simp] theorem raiseFault_acc (c : FaultCode) (s : State) : (raiseFault c s).acc = s.acc := rfl
@[simp] theorem raiseFault_p (c : FaultCode) (s : State) : (raiseFault c s).p = s.p := rfl
@[simp] theorem raiseFault_cap (c : FaultCode) (s : State) : (raiseFault c s).cap = s.cap := rfl
@[simp] theorem raiseFault_mode (c : FaultCode) (s : State) : (raiseFault c s).mode = s.mode := rfl
@[simp] theorem raiseFault_fault (c : FaultCode) (s : State) : (raiseFault c s).fault = some (s.fault.getD c) := rfl
@[simp] theorem raiseFault_mem (c : FaultCode) (s : State) : (raiseFault c s).mem = s.mem := rfl
@[simp] theorem raiseFault_memSize (c : FaultCode) (s : State) : (raiseFault c s).memSize = s.memSize := rfl
@[simp] theorem raiseFault_inputs (c : FaultCode) (s : State) : (raiseFault c s).inputs = s.inputs := rfl
@[simp] theorem raiseFault_resp (c : FaultCode) (s : State) : (raiseFault c s).resp = some ⟨.fault c, 0#64⟩ := rfl

@[simp] theorem refuse_lookahead (s : State) : (refuse s).lookahead = s.lookahead := rfl
@[simp] theorem refuse_bitOff (s : State) : (refuse s).bitOff = s.bitOff := rfl
@[simp] theorem refuse_byteOff (s : State) : (refuse s).byteOff = s.byteOff := rfl
@[simp] theorem refuse_acc (s : State) : (refuse s).acc = s.acc := rfl
@[simp] theorem refuse_p (s : State) : (refuse s).p = s.p := rfl
@[simp] theorem refuse_cap (s : State) : (refuse s).cap = s.cap := rfl
@[simp] theorem refuse_mode (s : State) : (refuse s).mode = s.mode := rfl
@[simp] theorem refuse_fault (s : State) : (refuse s).fault = s.fault := rfl
@[simp] theorem refuse_mem (s : State) : (refuse s).mem = s.mem := rfl
@[simp] theorem refuse_memSize (s : State) : (refuse s).memSize = s.memSize := rfl
@[simp] theorem refuse_inputs (s : State) : (refuse s).inputs = s.inputs := rfl
@[simp] theorem refuse_resp (s : State) : (refuse s).resp = some ⟨.refused, 0#64⟩ := rfl

@[simp] theorem zeroCursor_lookahead (s : State) : (zeroCursor s).lookahead = 0#64 := rfl
@[simp] theorem zeroCursor_bitOff (s : State) : (zeroCursor s).bitOff = 0 := rfl
@[simp] theorem zeroCursor_byteOff (s : State) : (zeroCursor s).byteOff = 0#64 := rfl
@[simp] theorem zeroCursor_acc (s : State) : (zeroCursor s).acc = s.acc := rfl
@[simp] theorem zeroCursor_p (s : State) : (zeroCursor s).p = s.p := rfl
@[simp] theorem zeroCursor_cap (s : State) : (zeroCursor s).cap = s.cap := rfl
@[simp] theorem zeroCursor_mode (s : State) : (zeroCursor s).mode = s.mode := rfl
@[simp] theorem zeroCursor_fault (s : State) : (zeroCursor s).fault = s.fault := rfl
@[simp] theorem zeroCursor_mem (s : State) : (zeroCursor s).mem = s.mem := rfl
@[simp] theorem zeroCursor_memSize (s : State) : (zeroCursor s).memSize = s.memSize := rfl
@[simp] theorem zeroCursor_inputs (s : State) : (zeroCursor s).inputs = s.inputs := rfl
@[simp] theorem zeroCursor_resp (s : State) : (zeroCursor s).resp = s.resp := rfl

@[simp] theorem resetBlock_lookahead (s : State) : (resetBlock s).lookahead = 0#64 := rfl
@[simp] theorem resetBlock_bitOff (s : State) : (resetBlock s).bitOff = 0 := rfl
@[simp] theorem resetBlock_byteOff (s : State) : (resetBlock s).byteOff = 0#64 := rfl
@[simp] theorem resetBlock_acc (s : State) : (resetBlock s).acc = 0#64 := rfl
@[simp] theorem resetBlock_p (s : State) : (resetBlock s).p = 0 := rfl
@[simp] theorem resetBlock_cap (s : State) : (resetBlock s).cap = Config.capDefault := rfl
@[simp] theorem resetBlock_mode (s : State) : (resetBlock s).mode = .fresh := rfl
@[simp] theorem resetBlock_fault (s : State) : (resetBlock s).fault = none := rfl
@[simp] theorem resetBlock_mem (s : State) : (resetBlock s).mem = s.mem := rfl
@[simp] theorem resetBlock_memSize (s : State) : (resetBlock s).memSize = s.memSize := rfl
@[simp] theorem resetBlock_inputs (s : State) : (resetBlock s).inputs = s.inputs := rfl
@[simp] theorem resetBlock_resp (s : State) : (resetBlock s).resp = none := rfl

@[simp] theorem pokeByte_lookahead (a : Nat) (b : Byte) (s : State) : (pokeByte a b s).lookahead = s.lookahead := rfl
@[simp] theorem pokeByte_bitOff (a : Nat) (b : Byte) (s : State) : (pokeByte a b s).bitOff = s.bitOff := rfl
@[simp] theorem pokeByte_byteOff (a : Nat) (b : Byte) (s : State) : (pokeByte a b s).byteOff = s.byteOff := rfl
@[simp] theorem pokeByte_acc (a : Nat) (b : Byte) (s : State) : (pokeByte a b s).acc = s.acc := rfl
@[simp] theorem pokeByte_p (a : Nat) (b : Byte) (s : State) : (pokeByte a b s).p = s.p := rfl
@[simp] theorem pokeByte_cap (a : Nat) (b : Byte) (s : State) : (pokeByte a b s).cap = s.cap := rfl
@[simp] theorem pokeByte_mode (a : Nat) (b : Byte) (s : State) : (pokeByte a b s).mode = s.mode := rfl
@[simp] theorem pokeByte_fault (a : Nat) (b : Byte) (s : State) : (pokeByte a b s).fault = s.fault := rfl
@[simp] theorem pokeByte_mem (a : Nat) (b : Byte) (s : State) : (pokeByte a b s).mem = Memory.write s.mem a b := rfl
@[simp] theorem pokeByte_memSize (a : Nat) (b : Byte) (s : State) : (pokeByte a b s).memSize = s.memSize := rfl
@[simp] theorem pokeByte_inputs (a : Nat) (b : Byte) (s : State) : (pokeByte a b s).inputs = s.inputs := rfl
@[simp] theorem pokeByte_resp (a : Nat) (b : Byte) (s : State) : (pokeByte a b s).resp = s.resp := rfl

@[simp] theorem consume_lookahead (n : Nat) (s : State) : (consume n s).lookahead = s.lookahead := rfl
@[simp] theorem consume_bitOff (n : Nat) (s : State) : (consume n s).bitOff = bitOffOf (s.bitOff.val + n) := rfl
@[simp] theorem consume_byteOff (n : Nat) (s : State) : (consume n s).byteOff = s.byteOff := rfl
@[simp] theorem consume_acc (n : Nat) (s : State) : (consume n s).acc = s.acc := rfl
@[simp] theorem consume_p (n : Nat) (s : State) : (consume n s).p = s.p := rfl
@[simp] theorem consume_cap (n : Nat) (s : State) : (consume n s).cap = s.cap := rfl
@[simp] theorem consume_mode (n : Nat) (s : State) : (consume n s).mode = s.mode := rfl
@[simp] theorem consume_fault (n : Nat) (s : State) : (consume n s).fault = s.fault := rfl
@[simp] theorem consume_mem (n : Nat) (s : State) : (consume n s).mem = s.mem := rfl
@[simp] theorem consume_memSize (n : Nat) (s : State) : (consume n s).memSize = s.memSize := rfl
@[simp] theorem consume_inputs (n : Nat) (s : State) : (consume n s).inputs = s.inputs := rfl
@[simp] theorem consume_resp (n : Nat) (s : State) : (consume n s).resp = s.resp := rfl

@[simp] theorem writeBits_lookahead (v : Word) (n : Nat) (s : State) : (writeBits v n s).lookahead = s.lookahead ||| ((v <<< (64 - n)) >>> s.bitOff.val) := rfl
@[simp] theorem writeBits_bitOff (v : Word) (n : Nat) (s : State) : (writeBits v n s).bitOff = s.bitOff := rfl
@[simp] theorem writeBits_byteOff (v : Word) (n : Nat) (s : State) : (writeBits v n s).byteOff = s.byteOff := rfl
@[simp] theorem writeBits_acc (v : Word) (n : Nat) (s : State) : (writeBits v n s).acc = s.acc := rfl
@[simp] theorem writeBits_p (v : Word) (n : Nat) (s : State) : (writeBits v n s).p = s.p := rfl
@[simp] theorem writeBits_cap (v : Word) (n : Nat) (s : State) : (writeBits v n s).cap = s.cap := rfl
@[simp] theorem writeBits_mode (v : Word) (n : Nat) (s : State) : (writeBits v n s).mode = s.mode := rfl
@[simp] theorem writeBits_fault (v : Word) (n : Nat) (s : State) : (writeBits v n s).fault = s.fault := rfl
@[simp] theorem writeBits_mem (v : Word) (n : Nat) (s : State) : (writeBits v n s).mem = s.mem := rfl
@[simp] theorem writeBits_memSize (v : Word) (n : Nat) (s : State) : (writeBits v n s).memSize = s.memSize := rfl
@[simp] theorem writeBits_inputs (v : Word) (n : Nat) (s : State) : (writeBits v n s).inputs = s.inputs := rfl
@[simp] theorem writeBits_resp (v : Word) (n : Nat) (s : State) : (writeBits v n s).resp = s.resp := rfl

end Sys2Proof.Machine
end

