-- ==== Sys2Proof/Laws/Memory.lean ====
section
/-! SUPPORT. The laws of the buffer: read after write, the canonical form is kept, what a bounded access does. -/

namespace Sys2Proof.Machine

/-! ## One byte -/

theorem Memory.read_of_lt {m : Memory} {a : Nat} (h : ∀ c ∈ m, a < c.1) :
    Memory.read m a = Config.unlistedByte := by
  induction m with
  | nil => rfl
  | cons c m ih =>
    have hc : c.1 ≠ a := (h c (by simp)).ne'
    simp [Memory.read, hc, ih fun d hd => h d (by simp [hd])]

theorem Memory.wf_cons {c : Host.Cell} {m : Memory} :
    Memory.wf (c :: m) ↔ (∀ d ∈ m, c.1 < d.1) ∧ c.2 ≠ Config.unlistedByte ∧ Memory.wf m := by
  simp only [Memory.wf, List.pairwise_cons, List.mem_cons, forall_eq_or_imp]
  tauto

/-- A cell put in front of bytes at higher offsets reads back, and nothing else changes. -/
theorem Memory.read_consCell {m : Memory} {a : Nat} {b : Byte} (h : ∀ c ∈ m, a < c.1) (x : Nat) :
    Memory.read (Memory.consCell a b m) x = if x = a then b else Memory.read m x := by
  unfold Memory.consCell
  split
  · next hb =>
    split
    · next hx => subst hx hb; exact Memory.read_of_lt h
    · rfl
  · by_cases hx : x = a
    · simp [Memory.read, hx]
    · simp [Memory.read, hx, Ne.symm hx]

theorem Memory.mem_consCell {m : Memory} {a : Nat} {b : Byte} {c : Host.Cell}
    (h : c ∈ Memory.consCell a b m) : c = (a, b) ∨ c ∈ m := by
  unfold Memory.consCell at h
  split at h
  · exact .inr h
  · simpa using h

theorem Memory.consCell_wf {m : Memory} {a : Nat} {b : Byte} (hm : Memory.wf m)
    (h : ∀ c ∈ m, a < c.1) : Memory.wf (Memory.consCell a b m) := by
  unfold Memory.consCell
  split
  · exact hm
  · next hb => exact Memory.wf_cons.2 ⟨h, hb, hm⟩

theorem Memory.mem_write {m : Memory} {a : Nat} {b : Byte} {c : Host.Cell}
    (h : c ∈ Memory.write m a b) : c = (a, b) ∨ c ∈ m := by
  induction m with
  | nil => exact Memory.mem_consCell h
  | cons d m ih =>
    unfold Memory.write at h
    split at h
    · exact Memory.mem_consCell h
    · split at h
      · rcases Memory.mem_consCell h with h | h <;> simp [h]
      · rcases List.mem_cons.1 h with h | h
        · simp [h]
        · rcases ih h with h | h <;> simp [h]

/-- Read after write: the byte written at its offset, every other byte as before. -/
theorem Memory.read_write {m : Memory} (hm : Memory.wf m) (a : Nat) (b : Byte) (x : Nat) :
    Memory.read (Memory.write m a b) x = if x = a then b else Memory.read m x := by
  induction m with
  | nil => exact Memory.read_consCell (by simp) x
  | cons c m ih =>
    obtain ⟨hlt, hb, hm'⟩ := Memory.wf_cons.1 hm
    unfold Memory.write
    split
    · next h =>
      refine Memory.read_consCell (fun d hd => ?_) x
      rcases List.mem_cons.1 hd with rfl | hd
      · exact h
      · exact h.trans (hlt d hd)
    · split
      · next h =>
        subst h
        rw [Memory.read_consCell hlt]
        by_cases hx : x = c.1
        · simp [hx]
        · simp [hx, Memory.read, Ne.symm hx]
      · next h1 h2 =>
        simp only [Memory.read]
        by_cases hx : c.1 = x
        · subst hx; simp [Ne.symm h2]
        · simp [hx, ih hm']

/-- Every write keeps the canonical form. -/
theorem Memory.write_wf {m : Memory} (hm : Memory.wf m) (a : Nat) (b : Byte) :
    Memory.wf (Memory.write m a b) := by
  induction m with
  | nil => exact Memory.consCell_wf hm (by simp)
  | cons c m ih =>
    obtain ⟨hlt, hb, hm'⟩ := Memory.wf_cons.1 hm
    unfold Memory.write
    split
    · next h =>
      refine Memory.consCell_wf hm fun d hd => ?_
      rcases List.mem_cons.1 hd with rfl | hd
      · exact h
      · exact h.trans (hlt d hd)
    · split
      · next h => subst h; exact Memory.consCell_wf hm' hlt
      · next h1 h2 =>
        refine Memory.wf_cons.2 ⟨fun d hd => ?_, hb, ih hm'⟩
        rcases Memory.mem_write hd with rfl | hd
        · show c.1 < a; omega
        · exact hlt d hd

/-! ## Several bytes -/

theorem Memory.writeBytes_wf {m : Memory} (hm : Memory.wf m) (a n v : Nat) :
    Memory.wf (Memory.writeBytes m a n v) := by
  induction n generalizing v with
  | zero => exact hm
  | succ n ih => exact Memory.write_wf (ih _) _ _

theorem Memory.mem_writeBytes {m : Memory} {a n v : Nat} {c : Host.Cell}
    (h : c ∈ Memory.writeBytes m a n v) : c ∈ m ∨ c.1 < a + n := by
  induction n generalizing v with
  | zero => exact .inl h
  | succ n ih =>
    rcases Memory.mem_write h with rfl | h
    · right; show a + n < a + (n + 1); omega
    · rcases ih h with h | h
      · exact .inl h
      · right; omega

/-- What the bytes of a big-endian write are: byte `i` of `n` is `v div 256^(n-1-i) mod 256`. -/
theorem Memory.read_writeBytes {m : Memory} (hm : Memory.wf m) (a n v x : Nat) :
    Memory.read (Memory.writeBytes m a n v) x =
      if a ≤ x ∧ x < a + n then BitVec.ofNat 8 (v / 256 ^ (a + n - 1 - x)) else Memory.read m x := by
  induction n generalizing v with
  | zero =>
    have : ¬(a ≤ x ∧ x < a + 0) := by omega
    simp only [Memory.writeBytes, this, if_false]
  | succ n ih =>
    simp only [Memory.writeBytes]
    rw [Memory.read_write (Memory.writeBytes_wf hm _ _ _), ih]
    by_cases hx : x = a + n
    · have : a ≤ x ∧ x < a + (n + 1) := by omega
      simp [hx]
    · by_cases h : a ≤ x ∧ x < a + n
      · have h' : a ≤ x ∧ x < a + (n + 1) := by omega
        have e : a + (n + 1) - 1 - x = (a + n - 1 - x) + 1 := by omega
        simp only [hx, if_false, h, if_true, h', e, and_self]
        rw [Nat.pow_succ, Nat.div_div_eq_div_mul, Nat.mul_comm]
      · have h' : ¬(a ≤ x ∧ x < a + (n + 1)) := by omega
        simp only [hx, if_false, h, h']

theorem Memory.readBytes_lt (m : Memory) (a n : Nat) : Memory.readBytes m a n < 256 ^ n := by
  induction n with
  | zero => simp [Memory.readBytes]
  | succ n ih =>
    have := (Memory.read m (a + n)).isLt
    simp only [Memory.readBytes, Nat.pow_succ]
    omega

/-! ## Bounded accesses -/

/-- All that `MemRead` can do (R52). -/
theorem State.memRead_eq (s : State) (a n : Nat) :
    s.memRead a n = if 1 ≤ n ∧ s.memSize < a + n then none else some (Memory.readBytes s.mem a n) := by
  simp [State.memRead, State.outOfWindow]

/-- All that `MemWrite` can do (R52). -/
theorem State.memWrite_eq (s : State) (a n v : Nat) :
    s.memWrite a n v =
      if 1 ≤ n ∧ s.memSize < a + n then none else some (s.setMem (Memory.writeBytes s.mem a n v)) := by
  simp [State.memWrite, State.outOfWindow]

end Sys2Proof.Machine
end

