-- ==== Sys2Proof/Laws/Stream.lean ====
section
/-! SUPPORT. The laws of stream bits: what the bytes of a refill, a field of the stream and a list of bits have in common. -/

namespace Sys2Proof.Machine

@[simp] theorem bitOffOf_val {n : Nat} (h : n ≤ 64) : (bitOffOf n).val = n := by
  simp only [bitOffOf, Fin.ofNat]
  omega

@[simp] theorem widthOf_val {n : Nat} (h : n ≤ 56) : (widthOf n).val = n := by
  simp only [widthOf, Fin.ofNat]
  omega

/-! ## Fields of the stream -/

theorem Memory.streamBits_lt (m : Memory) (k n : Nat) : Memory.streamBits m k n < 2 ^ n := by
  induction n with
  | zero => simp [Memory.streamBits]
  | succ n ih =>
    have := (Memory.streamBit m (k + n)).toNat_lt
    simp only [Memory.streamBits, Nat.pow_succ]
    omega

/-- Bit `j` of `StreamBits(k, n)` is stream bit `k + n - 1 - j` (R10). -/
theorem Memory.testBit_streamBits (m : Memory) (k n j : Nat) :
    (Memory.streamBits m k n).testBit j = (decide (j < n) && Memory.streamBit m (k + n - 1 - j)) := by
  induction n generalizing j with
  | zero => simp [Memory.streamBits]
  | succ n ih =>
    simp only [Memory.streamBits]
    cases j with
    | zero =>
      cases h : Memory.streamBit m (k + n) <;> simp [h]
    | succ j =>
      have e : (2 * Memory.streamBits m k n + (Memory.streamBit m (k + n)).toNat) / 2 =
          Memory.streamBits m k n := by
        have := (Memory.streamBit m (k + n)).toNat_lt
        omega
      rw [Nat.testBit_succ, e, ih]
      have : k + (n + 1) - 1 - (j + 1) = k + n - 1 - j := by omega
      rw [this]
      simp

/-- Bit `j` of `n` bytes read at `a`, big-endian, is stream bit `8(a + n) - 1 - j` (R54). -/
theorem Memory.testBit_readBytes (m : Memory) (a n j : Nat) :
    (Memory.readBytes m a n).testBit j = (decide (j < 8 * n) && Memory.streamBit m (8 * (a + n) - 1 - j)) := by
  induction n generalizing j with
  | zero => simp [Memory.readBytes]
  | succ n ih =>
    have hb := (Memory.read m (a + n)).isLt
    simp only [Memory.readBytes]
    rw [show Memory.readBytes m a n * 256 = 2 ^ 8 * Memory.readBytes m a n by omega,
      Nat.testBit_two_pow_mul_add _ hb]
    by_cases h : j < 8
    · have h1 : (8 * (a + (n + 1)) - 1 - j) / 8 = a + n := by omega
      have h2 : 7 - (8 * (a + (n + 1)) - 1 - j) % 8 = j := by omega
      have h3 : j < 8 * (n + 1) := by omega
      simp [h, h3, Memory.streamBit, h1, h2, BitVec.testBit_toNat]
    · have h3 : (j - 8 < 8 * n) ↔ (j < 8 * (n + 1)) := by omega
      have h4 : 8 * (a + n) - 1 - (j - 8) = 8 * (a + (n + 1)) - 1 - j := by omega
      simp [h, ih, h3, h4]

/-- Stream bits depend only on the bytes of the buffer. -/
theorem Memory.streamBit_congr {m m' : Memory} {k : Nat} (h : Memory.read m (k / 8) = Memory.read m' (k / 8)) :
    Memory.streamBit m k = Memory.streamBit m' k := by simp [Memory.streamBit, h]

/-! ## Lists of bits -/

@[simp] theorem length_bitsOf (v n : Nat) : (bitsOf v n).length = n := by
  induction n generalizing v with
  | zero => rfl
  | succ n ih => simp [bitsOf, ih]

/-- Bit `j` of a field, from its most significant end (R74). -/
theorem getElem?_bitsOf (v n j : Nat) (h : j < n) : (bitsOf v n)[j]? = some (v.testBit (n - 1 - j)) := by
  induction n generalizing v with
  | zero => omega
  | succ n ih =>
    simp only [bitsOf]
    by_cases hj : j < n
    · rw [List.getElem?_append_left (by simpa using hj), ih _ hj]
      have : n + 1 - 1 - j = (n - 1 - j) + 1 := by omega
      rw [this, Nat.testBit_succ]
    · have : j = n := by omega
      subst this
      simp [Nat.testBit_zero]

@[simp] theorem length_golombItem (p d : Nat) : (golombItem p d).length = d / 2 ^ p + 1 + p := by
  simp [golombItem]
  omega

end Sys2Proof.Machine
end

