-- ==== Sys2Proof/Laws/Read.lean ====
section
/-! SUPPORT. All that the read-side micro-operations can do: R101 to R104, R32, R171, R175. -/

namespace Sys2Proof.Machine

@[simp] theorem Micro.andThen_done {α β : Type} (v : α) (s : State) (k : α → State → Micro β) :
    (Micro.done v s).andThen k = k v s := rfl

@[simp] theorem Micro.andThen_raised {α β : Type} (c : FaultCode) (s : State) (k : α → State → Micro β) :
    (Micro.raised c s).andThen k = .raised c s := rfl

@[simp] theorem Micro.finish_done {α : Type} (v : α) (s : State) (k : α → State → State) :
    (Micro.done v s).finish k = k v s := rfl

@[simp] theorem Micro.finish_raised {α : Type} (c : FaultCode) (s : State) (k : α → State → State) :
    (Micro.raised c s).finish k = raiseFault c s := rfl

theorem State.refillAddress_eq (s : State) : s.refillAddress = s.pos / 8 := by
  simp only [State.refillAddress, State.pos]
  omega

theorem State.pos_mod (s : State) : s.bitOff.val % 8 = s.pos % 8 := by
  simp only [State.pos]
  omega

/-- All that `U.REFILL` can do (R101): `F_BUS` with nothing changed, or the cursor at its position again. -/
theorem refill_eq (s : State) :
    refill s = if s.memSize < s.pos / 8 + 8 then .raised .bus s else .done () (s.afterRead s.pos 0) := by
  unfold refill
  rw [State.memRead_eq, State.refillAddress_eq]
  simp only [Config.windowBytes, State.pos_mod]
  by_cases h : s.memSize < s.pos / 8 + 8
  · simp [h]
  · simp only [h, and_false, if_false]
    rfl

/-- A field inside the 8 bytes of a refill is a field of the stream (R32, R54, R102). -/
theorem peek_afterRead (s : State) (k n : Nat) (hn : n ≤ 57) :
    peek n (s.afterRead k 0) = BitVec.ofNat 64 (Memory.streamBits s.mem k n) := by
  have hb : (bitOffOf (k % 8 + 0)).val = k % 8 := bitOffOf_val (by omega)
  apply BitVec.eq_of_getLsbD_eq
  intro j hj
  simp only [peek, State.afterRead, hb, BitVec.getLsbD_ushiftRight, BitVec.getLsbD_shiftLeft,
    BitVec.getLsbD_ofNat, Memory.testBit_readBytes, Memory.testBit_streamBits]
  by_cases hjn : j < n
  · have h1 : 64 - n + j < 64 := by omega
    have h2 : ¬ 64 - n + j < k % 8 := by omega
    have h3 : 64 - n + j - k % 8 < 64 := by omega
    have h4 : 8 * (k / 8 + 8) - 1 - (64 - n + j - k % 8) = k + n - 1 - j := by omega
    simp [hj, hjn, h1, h2, h3, h4]
  · have h1 : ¬ 64 - n + j < 64 := by omega
    simp [hjn, h1]

/-- All that `U.GETBITS` can do (R104, R32): `F_BUS` with nothing changed, or the field at the stream position
and the cursor past it. -/
theorem getBits_eq (s : State) {n : Nat} (hn : n ≤ 57) :
    getBits n s =
      if s.memSize < s.pos / 8 + 8 then .raised .bus s
      else .done (BitVec.ofNat 64 (Memory.streamBits s.mem s.pos n)) (s.afterRead s.pos n) := by
  unfold getBits
  rw [refill_eq]
  split
  · rfl
  · simp only [Micro.andThen_done, peek_afterRead s s.pos n hn]
    have hb : (bitOffOf (s.pos % 8)).val = s.pos % 8 := bitOffOf_val (by omega)
    simp [consume, State.afterRead, State.setBitOff, hb]

/-- The position after a read of `n` bits at `k` is `k + n` (R32). -/
theorem State.pos_afterRead (s : State) {k n : Nat} (hn : n ≤ 57) (hk : k / 8 < 2 ^ 64) :
    (s.afterRead k n).pos = k + n := by
  have hb : (bitOffOf (k % 8 + n)).val = k % 8 + n := bitOffOf_val (by omega)
  simp only [State.pos, State.afterRead, hb, BitVec.toNat_ofNat, Nat.mod_eq_of_lt hk]
  omega

@[simp] theorem State.afterRead_afterRead (s : State) (k n k' n' : Nat) :
    (s.afterRead k n).afterRead k' n' = s.afterRead k' n' := rfl

@[simp] theorem State.afterRead_mem (s : State) (k n : Nat) : (s.afterRead k n).mem = s.mem := rfl
@[simp] theorem State.afterRead_memSize (s : State) (k n : Nat) : (s.afterRead k n).memSize = s.memSize := rfl
@[simp] theorem State.afterRead_acc (s : State) (k n : Nat) : (s.afterRead k n).acc = s.acc := rfl
@[simp] theorem State.afterRead_p (s : State) (k n : Nat) : (s.afterRead k n).p = s.p := rfl
@[simp] theorem State.afterRead_cap (s : State) (k n : Nat) : (s.afterRead k n).cap = s.cap := rfl
@[simp] theorem State.afterRead_mode (s : State) (k n : Nat) : (s.afterRead k n).mode = s.mode := rfl
@[simp] theorem State.afterRead_fault (s : State) (k n : Nat) : (s.afterRead k n).fault = s.fault := rfl
@[simp] theorem State.afterRead_inputs (s : State) (k n : Nat) : (s.afterRead k n).inputs = s.inputs := rfl
@[simp] theorem State.afterRead_resp (s : State) (k n : Nat) : (s.afterRead k n).resp = s.resp := rfl

/-- One read of the unary loop (R171). -/
theorem readUnaryFuel_succ (fuel q : Nat) (s : State) :
    readUnaryFuel (fuel + 1) q s =
      if s.memSize < s.pos / 8 + 8 then .raised .bus s
      else if Memory.streamBit s.mem s.pos then readUnaryFuel fuel (q + 1) (s.afterRead s.pos 1)
      else .done q (s.afterRead s.pos 1) := by
  rw [readUnaryFuel, getBits_eq s (by omega)]
  split
  · rfl
  · simp only [Micro.andThen_done, Memory.streamBits, Nat.mul_zero, Nat.zero_add, Nat.add_zero]
    cases Memory.streamBit s.mem s.pos <;> simp

/-- With fuel for every read that can succeed the loop does not depend on the fuel (R175). -/
theorem readUnaryFuel_enough (fuel extra q : Nat) (s : State) (hw : s.memSize ≤ 2 ^ 60)
    (h : 8 * s.memSize ≤ fuel + s.pos) : readUnaryFuel (fuel + extra) q s = readUnaryFuel fuel q s := by
  induction fuel generalizing q s with
  | zero =>
    cases extra with
    | zero => rfl
    | succ e =>
      rw [Nat.zero_add, readUnaryFuel_succ, if_pos (by omega)]
      rfl
  | succ f ih =>
    rw [show f + 1 + extra = (f + extra) + 1 by omega, readUnaryFuel_succ, readUnaryFuel_succ]
    by_cases hb : s.memSize < s.pos / 8 + 8
    · simp [hb]
    · have hp : (s.afterRead s.pos 1).pos = s.pos + 1 := State.pos_afterRead s (by omega) (by omega)
      rw [ih (q + 1) (s.afterRead s.pos 1) hw (by rw [hp]; simp; omega)]

/-- The unary run is found where the stream has it (R171): `q` ones from the position, then a zero. -/
theorem readUnaryFuel_run (fuel q0 q : Nat) (s : State) (hw : s.memSize ≤ 2 ^ 60)
    (hf : q < fuel) (hones : ∀ j < q, Memory.streamBit s.mem (s.pos + j) = true)
    (hzero : Memory.streamBit s.mem (s.pos + q) = false) (hin : (s.pos + q) / 8 + 8 ≤ s.memSize) :
    readUnaryFuel fuel q0 s = .done (q0 + q) (s.afterRead (s.pos + q) 1) := by
  induction q generalizing fuel q0 s with
  | zero =>
    obtain ⟨f, rfl⟩ : ∃ f, fuel = f + 1 := ⟨fuel - 1, by omega⟩
    simp only [Nat.add_zero] at hzero hin ⊢
    rw [readUnaryFuel_succ, if_neg (by omega), hzero]
    simp
  | succ q ih =>
    obtain ⟨f, rfl⟩ : ∃ f, fuel = f + 1 := ⟨fuel - 1, by omega⟩
    have h0 : Memory.streamBit s.mem s.pos = true := hones 0 (by omega)
    have hp : (s.afterRead s.pos 1).pos = s.pos + 1 := State.pos_afterRead s (by omega) (by omega)
    rw [readUnaryFuel_succ, if_neg (by omega), h0, if_pos rfl,
      ih f (q0 + 1) (s.afterRead s.pos 1) hw (by omega) ?_ ?_ ?_, hp]
    · rw [State.afterRead_afterRead, show q0 + 1 + q = q0 + (q + 1) by omega,
        show s.pos + 1 + q = s.pos + (q + 1) by omega]
    · intro j hj
      rw [hp, State.afterRead_mem, show s.pos + 1 + j = s.pos + (j + 1) by omega]
      exact hones _ (by omega)
    · rw [hp, State.afterRead_mem, show s.pos + 1 + q = s.pos + (q + 1) by omega]
      exact hzero
    · rw [hp, State.afterRead_memSize, show s.pos + 1 + q = s.pos + (q + 1) by omega]
      exact hin

/-- `DECG`'s loop on a run of ones that ends inside the window (R171). -/
theorem readUnary_run (q : Nat) (s : State) (hw : s.memSize ≤ 2 ^ 60)
    (hones : ∀ j < q, Memory.streamBit s.mem (s.pos + j) = true)
    (hzero : Memory.streamBit s.mem (s.pos + q) = false) (hin : (s.pos + q) / 8 + 8 ≤ s.memSize) :
    readUnary s = .done q (s.afterRead (s.pos + q) 1) := by
  have := readUnaryFuel_run (8 * s.memSize) 0 q s hw (by omega) hones hzero hin
  rwa [Nat.zero_add] at this

/-- `DECG`'s loop on ones up to the last bit that can be read (R175): `F_BUS`, the cursor after that bit. -/
theorem readUnaryFuel_overrun (fuel q : Nat) (s : State) (hw : s.memSize ≤ 2 ^ 60)
    (hf : 8 * s.memSize ≤ fuel + s.pos + 56) (hs : s.pos / 8 + 8 ≤ s.memSize) (hfuel : 0 < fuel)
    (hones : ∀ k, s.pos ≤ k → k / 8 + 8 ≤ s.memSize → Memory.streamBit s.mem k = true) :
    readUnaryFuel fuel q s = .raised .bus (s.afterRead (8 * s.memSize - 57) 1) := by
  induction fuel generalizing q s with
  | zero => omega
  | succ f ih =>
    have hp : (s.afterRead s.pos 1).pos = s.pos + 1 := State.pos_afterRead s (by omega) (by omega)
    rw [readUnaryFuel_succ, if_neg (by omega), hones _ (by omega) (by omega), if_pos rfl]
    by_cases hnext : (s.pos + 1) / 8 + 8 ≤ s.memSize
    · rw [ih (q + 1) (s.afterRead s.pos 1) hw (by rw [hp]; simp; omega) (by rw [hp]; simpa using hnext)
        (by omega) (fun k hk h => by rw [hp] at hk; exact hones k (by omega) h)]
      simp
    · have hk : s.pos = 8 * s.memSize - 57 := by omega
      cases f with
      | zero => simp only [readUnaryFuel]; rw [← hk]
      | succ f =>
        rw [readUnaryFuel_succ, if_pos (by rw [hp]; simp; omega), ← hk]

/-- A run of ones from the position to the end of what can be read ends in `F_BUS` (R175). -/
theorem readUnary_overrun (s : State) (hw : s.memSize ≤ 2 ^ 60) (hs : s.pos / 8 + 8 ≤ s.memSize)
    (hones : ∀ k, s.pos ≤ k → k / 8 + 8 ≤ s.memSize → Memory.streamBit s.mem k = true) :
    readUnary s = .raised .bus (s.afterRead (8 * s.memSize - 57) 1) :=
  readUnaryFuel_overrun _ 0 s hw (by omega) hs (by omega) hones

end Sys2Proof.Machine
end

