-- ==== Sys2Proof/Laws/Write.lean ====
section
/-! SUPPORT. All that the write-side micro-operations can do: R121 to R124, R33, R144. -/

namespace Sys2Proof.Machine

theorem SameControl.refl (s : State) : SameControl s s := ⟨rfl, rfl, rfl, rfl, rfl, rfl, rfl, rfl⟩

theorem SameControl.trans {s t u : State} (h : SameControl s t) (k : SameControl t u) : SameControl s u :=
  ⟨k.acc.trans h.acc, k.p.trans h.p, k.cap.trans h.cap, k.mode.trans h.mode, k.fault.trans h.fault,
    k.memSize.trans h.memSize, k.inputs.trans h.inputs, k.resp.trans h.resp⟩

/-! ## The drain -/

/-- All that `U.REFILLW` can do (R121): `F_CURSOR`, then `F_BUS`, both with nothing changed, or the drain. -/
theorem refillW_eq (s : State) :
    refillW s =
      if 64 ≤ s.bitOff.val then .raised .cursor s
      else if 1 ≤ s.bitOff.val / 8 ∧ s.memSize < s.byteOff.toNat + s.bitOff.val / 8 then .raised .bus s
      else .done () s.drained := by
  unfold refillW
  rw [State.memWrite_eq]
  by_cases h1 : 64 ≤ s.bitOff.val
  · simp only [h1, if_true]
  · by_cases h2 : 1 ≤ s.bitOff.val / 8 ∧ s.memSize < s.byteOff.toNat + s.bitOff.val / 8
    · simp only [h1, h2, and_self, if_true, if_false]
    · simp only [h1, h2, if_false]
      rfl

theorem State.drained_bitOff (s : State) : s.drained.bitOff.val = s.bitOff.val % 8 :=
  bitOffOf_val (by omega)

theorem State.drained_byteOff (s : State) (h : s.byteOff.toNat + s.bitOff.val / 8 < 2 ^ 64) :
    s.drained.byteOff.toNat = s.byteOff.toNat + s.bitOff.val / 8 := by
  simp only [State.drained, BitVec.toNat_ofNat, Nat.mod_eq_of_lt h]

/-- A drain moves no stream position (R121). -/
theorem State.drained_pos (s : State) (h : s.byteOff.toNat + s.bitOff.val / 8 < 2 ^ 64) :
    s.drained.pos = s.pos := by
  simp only [State.pos, s.drained_bitOff, s.drained_byteOff h]
  omega

theorem State.drained_control (s : State) : SameControl s s.drained := ⟨rfl, rfl, rfl, rfl, rfl, rfl, rfl, rfl⟩

theorem State.drained_wf (s : State) (hm : Memory.wf s.mem) : Memory.wf s.drained.mem :=
  Memory.writeBytes_wf hm _ _ _

/-- The byte a drain leaves at an offset: byte `i` of `LOOKAHEAD`, from the top, at `BYTEOFF + i` (R121). -/
theorem State.read_drained (s : State) (hm : Memory.wf s.mem) (hb : s.bitOff.val ≤ 63) (a : Nat) :
    Memory.read s.drained.mem a =
      if s.byteOff.toNat ≤ a ∧ a < s.byteOff.toNat + s.bitOff.val / 8 then
        BitVec.ofNat 8 (s.lookahead.toNat / 2 ^ (56 - 8 * (a - s.byteOff.toNat)))
      else Memory.read s.mem a := by
  simp only [State.drained]
  rw [Memory.read_writeBytes hm]
  by_cases h : s.byteOff.toNat ≤ a ∧ a < s.byteOff.toNat + s.bitOff.val / 8
  · simp only [h, and_self, if_true]
    rw [Nat.div_div_eq_div_mul, show (256 : Nat) = 2 ^ 8 by rfl, ← Nat.pow_mul, ← Nat.pow_add]
    congr 4
    omega
  · simp only [h, if_false]

/-- A drain changes no bit of the output (R33). -/
theorem State.drained_outBit (s : State) (hm : Memory.wf s.mem) (hb : s.bitOff.val ≤ 63)
    (h : s.byteOff.toNat + s.bitOff.val / 8 < 2 ^ 64) {k : Nat} (hk : k < 8 * s.byteOff.toNat + 64) :
    s.drained.outBit k = s.outBit k := by
  simp only [State.outBit, s.drained_byteOff h]
  by_cases h1 : k < 8 * s.byteOff.toNat
  · rw [if_pos (by omega), if_pos h1]
    apply Memory.streamBit_congr
    rw [s.read_drained hm hb, if_neg (by omega)]
  · rw [if_neg h1]
    by_cases h2 : k < 8 * (s.byteOff.toNat + s.bitOff.val / 8)
    · rw [if_pos h2]
      simp only [Memory.streamBit]
      rw [s.read_drained hm hb, if_pos (by omega)]
      have e : 7 - k % 8 + (56 - 8 * (k / 8 - s.byteOff.toNat)) = 63 - (k - 8 * s.byteOff.toNat) := by omega
      have h7 : 7 - k % 8 < 8 := by omega
      simp only [BitVec.getLsbD_ofNat, h7, decide_true, Bool.true_and]
      rw [Nat.testBit_div_two_pow, e, BitVec.testBit_toNat]
    · rw [if_neg h2]
      have h3 : 63 - (k - 8 * (s.byteOff.toNat + s.bitOff.val / 8)) < 64 := by omega
      have h4 : ¬ 63 - (k - 8 * (s.byteOff.toNat + s.bitOff.val / 8)) < 8 * (s.bitOff.val / 8) := by omega
      have e : 63 - (k - 8 * (s.byteOff.toNat + s.bitOff.val / 8)) - 8 * (s.bitOff.val / 8) =
          63 - (k - 8 * s.byteOff.toNat) := by omega
      simp only [State.drained, BitVec.getLsbD_shiftLeft, h3, h4, e, decide_true, decide_false, Bool.not_false,
        Bool.true_and]

/-- The clean condition, bit by bit (R33). -/
theorem clean_iff (s : State) :
    Clean s ↔ s.bitOff.val ≤ 63 ∧ ∀ j, j < 64 - s.bitOff.val → s.lookahead.getLsbD j = false := by
  refine and_congr_right fun _ => ⟨fun h j hj => ?_, fun h => ?_⟩
  · have := congrArg (fun x => x.testBit j) h
    simp only [Nat.testBit_mod_two_pow, hj, decide_true, Bool.true_and, Nat.zero_testBit] at this
    rwa [← BitVec.testBit_toNat]
  · apply Nat.eq_of_testBit_eq
    intro j
    simp only [Nat.testBit_mod_two_pow, Nat.zero_testBit]
    by_cases hj : j < 64 - s.bitOff.val
    · simp [hj, BitVec.testBit_toNat, h j hj]
    · simp [hj]

/-- A drain keeps a cursor clean (R33). -/
theorem State.drained_clean (s : State) (h : Clean s) : Clean s.drained := by
  rw [clean_iff] at h ⊢
  rw [s.drained_bitOff]
  refine ⟨by omega, fun j hj => ?_⟩
  simp only [State.drained, BitVec.getLsbD_shiftLeft]
  by_cases h1 : j < 8 * (s.bitOff.val / 8)
  · simp [h1]
  · simp [h1, h.2 (j - 8 * (s.bitOff.val / 8)) (by omega)]

/-! ## Putting bits -/

/-- The state after `U.PUTBITS(value, count)` where it does not fault (R123). -/
def putState (v : Word) (n : Nat) (s : State) : State := consume n (writeBits v n s.drained)

/-- All that `U.PUTBITS` can do (R123). -/
theorem putBits_eq (v : Word) (n : Nat) (s : State) :
    putBits v n s =
      if 64 ≤ s.bitOff.val then .raised .cursor s
      else if 1 ≤ s.bitOff.val / 8 ∧ s.memSize < s.byteOff.toNat + s.bitOff.val / 8 then .raised .bus s
      else .done () (putState v n s) := by
  unfold putBits
  rw [refillW_eq]
  split
  · rfl
  · split <;> rfl

theorem putState_control (v : Word) (n : Nat) (s : State) : SameControl s (putState v n s) :=
  ⟨rfl, rfl, rfl, rfl, rfl, rfl, rfl, rfl⟩

theorem putState_mem (v : Word) (n : Nat) (s : State) : (putState v n s).mem = s.drained.mem := rfl

theorem putState_bitOff (v : Word) {n : Nat} (s : State) (hn : n ≤ 56) :
    (putState v n s).bitOff.val = s.pos % 8 + n := by
  have h : (putState v n s).bitOff.val = (bitOffOf (s.drained.bitOff.val + n)).val := rfl
  rw [h, s.drained_bitOff, bitOffOf_val (by omega), s.pos_mod]

theorem putState_byteOff (v : Word) (n : Nat) (s : State)
    (h : s.byteOff.toNat + s.bitOff.val / 8 < 2 ^ 64) : (putState v n s).byteOff.toNat = s.pos / 8 := by
  have e : (putState v n s).byteOff = s.drained.byteOff := rfl
  rw [e, s.drained_byteOff h]
  simp only [State.pos]
  omega

theorem putState_lookahead (v : Word) (n : Nat) (s : State) :
    (putState v n s).lookahead = s.drained.lookahead ||| ((v <<< (64 - n)) >>> (s.bitOff.val % 8)) := by
  rw [← s.drained_bitOff]
  rfl

/-- Where the bits of an in-range value land in `LOOKAHEAD` (R122). -/
theorem getLsbD_placed {v : Word} {n b i : Nat} (hn1 : 1 ≤ n) (hn : n ≤ 56) (hb : b ≤ 7) :
    ((v <<< (64 - n)) >>> b).getLsbD i =
      (decide (64 - n - b ≤ i ∧ i < 64 - b) && v.getLsbD (i + b - (64 - n))) := by
  simp only [BitVec.getLsbD_ushiftRight, BitVec.getLsbD_shiftLeft, Nat.add_comm b i]
  by_cases h1 : 64 - n - b ≤ i ∧ i < 64 - b
  · have h2 : i + b < 64 := by omega
    have h3 : ¬ i + b < 64 - n := by omega
    simp only [h1, h2, h3, and_self, decide_true, decide_false, Bool.not_false, Bool.true_and]
  · simp only [h1, decide_false, Bool.false_and]
    by_cases h2 : i + b < 64
    · have h3 : i + b < 64 - n := by omega
      simp [h3]
    · simp [h2]

/-- Putting a value on a clean cursor appends its low `count` bits, most significant first (R33, R123). -/
theorem putState_extends {v : Word} {n : Nat} {s : State} (hm : Memory.wf s.mem) (hc : Clean s)
    (hn1 : 1 ≤ n) (hn : n ≤ 56)
    (hlt : s.byteOff.toNat + s.bitOff.val / 8 < 2 ^ 64) :
    OutputExtends s (putState v n s) (bitsOf v.toNat n) := by
  have hbo := putState_bitOff v s hn
  have hby := putState_byteOff v n s hlt
  have hdby := s.drained_byteOff hlt
  have hdc := (clean_iff _).1 (s.drained_clean hc)
  have hdb := s.drained_bitOff
  have hpm := s.pos_mod
  have hposdef : s.pos = 8 * s.byteOff.toNat + s.bitOff.val := rfl
  have hpos : (putState v n s).pos = s.pos + n := by
    simp only [State.pos, hbo, hby]
    omega
  have hout : ∀ k, k < s.pos + n → (putState v n s).outBit k =
      if k < s.pos then s.outBit k else v.getLsbD (n - 1 - (k - s.pos)) := by
    intro k hk
    have hold : k < s.pos → s.outBit k = s.drained.outBit k := fun h =>
      (s.drained_outBit hm hc.1 hlt (by have := hc.1; omega)).symm
    have hdef : (putState v n s).outBit k =
        if k < 8 * s.drained.byteOff.toNat then Memory.streamBit s.drained.mem k
        else (s.drained.lookahead ||| ((v <<< (64 - n)) >>> (s.bitOff.val % 8))).getLsbD
          (63 - (k - 8 * s.drained.byteOff.toNat)) := by
      rw [← putState_lookahead]
      rfl
    rw [hdef, hdby]
    by_cases h1 : k < 8 * (s.byteOff.toNat + s.bitOff.val / 8)
    · have h2 : k < s.pos := by omega
      rw [if_pos h1, if_pos h2, hold h2, State.outBit, hdby, if_pos h1]
    · rw [if_neg h1, BitVec.getLsbD_or, getLsbD_placed hn1 hn (by omega)]
      by_cases h2 : k < s.pos
      · rw [if_pos h2, hold h2, State.outBit, hdby, if_neg h1]
        have h3 : ¬ (64 - n - s.bitOff.val % 8 ≤ 63 - (k - 8 * (s.byteOff.toNat + s.bitOff.val / 8)) ∧
          63 - (k - 8 * (s.byteOff.toNat + s.bitOff.val / 8)) < 64 - s.bitOff.val % 8) := by omega
        simp only [h3, decide_false, Bool.false_and, Bool.or_false]
      · rw [if_neg h2]
        have h3 : 64 - n - s.bitOff.val % 8 ≤ 63 - (k - 8 * (s.byteOff.toNat + s.bitOff.val / 8)) ∧
          63 - (k - 8 * (s.byteOff.toNat + s.bitOff.val / 8)) < 64 - s.bitOff.val % 8 := by omega
        have e : 63 - (k - 8 * (s.byteOff.toNat + s.bitOff.val / 8)) + s.bitOff.val % 8 - (64 - n) =
          n - 1 - (k - s.pos) := by omega
        rw [hdc.2 _ (by rw [hdb]; exact h3.2)]
        simp only [h3, and_self, decide_true, Bool.true_and, Bool.false_or, e]
  refine ⟨by rw [hpos, length_bitsOf], fun k hk => ?_, fun j hj => ?_, ?_, ?_, fun a ha => ?_⟩
  · rw [hout k (by omega), if_pos hk]
  · rw [length_bitsOf] at hj
    rw [getElem?_bitsOf _ _ _ hj, hout _ (by omega), if_neg (by omega), Nat.add_sub_cancel_left,
      BitVec.testBit_toNat]
  · rw [clean_iff, hbo]
    refine ⟨by omega, fun j hj => ?_⟩
    rw [putState_lookahead, BitVec.getLsbD_or, getLsbD_placed hn1 hn (by omega),
      hdc.2 j (by rw [hdb]; omega)]
    have h3 : ¬ (64 - n - s.bitOff.val % 8 ≤ j ∧ j < 64 - s.bitOff.val % 8) := by omega
    simp only [h3, decide_false, Bool.false_and, Bool.or_false]
  · rw [hby]; omega
  · rw [putState_mem, s.read_drained hm hc.1, if_neg (by rw [hby] at ha; omega)]

end Sys2Proof.Machine
end

