-- ==== Sys2Proof/Laws/Items.lean ====
section
/-! SUPPORT. All that a run of puts can do: the unary ones, a whole Golomb-Rice item, the final drain (R124, R143, R144, R148). -/

namespace Sys2Proof.Machine

theorem OutputExtends.refl {s : State} (hc : Clean s) : OutputExtends s s [] :=
  ⟨rfl, fun _ _ => rfl, fun _ h => absurd h (by simp), hc, le_rfl, fun _ _ => rfl⟩

/-- Output goes on where it stopped. -/
theorem OutputExtends.trans {s t u : State} {xs ys : List Bool} (h : OutputExtends s t xs)
    (k : OutputExtends t u ys) : OutputExtends s u (xs ++ ys) := by
  have hp := h.pos
  refine ⟨by rw [k.pos, hp, List.length_append, Nat.add_assoc], fun i hi => ?_, fun j hj => ?_, k.clean,
    h.rises.trans k.rises, fun a ha => ?_⟩
  · rw [k.earlier i (by omega), h.earlier i hi]
  · by_cases hx : j < xs.length
    · rw [List.getElem?_append_left hx, h.appended j hx, k.earlier _ (by omega)]
    · rw [List.length_append] at hj
      rw [List.getElem?_append_right (by omega), k.appended (j - xs.length) (by omega), hp]
      congr 2
      omega
  · have := h.rises
    have := k.rises
    rw [k.elsewhere a (by omega), h.elsewhere a (by omega)]

/-- What the rules of a write pass keep between two puts: the buffer in form and inside the window, a clean
cursor, the output inside the window. -/
structure Ready (s : State) : Prop where
  window : s.memSize ≤ 2 ^ 60
  form : Memory.wf s.mem
  inside : ∀ c ∈ s.mem, c.1 < s.memSize
  clean : Clean s
  offset : s.byteOff.toNat ≤ s.memSize

/-- A put whose drain stays in the window (R123). -/
theorem putBits_ready {v : Word} {n : Nat} {s : State} (h : Ready s) (hn1 : 1 ≤ n) (hn : n ≤ 56)
    (hin : s.pos / 8 ≤ s.memSize) :
    putBits v n s = .done () (putState v n s) ∧ OutputExtends s (putState v n s) (bitsOf v.toNat n) ∧
      SameControl s (putState v n s) ∧ Ready (putState v n s) ∧
      (putState v n s).byteOff.toNat = s.pos / 8 ∧ (putState v n s).bitOff.val = s.pos % 8 + n := by
  have hposdef : s.pos = 8 * s.byteOff.toNat + s.bitOff.val := rfl
  have hbo := h.clean.1
  have hw := h.window
  have hoff := h.offset
  have hlt : s.byteOff.toNat + s.bitOff.val / 8 < 2 ^ 64 := by omega
  have hby := putState_byteOff v n s hlt
  have hext := putState_extends (v := v) h.form h.clean hn1 hn hlt
  refine ⟨?_, hext, putState_control v n s, ⟨hw, s.drained_wf h.form, fun c hc => ?_, hext.clean, ?_⟩, hby,
    putState_bitOff v s hn⟩
  · rw [putBits_eq, if_neg (by omega), if_neg (by omega)]
  · have hc' : c ∈ Memory.writeBytes s.mem s.byteOff.toNat (s.bitOff.val / 8)
        (s.lookahead.toNat / 2 ^ (64 - 8 * (s.bitOff.val / 8))) := hc
    show c.1 < s.memSize
    rcases Memory.mem_writeBytes hc' with h1 | h1
    · exact h.inside c h1
    · omega
  · show (putState v n s).byteOff.toNat ≤ s.memSize
    omega

/-- A put whose drain would pass the window (R52, R123). -/
theorem putBits_overrun {v : Word} {n : Nat} {s : State} (hc : s.bitOff.val ≤ 63)
    (hoff : s.byteOff.toNat ≤ s.memSize) (hout : s.memSize < s.pos / 8) :
    putBits v n s = .raised .bus s := by
  have hposdef : s.pos = 8 * s.byteOff.toNat + s.bitOff.val := rfl
  rw [putBits_eq, if_neg (by omega), if_pos (by omega)]

/-- The unary ones, where every drain stays in the window (R143). -/
theorem putOnes_ready (q : Nat) {s : State} (h : Ready s) (hin : q = 0 ∨ (s.pos + q - 1) / 8 ≤ s.memSize) :
    ∃ t, putOnes q s = .done () t ∧ OutputExtends s t (List.replicate q true) ∧ SameControl s t ∧ Ready t := by
  induction q generalizing s with
  | zero => exact ⟨s, rfl, OutputExtends.refl h.clean, SameControl.refl s, h⟩
  | succ q ih =>
    have hin' : (s.pos + q) / 8 ≤ s.memSize := by
      rcases hin with hin | hin
      · omega
      · simpa using hin
    obtain ⟨he, hext, hctl, hrdy, -, -⟩ :=
      putBits_ready (v := 1#64) (n := 1) h (by omega) (by omega) (by omega)
    have hp : (putState 1#64 1 s).pos = s.pos + 1 := by rw [hext.pos]; simp
    have hms : (putState 1#64 1 s).memSize = s.memSize := hctl.memSize
    obtain ⟨t, ht, htx, htc, htr⟩ := ih hrdy (by rw [hp, hms]; omega)
    refine ⟨t, ?_, ?_, hctl.trans htc, htr⟩
    · rw [putOnes, he, Micro.andThen_done, ht]
    · have := hext.trans htx
      simpa [bitsOf, List.replicate_succ] using this

/-- The unary ones, where some drain would pass the window (R144): the first put faults with nothing changed,
or the run stops with the window full and eight bits queued. -/
theorem putOnes_overrun (q : Nat) {s : State} (h : Ready s) (hq : 0 < q)
    (hout : s.memSize < (s.pos + q - 1) / 8) :
    ∃ u, putOnes q s = .raised .bus u ∧ SameControl s u ∧ Ready u ∧
      (s.memSize < s.pos / 8 ∧ u = s ∨
        s.pos / 8 ≤ s.memSize ∧ u.byteOff.toNat = s.memSize ∧ u.bitOff.val = 8 ∧
          OutputExtends s u (List.replicate (8 * s.memSize + 8 - s.pos) true)) := by
  induction q generalizing s with
  | zero => omega
  | succ q ih =>
    by_cases h0 : s.memSize < s.pos / 8
    · refine ⟨s, ?_, SameControl.refl s, h, .inl ⟨h0, rfl⟩⟩
      rw [putOnes, putBits_overrun h.clean.1 h.offset h0, Micro.andThen_raised]
    · obtain ⟨he, hext, hctl, hrdy, hby, hbo⟩ :=
        putBits_ready (v := 1#64) (n := 1) h (by omega) (by omega) (by omega)
      have hp : (putState 1#64 1 s).pos = s.pos + 1 := by rw [hext.pos]; simp
      have hms : (putState 1#64 1 s).memSize = s.memSize := hctl.memSize
      have hbit : bitsOf (1#64 : Word).toNat 1 = [true] := rfl
      obtain ⟨u, hu, huc, hur, hcase⟩ := ih hrdy (by omega) (by rw [hp, hms]; omega)
      refine ⟨u, by rw [putOnes, he, Micro.andThen_done, hu], hctl.trans huc, hur, .inr ⟨by omega, ?_⟩⟩
      rw [hp, hms] at hcase
      rcases hcase with ⟨h1, rfl⟩ | ⟨h1, h2, h3, h4⟩
      · have hpos : s.pos = 8 * s.memSize + 7 := by omega
        refine ⟨by omega, by omega, ?_⟩
        rw [hpos, show 8 * s.memSize + 8 - (8 * s.memSize + 7) = 1 by omega]
        rw [hbit] at hext
        exact hext
      · refine ⟨h2, h3, ?_⟩
        have := hext.trans h4
        rw [hbit] at this
        have hs : 8 * s.memSize + 8 - s.pos = (8 * s.memSize + 8 - (s.pos + 1)) + 1 := by omega
        rw [hs, List.replicate_succ]
        exact this

theorem remainderOf_toNat (d : Word) {p : Nat} (hp : p ≤ 56) : (remainderOf d p).toNat = d.toNat % 2 ^ p := by
  have h2 : 2 ^ p - 1 < 2 ^ 64 := by
    have : 2 ^ p ≤ 2 ^ 56 := Nat.pow_le_pow_right (by omega) hp
    omega
  simp only [remainderOf, BitVec.toNat_and, BitVec.toNat_ofNat, Nat.mod_eq_of_lt h2]
  exact Nat.and_two_pow_sub_one_eq_mod _ _

theorem quotientOf_eq (d : Word) (p : Nat) : quotientOf d p = d.toNat / 2 ^ p := by
  simp [quotientOf, Nat.shiftRight_eq_div_pow]

/-- A whole item inside the window (R143, R144): its bits are appended and the cursor is as after the last put. -/
theorem putItem_ready (d : Word) {p : Nat} {s : State} (h : Ready s) (hp1 : 1 ≤ p) (hp : p ≤ 56)
    (hin : (s.pos + d.toNat / 2 ^ p + 1) / 8 ≤ s.memSize) :
    ∃ t, putItem d p s = .done () t ∧ OutputExtends s t (golombItem p d.toNat) ∧ SameControl s t ∧ Ready t ∧
      t.byteOff.toNat = (s.pos + d.toNat / 2 ^ p + 1) / 8 ∧
      t.bitOff.val = (s.pos + d.toNat / 2 ^ p + 1) % 8 + p := by
  obtain ⟨t1, h1, x1, c1, r1⟩ := putOnes_ready (d.toNat / 2 ^ p) h (by omega)
  have p1 : t1.pos = s.pos + d.toNat / 2 ^ p := by rw [x1.pos]; simp
  obtain ⟨h2, x2, c2, r2, -, -⟩ :=
    putBits_ready (v := 0#64) (n := 1) r1 (by omega) (by omega) (by rw [p1, c1.memSize]; omega)
  have p2 : (putState 0#64 1 t1).pos = s.pos + d.toNat / 2 ^ p + 1 := by rw [x2.pos, p1]; simp
  have hr : (remainderOf d p).toNat = d.toNat % 2 ^ p := remainderOf_toNat d hp
  obtain ⟨h3, x3, c3, r3, b3, o3⟩ :=
    putBits_ready (v := remainderOf d p) (n := p) r2 hp1 hp (by rw [p2, c2.memSize, c1.memSize]; omega)
  refine ⟨_, ?_, ?_, (c1.trans c2).trans c3, r3, by rw [b3, p2], by rw [o3, p2]⟩
  · rw [putItem, quotientOf_eq, h1, Micro.andThen_done, h2, Micro.andThen_done, h3]
  · have := (x1.trans x2).trans x3
    rw [hr] at this
    simpa [golombItem, bitsOf] using this

/-- An item that would pass the window (R144): the first drain that would pass it faults, and the puts before
it stay done. -/
theorem putItem_overrun (d : Word) {p : Nat} {s : State} (h : Ready s)
    (hout : s.memSize < (s.pos + d.toNat / 2 ^ p + 1) / 8) :
    ∃ u, putItem d p s = .raised .bus u ∧ SameControl s u ∧ Ready u ∧
      (s.memSize < s.pos / 8 ∧ u = s ∨
        s.pos / 8 ≤ s.memSize ∧ u.byteOff.toNat = s.memSize ∧ u.bitOff.val = 8 ∧
          ∃ bits, bits <+: golombItem p d.toNat ∧ OutputExtends s u bits) := by
  rcases Nat.eq_zero_or_pos (d.toNat / 2 ^ p) with hq | hq
  · rw [hq] at hout
    by_cases h0 : s.memSize < s.pos / 8
    · refine ⟨s, ?_, SameControl.refl s, h, .inl ⟨h0, rfl⟩⟩
      rw [putItem, quotientOf_eq, hq, putOnes, Micro.andThen_done,
        putBits_overrun h.clean.1 h.offset h0, Micro.andThen_raised]
    · obtain ⟨h2, x2, c2, r2, b2, o2⟩ :=
        putBits_ready (v := 0#64) (n := 1) h (by omega) (by omega) (by omega)
      have p2 : (putState 0#64 1 s).pos = s.pos + 1 := by rw [x2.pos]; simp
      refine ⟨putState 0#64 1 s, ?_, c2, r2, .inr ⟨by omega, by omega, by omega, _, ?_, x2⟩⟩
      · rw [putItem, quotientOf_eq, hq, putOnes, Micro.andThen_done, h2, Micro.andThen_done,
          putBits_overrun r2.clean.1 r2.offset (by rw [p2, c2.memSize]; omega)]
      · simp [golombItem, hq, bitsOf]
  · by_cases h1 : s.memSize < (s.pos + d.toNat / 2 ^ p - 1) / 8
    · obtain ⟨u, hu, huc, hur, hcase⟩ := putOnes_overrun _ h hq h1
      refine ⟨u, by rw [putItem, quotientOf_eq, hu, Micro.andThen_raised], huc, hur, ?_⟩
      refine hcase.imp id fun ⟨k1, k2, k3, k4⟩ => ⟨k1, k2, k3, _, ?_, k4⟩
      have hle : 8 * s.memSize + 8 - s.pos ≤ d.toNat / 2 ^ p := by omega
      refine List.IsPrefix.trans ?_ (List.prefix_append _ _)
      rw [← Nat.add_sub_cancel' hle, List.replicate_add]
      exact List.prefix_append _ _
    · obtain ⟨t1, g1, x1, c1, r1⟩ := putOnes_ready (d.toNat / 2 ^ p) h (by omega)
      have p1 : t1.pos = s.pos + d.toNat / 2 ^ p := by rw [x1.pos]; simp
      have hstart : s.pos / 8 ≤ s.memSize := by omega
      by_cases h2 : s.memSize < (s.pos + d.toNat / 2 ^ p) / 8
      · have hb1 : t1.pos = 8 * t1.byteOff.toNat + t1.bitOff.val := rfl
        obtain ⟨q', hq'⟩ : ∃ q', d.toNat / 2 ^ p = q' + 1 := ⟨d.toNat / 2 ^ p - 1, by omega⟩
        obtain ⟨t0, g0, x0, c0, r0⟩ := putOnes_ready q' h (by omega)
        have p0 : t0.pos = s.pos + q' := by rw [x0.pos]; simp
        have hsplit : putOnes (q' + 1) s = putBits 1#64 1 t0 := by
          clear * - g0
          induction q' generalizing s with
          | zero =>
            simp only [putOnes, Micro.done.injEq, true_and] at g0
            subst g0
            simp only [putOnes]
            cases putBits 1#64 1 s <;> rfl
          | succ q' ih =>
            rw [putOnes] at g0 ⊢
            cases hb : putBits 1#64 1 s with
            | raised c u => rw [hb] at g0; simp at g0
            | done w u =>
              rw [hb, Micro.andThen_done] at g0
              rw [Micro.andThen_done]
              exact ih g0
        obtain ⟨e1, -, -, -, b1, o1⟩ :=
          putBits_ready (v := 1#64) (n := 1) r0 (by omega) (by omega)
            (by rw [p0, c0.memSize]; omega)
        have ht1 : t1 = putState 1#64 1 t0 := by
          have := (hq' ▸ g1).symm.trans (hsplit.trans e1)
          simpa using this
        rw [← ht1] at b1 o1
        refine ⟨t1, ?_, c1, r1, .inr ⟨hstart, by omega, by omega, _, ?_, x1⟩⟩
        · rw [putItem, quotientOf_eq, g1, Micro.andThen_done,
            putBits_overrun r1.clean.1 r1.offset (by rw [p1, c1.memSize]; exact h2), Micro.andThen_raised]
        · exact List.prefix_append _ _
      · obtain ⟨e2, x2, c2, r2, b2, o2⟩ :=
          putBits_ready (v := 0#64) (n := 1) r1 (by omega) (by omega)
            (by rw [p1, c1.memSize]; omega)
        have p2 : (putState 0#64 1 t1).pos = s.pos + d.toNat / 2 ^ p + 1 := by rw [x2.pos, p1]; simp
        refine ⟨_, ?_, c1.trans c2, r2, .inr ⟨hstart, by omega, by omega, _, ?_, x1.trans x2⟩⟩
        · rw [putItem, quotientOf_eq, g1, Micro.andThen_done, e2, Micro.andThen_done,
            putBits_overrun r2.clean.1 r2.offset (by rw [p2, c2.memSize, c1.memSize]; exact hout)]
        · have : golombItem p d.toNat =
              (List.replicate (d.toNat / 2 ^ p) true ++ bitsOf (0#64 : Word).toNat 1) ++
                bitsOf (d.toNat % 2 ^ p) p := by
            simp [golombItem, bitsOf]
          rw [this]
          exact List.prefix_append _ _

/-! ## The final drain -/

/-- All that `U.FINALW` can do (R124): `F_CURSOR`, `F_BUS` with nothing changed, `F_BUS` with the drain done, or
everything queued is in the buffer. -/
theorem finalW_eq (s : State) (hlt : s.byteOff.toNat + s.bitOff.val / 8 < 2 ^ 64) :
    finalW s =
      if 64 ≤ s.bitOff.val then .raised .cursor s
      else if 1 ≤ s.bitOff.val / 8 ∧ s.memSize < s.byteOff.toNat + s.bitOff.val / 8 then .raised .bus s
      else if s.bitOff.val % 8 ≠ 0 ∧ s.memSize < s.byteOff.toNat + s.bitOff.val / 8 + 1 then
        .raised .bus s.drained
      else .done () s.closed := by
  unfold finalW
  rw [refillW_eq]
  by_cases h1 : 64 ≤ s.bitOff.val
  · simp only [h1, if_true, Micro.andThen_raised]
  · by_cases h2 : 1 ≤ s.bitOff.val / 8 ∧ s.memSize < s.byteOff.toNat + s.bitOff.val / 8
    · simp only [h1, h2, and_self, if_true, if_false, Micro.andThen_raised]
    · simp only [h1, h2, if_false, Micro.andThen_done]
      unfold putPartialByte
      rw [State.memWrite_eq, s.drained_bitOff, s.drained_byteOff hlt, s.drained_control.memSize]
      by_cases h3 : s.bitOff.val % 8 = 0
      · have e : (s.bitOff.val + 7) / 8 = s.bitOff.val / 8 := by omega
        simp only [h3, if_true, ne_eq, not_true_eq_false, false_and, if_false, State.closed, e,
          Memory.writeBytes]
        rfl
      · have e : (s.bitOff.val + 7) / 8 = s.bitOff.val / 8 + 1 := by omega
        by_cases h4 : s.memSize < s.byteOff.toNat + s.bitOff.val / 8 + 1
        · simp only [h3, h4, if_false, if_true, le_refl, and_self, ne_eq, not_false_eq_true]
        · simp only [h3, h4, if_false, and_false, State.closed, e, s.drained_byteOff hlt]
          rfl

theorem State.closed_control (s : State) : SameControl s s.closed := ⟨rfl, rfl, rfl, rfl, rfl, rfl, rfl, rfl⟩

theorem State.closed_byteOff (s : State) (h : s.byteOff.toNat + (s.bitOff.val + 7) / 8 < 2 ^ 64) :
    s.closed.byteOff.toNat = s.byteOff.toNat + (s.bitOff.val + 7) / 8 := by
  simp only [State.closed, BitVec.toNat_ofNat, Nat.mod_eq_of_lt h]

theorem State.closed_wf (s : State) (hm : Memory.wf s.mem) : Memory.wf s.closed.mem :=
  Memory.writeBytes_wf (s.drained_wf hm) _ _ _

/-- The byte `U.FINALW` leaves at an offset: byte `i` of `LOOKAHEAD`, from the top, at `BYTEOFF + i` (R124). -/
theorem State.read_closed (s : State) (hm : Memory.wf s.mem) (hb : s.bitOff.val ≤ 63)
    (h : s.byteOff.toNat + (s.bitOff.val + 7) / 8 < 2 ^ 64) (a : Nat) :
    Memory.read s.closed.mem a =
      if s.byteOff.toNat ≤ a ∧ a < s.byteOff.toNat + (s.bitOff.val + 7) / 8 then
        BitVec.ofNat 8 (s.lookahead.toNat / 2 ^ (56 - 8 * (a - s.byteOff.toNat)))
      else Memory.read s.mem a := by
  have hlt : s.byteOff.toNat + s.bitOff.val / 8 < 2 ^ 64 := by omega
  simp only [State.closed]
  rw [Memory.read_writeBytes (s.drained_wf hm), s.read_drained hm hb, s.drained_byteOff hlt]
  by_cases h3 : s.bitOff.val % 8 = 0
  · have e : (s.bitOff.val + 7) / 8 = s.bitOff.val / 8 := by omega
    simp only [h3, if_true, e, Nat.add_zero]
    rw [if_neg (by omega)]
  · have e : (s.bitOff.val + 7) / 8 = s.bitOff.val / 8 + 1 := by omega
    simp only [h3, if_false, e]
    by_cases ha : a = s.byteOff.toNat + s.bitOff.val / 8
    · subst ha
      rw [if_pos (by omega), if_pos (by omega)]
      have e1 : s.byteOff.toNat + s.bitOff.val / 8 + 1 - 1 - (s.byteOff.toNat + s.bitOff.val / 8) = 0 := by omega
      have e2 : s.byteOff.toNat + s.bitOff.val / 8 - s.byteOff.toNat = s.bitOff.val / 8 := by omega
      rw [e1, e2, Nat.pow_zero, Nat.div_one]
      apply BitVec.eq_of_getLsbD_eq
      intro j hj
      have h5 : 56 + j < 64 := by omega
      have h6 : ¬ 56 + j < 8 * (s.bitOff.val / 8) := by omega
      have h7 : 56 + j - 8 * (s.bitOff.val / 8) = 56 - 8 * (s.bitOff.val / 8) + j := by omega
      simp only [BitVec.getLsbD_ofNat, hj, decide_true, Bool.true_and, Nat.testBit_div_two_pow,
        BitVec.testBit_toNat, State.drained, BitVec.getLsbD_shiftLeft, Nat.add_comm j, h5, h6, h7,
        decide_false, Bool.not_false]
    · rw [if_neg (by omega)]
      by_cases h4 : s.byteOff.toNat ≤ a ∧ a < s.byteOff.toNat + s.bitOff.val / 8
      · rw [if_pos h4, if_pos (by omega)]
      · rw [if_neg h4, if_neg (by omega)]

/-- After `U.FINALW` the buffer holds the output up to `BYTEOFF` (R124). -/
theorem State.streamBit_closed (s : State) (hm : Memory.wf s.mem) (hb : s.bitOff.val ≤ 63)
    (h : s.byteOff.toNat + (s.bitOff.val + 7) / 8 < 2 ^ 64) {k : Nat}
    (hk : k < 8 * (s.byteOff.toNat + (s.bitOff.val + 7) / 8)) :
    Memory.streamBit s.closed.mem k = s.outBit k := by
  simp only [Memory.streamBit, s.read_closed hm hb h, State.outBit]
  by_cases h1 : k < 8 * s.byteOff.toNat
  · rw [if_neg (by omega), if_pos h1]
  · rw [if_pos (by omega), if_neg h1]
    have e : 7 - k % 8 + (56 - 8 * (k / 8 - s.byteOff.toNat)) = 63 - (k - 8 * s.byteOff.toNat) := by omega
    have h7 : 7 - k % 8 < 8 := by omega
    simp only [BitVec.getLsbD_ofNat, h7, decide_true, Bool.true_and]
    rw [Nat.testBit_div_two_pow, e, BitVec.testBit_toNat]

/-- A clean cursor's output reads zero past the queued bits (R33, R36). -/
theorem Clean.outBit_past {s : State} (hc : Clean s) {k : Nat} (h1 : s.pos ≤ k) :
    s.outBit k = false := by
  have hposdef : s.pos = 8 * s.byteOff.toNat + s.bitOff.val := rfl
  rw [State.outBit, if_neg (by omega)]
  exact ((clean_iff s).1 hc).2 _ (by omega)

end Sys2Proof.Machine
end

