-- ==== Sys2Proof/Laws/Pass.lean ====
section
/-! SUPPORT. Runs of commands: a run in two parts, the host's stop at the first response that is not `OK`, and which commands close a pass. -/

namespace Sys2Proof.Machine

@[simp] theorem issueAll_nil (s : State) : issueAll [] s = s := rfl

@[simp] theorem issueAll_cons (i : Instr) (is : List Instr) (s : State) :
    issueAll (i :: is) s = issueAll is (issue i s) := rfl

@[simp] theorem allAnsweredOk_nil (s : State) : allAnsweredOk [] s = true := rfl

@[simp] theorem allAnsweredOk_cons (i : Instr) (is : List Instr) (s : State) :
    allAnsweredOk (i :: is) s = ((issue i s).answeredOk && allAnsweredOk is (issue i s)) := rfl

theorem issue_of_next {i : Instr} {s t : State} (h : exec i s = .next t) : issue i s = t := by
  simp only [issue, h]

theorem State.answeredOk_iff (s : State) : s.answeredOk = true ↔ ∃ v, s.resp = some ⟨.ok, v⟩ := by
  rcases h : s.resp with _ | ⟨st, v⟩ <;> simp [State.answeredOk, h]

theorem issueAll_append (is js : List Instr) (s : State) :
    issueAll (is ++ js) s = issueAll js (issueAll is s) := by
  induction is generalizing s with
  | nil => rfl
  | cons i is ih => exact ih _

theorem allAnsweredOk_append (is js : List Instr) (s : State) :
    allAnsweredOk (is ++ js) s = (allAnsweredOk is s && allAnsweredOk js (issueAll is s)) := by
  induction is generalizing s with
  | nil => rfl
  | cons i is ih => simp only [List.cons_append, allAnsweredOk_cons, issueAll_cons, ih, Bool.and_assoc]

/-- The host that stops at the first response that is not `OK` (R88) meets none, and has issued the whole run, or
has stopped before its end with such a response. -/
theorem issueWhileOk_cases (is : List Instr) (s : State) :
    (allAnsweredOk is s = true ∧ issueWhileOk is s = issueAll is s) ∨
      (allAnsweredOk is s = false ∧ (issueWhileOk is s).answeredOk = false) := by
  induction is generalizing s with
  | nil => exact .inl ⟨rfl, rfl⟩
  | cons i is ih =>
    by_cases h : (issue i s).answeredOk = true
    · simp only [issueWhileOk, allAnsweredOk_cons, issueAll_cons, h, if_true, Bool.true_and]
      exact ih _
    · rw [Bool.not_eq_true] at h
      exact .inr ⟨by rw [allAnsweredOk_cons, h, Bool.false_and], by simp only [issueWhileOk, h, Bool.false_eq_true, if_false]⟩

theorem closesWritePass_iff (i : Instr) :
    closesWritePass i = true ↔ i = .finalize ∨ i = .encgEnd ∨ i = .encfEnd := by
  cases i <;> simp [closesWritePass]

theorem readsItem_iff (i : Instr) :
    readsItem i = true ↔ ∃ n, i = .getbits n ∨ i = .decg n ∨ i = .decf n := by
  cases i <;> simp [readsItem]

theorem ReadEndedWell.nil {s : State} (h : s.fault = none) : ReadEndedWell [] s := ⟨nofun, rfl, h⟩

/-- A read pass ends well item by item. -/
theorem readEndedWell_cons {i : Instr} {is : List Instr} {s : State} :
    ReadEndedWell (i :: is) s ↔
      readsItem i = true ∧ (issue i s).answeredOk = true ∧ ReadEndedWell is (issue i s) := by
  simp only [ReadEndedWell, List.forall_mem_cons, allAnsweredOk_cons, issueAll_cons, Bool.and_eq_true]
  tauto

end Sys2Proof.Machine
end

