-- ==== Sys2Proof/Laws/PerInstr.lean ====
section
/-! SUPPORT. The fields of an encoded command, and the statement made per command: the fields its format does not use are zero (R81). -/

namespace Sys2Proof

theorem opField_packCommand (o : Opcode) (cnt : Byte) (val : Word) :
    opField (packCommand o cnt val) = o.byte := by
  apply BitVec.eq_of_getLsbD_eq
  intro i hi
  simp only [opField, packCommand, BitVec.getLsbD_extractLsb', BitVec.getLsbD_append, hi, decide_true,
    Bool.true_and]
  rw [if_neg (by omega), if_neg (by omega)]
  congr 1
  omega

theorem cntField_packCommand (o : Opcode) (cnt : Byte) (val : Word) :
    cntField (packCommand o cnt val) = cnt := by
  apply BitVec.eq_of_getLsbD_eq
  intro i hi
  simp only [cntField, packCommand, BitVec.getLsbD_extractLsb', BitVec.getLsbD_append, hi, decide_true,
    Bool.true_and]
  rw [if_neg (by omega), if_pos (by omega)]
  congr 1
  omega

theorem valField_packCommand (o : Opcode) (cnt : Byte) (val : Word) :
    valField (packCommand o cnt val) = val := by
  apply BitVec.eq_of_getLsbD_eq
  intro i hi
  simp only [valField, packCommand, BitVec.getLsbD_extractLsb', BitVec.getLsbD_append, hi, decide_true,
    Bool.true_and]
  rw [if_pos (by omega)]
  congr 1
  omega

theorem opcodeOf_byte (o : Opcode) : opcodeOf o.byte = some o := by cases o <;> rfl

theorem regOf_number (r : Reg) : regOf r.number = some r := by cases r <;> rfl

end Sys2Proof

namespace Sys2Proof.Laws.UnusedFieldsZero

/-- The word of a command has its operation code, and zero in each field its format does not use (R81, R82). -/
def Statement (i : Instr) : Prop :=
  ∃ o, opcodeOf (opField (encode i)) = some o ∧
    (o.format.usesCount = false → cntField (encode i) = 0#8) ∧
    (o.format.usesValue = false → valField (encode i) = 0#64)

/-- A packed word has the fields it was packed from; the two that are unused are zero by the format. -/
theorem of_packCommand {i : Instr} (o : Opcode) (cnt : Byte) (val : Word) (h : encode i = packCommand o cnt val)
    (hc : o.format.usesCount = false → cnt = 0#8) (hv : o.format.usesValue = false → val = 0#64) :
    Statement i := by
  refine ⟨o, ?_, ?_, ?_⟩
  · rw [h, opField_packCommand, opcodeOf_byte]
  · rw [h, cntField_packCommand]; exact hc
  · rw [h, valField_packCommand]; exact hv

theorem init : Statement .init :=
  of_packCommand .init 0#8 0#64 rfl (fun _ => rfl) (fun _ => rfl)

theorem getbits (count : Byte) : Statement (.getbits count) :=
  of_packCommand .getbits count 0#64 rfl nofun (fun _ => rfl)

theorem putbits (value : Word) (count : Byte) : Statement (.putbits value count) :=
  of_packCommand .putbits count value rfl nofun nofun

theorem finalize : Statement .finalize :=
  of_packCommand .finalize 0#8 0#64 rfl (fun _ => rfl) (fun _ => rfl)

theorem decg (p : Byte) : Statement (.decg p) :=
  of_packCommand .decg p 0#64 rfl nofun (fun _ => rfl)

theorem decf (p : Byte) : Statement (.decf p) :=
  of_packCommand .decf p 0#64 rfl nofun (fun _ => rfl)

theorem encgStart (p : Byte) : Statement (.encgStart p) :=
  of_packCommand .encgStart p 0#64 rfl nofun (fun _ => rfl)

theorem encgItem (value : Word) : Statement (.encgItem value) :=
  of_packCommand .encgItem 0#8 value rfl (fun _ => rfl) nofun

theorem encgEnd : Statement .encgEnd :=
  of_packCommand .encgEnd 0#8 0#64 rfl (fun _ => rfl) (fun _ => rfl)

theorem encfStart (p : Byte) : Statement (.encfStart p) :=
  of_packCommand .encfStart p 0#64 rfl nofun (fun _ => rfl)

theorem encfItem (value : Word) : Statement (.encfItem value) :=
  of_packCommand .encfItem 0#8 value rfl (fun _ => rfl) nofun

theorem encfEnd : Statement .encfEnd :=
  of_packCommand .encfEnd 0#8 0#64 rfl (fun _ => rfl) (fun _ => rfl)

theorem rdreg (reg : Reg) : Statement (.rdreg reg) :=
  of_packCommand .rdreg reg.number 0#64 rfl nofun (fun _ => rfl)

theorem wrreg (reg : Reg) (value : Word) : Statement (.wrreg reg value) :=
  of_packCommand .wrreg reg.number value rfl nofun nofun

end Sys2Proof.Laws.UnusedFieldsZero
end

