-- ==== Sys2Proof/Tests/Slice0.lean ====
section
/-! SUPPORT. The smoke test of WellFormed, words written out from spec/30_encoding.md, one-step tests from the examples of spec/, and a witness for each statement with hypotheses. -/

namespace Sys2Proof.Tests

-- One theorem at a time: in parallel their kernel evaluations want more thread stacks than the check allows.
set_option Elab.async false

open Sys2Proof Sys2Proof.Machine

/-! ## Well-formedness and decoding -/

theorem test_wellFormed_refuses_wrreg_acc : (Instr.wrreg .acc 1#64).wellFormed = false := rfl
theorem test_wellFormed_refuses_wrreg_p : (Instr.wrreg .p 1#64).wellFormed = false := rfl
theorem test_wellFormed_refuses_wrreg_status : (Instr.wrreg .status 0#64).wellFormed = false := rfl
theorem test_wellFormed_accepts_wrreg_cap : (Instr.wrreg .cap 1#64).wellFormed = true := rfl

/-- The words of programs P1 to P5 (spec/95_test_vectors.md) and of the tables of R80 to R82. -/
theorem test_decode_init : decode 0x01000000000000000000#80 = .ok .init := by rfl
theorem test_decode_getbits : decode 0x020C0000000000000000#80 = .ok (.getbits 12#8) := by rfl
theorem test_decode_putbits :
    decode 0x0328000000FEDCBA9876#80 = .ok (.putbits 0xFEDCBA9876#64 40#8) := by rfl
theorem test_decode_finalize : decode 0x04000000000000000000#80 = .ok .finalize := by rfl
theorem test_decode_decg : decode 0x08040000000000000000#80 = .ok (.decg 4#8) := by rfl
theorem test_decode_decf : decode 0x09030000000000000000#80 = .ok (.decf 3#8) := by rfl
theorem test_decode_encgStart : decode 0x10FF0000000000000000#80 = .ok (.encgStart 255#8) := by rfl
theorem test_decode_encgItem : decode 0x11000000000000000064#80 = .ok (.encgItem 100#64) := by rfl
theorem test_decode_encgEnd : decode 0x12000000000000000000#80 = .ok .encgEnd := by rfl
theorem test_decode_encfStart : decode 0x18030000000000000000#80 = .ok (.encfStart 3#8) := by rfl
theorem test_decode_encfItem : decode 0x19008000000000000001#80 = .ok (.encfItem 0x8000000000000001#64) := by rfl
theorem test_decode_encfEnd : decode 0x1A000000000000000000#80 = .ok .encfEnd := by rfl
theorem test_decode_rdreg : decode 0x20060000000000000000#80 = .ok (.rdreg .status) := by rfl
theorem test_decode_wrreg : decode 0x21020000000000000010#80 = .ok (.wrreg .byteoff 16#64) := by rfl
theorem test_decode_zero_word : decode 0#80 = .error .unknownOp := by rfl
theorem test_decode_init_with_count : decode 0x01010000000000000000#80 = .error .countNotZero := by rfl
theorem test_decode_getbits_with_value : decode 0x02010000000000000001#80 = .error .valueNotZero := by rfl
theorem test_decode_rdreg_seven : decode 0x20070000000000000000#80 = .error .noSuchRegister := by rfl
theorem test_decode_wrreg_acc : decode 0x21030000000000000000#80 = .error .readOnlyRegister := by rfl
theorem test_decodeTableWord_decg : decodeTableWord 80 0x08000000000000000000 = some (.decg 0#8) := by rfl
theorem test_encode_putbits : encode (.putbits 5#64 3#8) = 0x03030000000000000005#80 := by rfl

/-! ## One step -/

/-- The state after reset with another window and other first bytes. -/
def machine (size : Nat) (bytes : Nat × Nat) : State :=
  { State.reset with memSize := size, mem := Memory.writeBytes [] 0 bytes.1 bytes.2 }

/-- A cursor and a mode set by hand. -/
def State.at (s : State) (mode : Mode) (byteOff : Nat) (bitOff : Fin 65) (lookahead : Word) : State :=
  { s with mode := mode, byteOff := BitVec.ofNat 64 byteOff, bitOff := bitOff, lookahead := lookahead }

/-- An encode session with nothing put yet. -/
def session (size : Nat) (mode : Mode) (p : Fin 57) : State :=
  { machine size (0, 0) with mode := mode, p := p }

/-- What `RDREG` would show of the cursor. -/
def cursor (s : State) : Word × Nat × Nat := (s.lookahead, s.bitOff.val, s.byteOff.toNat)

/-- The state after a step that stops nowhere. -/
def stepped (s : State) : State :=
  match step s with
  | .next t => t
  | .fault _ => s
  | .refused _ => s

/-- The example of R100. -/
theorem test_init : let s := State.at (machine 16 (0, 0)) .done 1 4 0x9000000000000000#64
    (cursor (issue .init s), (issue .init s).mode) = ((0#64, 0, 0), .fresh) := by decide +kernel

/-- The example of R105, its second command. -/
theorem test_getbits : let s := State.at (machine 16 (9, 0x123456789ABCDEF011)) .rd 0 13 0#64
    ((issue (.getbits 6#8) s).resp, cursor (issue (.getbits 6#8) s)) =
      (some ⟨.ok, 0x22#64⟩, (0x3456789ABCDEF011#64, 11, 1)) := by decide +kernel

/-- R105(a): 57 bits seven bits into a byte use the whole window. -/
theorem test_getbits_whole_window : let s := State.at (machine 8 (8, 0x01FFFFFFFFFFFFFE)) .fresh 0 7 0#64
    ((issue (.getbits 57#8) s).resp, cursor (issue (.getbits 57#8) s)) =
      (some ⟨.ok, 0x1FFFFFFFFFFFFFE#64⟩, (0x01FFFFFFFFFFFFFE#64, 64, 0)) := by decide +kernel

/-- The example of R125, its last command. -/
theorem test_putbits : let s := State.at (machine 16 (0, 0)) .wr 0 12 0xBFF0000000000000#64
    ((issue (.putbits 0#64 1#8) s).mem, cursor (issue (.putbits 0#64 1#8) s)) =
      ([(0, 0xBF#8)], (0xF000000000000000#64, 5, 1)) := by decide +kernel

/-- The example of R122. -/
theorem test_putbits_places : let s := State.at (machine 16 (0, 0)) .wr 0 3 0xA000000000000000#64
    cursor (issue (.putbits 0x1FF#64 9#8) s) = (0xBFF0000000000000#64, 12, 0) := by decide +kernel

/-- The example of R126. -/
theorem test_finalize : let s := State.at (machine 16 (1, 0xBF)) .wr 1 5 0xF000000000000000#64
    ((issue .finalize s).resp, (issue .finalize s).mem) =
      (some ⟨.ok, 2#64⟩, [(0, 0xBF#8), (1, 0xF0#8)]) := by decide +kernel

/-- The example of R171. -/
theorem test_decg : let s := machine 16 (1, 0x90)
    ((issue (.decg 2#8) s).resp, cursor (issue (.decg 2#8) s), (issue (.decg 2#8) s).mode) =
      (some ⟨.ok, 5#64⟩, (0x9000000000000000#64, 4, 0), .rd) := by decide +kernel

/-- R174: 128 ones, then a zero, with `p = 57` overflow; the cursor is past the item. -/
theorem test_decg_overflow : let s := machine 40 (16, 2 ^ 128 - 1)
    ((issue (.decg 57#8) s).resp, (issue (.decg 57#8) s).byteOff.toNat, (issue (.decg 57#8) s).bitOff.val) =
      (some ⟨.fault .ovf, 0#64⟩, 16, 58) := by decide +kernel

/-- The second command of the example of R177. -/
theorem test_decf : let s := State.at (machine 16 (2, 0x6600)) .rd 0 3 0#64
    ((issue (.decf 3#8) s).resp, cursor (issue (.decf 3#8) s)) =
      (some ⟨.ok, 1#64⟩, (0x6600000000000000#64, 6, 0)) := by decide +kernel

/-- The examples of R141. -/
theorem test_encgStart : let s := { State.at (machine 16 (0, 0)) .done 3 4 7#64 with acc := 9#64 }
    (cursor (issue (.encgStart 2#8) s), (issue (.encgStart 2#8) s).p.val, (issue (.encgStart 2#8) s).acc) =
      ((0#64, 0, 0), 2, 0#64) := by decide +kernel

theorem test_encgStart_parameter_error :
    issue (.encgStart 57#8) (machine 16 (0, 0)) =
      { machine 16 (0, 0) with resp := some ⟨.eParam, 0#64⟩ } := by decide +kernel

/-- The example of R143. -/
theorem test_encgItem : let s := session 16 .encg 2
    (cursor (issue (.encgItem 5#64) s), (issue (.encgItem 5#64) s).acc, (issue (.encgItem 5#64) s).resp) =
      ((0x9000000000000000#64, 4, 0), 5#64, some ⟨.ok, 0#64⟩) := by decide +kernel

/-- Line 11 of P3: `8 + 1024 ≥ 1032`. -/
theorem test_encgItem_capacity :
    let s := { State.at (session 2048 .encg 7) .encg 7 8 0x0100000000000000#64 with acc := 8#64, cap := 1032#64 }
    ((issue (.encgItem 9#64) s).resp, (issue (.encgItem 9#64) s).mode, cursor (issue (.encgItem 9#64) s)) =
      (some ⟨.eCapacity, 0#64⟩, .done, (0x0100000000000000#64, 8, 8)) := by decide +kernel

/-- The example of R148, and an empty session. -/
theorem test_encgEnd : let s := State.at (session 16 .encg 2) .encg 0 4 0x9000000000000000#64
    ((issue .encgEnd s).resp, (issue .encgEnd s).mem, cursor (issue .encgEnd s)) =
      (some ⟨.ok, 1#64⟩, [(0, 0x90#8)], (0x9000000000000000#64, 4, 1)) := by decide +kernel

theorem test_encgEnd_empty : (issue .encgEnd (session 16 .encg 2)).resp = some ⟨.eEmpty, 0#64⟩ := by
  decide +kernel

/-- R161: `ACC` is left alone. -/
theorem test_encfStart : let s := { machine 16 (0, 0) with acc := 9#64 }
    ((issue (.encfStart 3#8) s).p.val, (issue (.encfStart 3#8) s).acc, (issue (.encfStart 3#8) s).mode) =
      (3, 9#64, .encf) := by decide +kernel

/-- The last item of the example of R162, and a value too wide for it. -/
theorem test_encfItem : let s := State.at (session 16 .encf 3) .encf 0 6 0x6400000000000000#64
    cursor (issue (.encfItem 4#64) s) = (0x6600000000000000#64, 9, 0) := by decide +kernel

theorem test_encfItem_too_wide :
    (issue (.encfItem 8#64) (session 16 .encf 3)).resp = some ⟨.fault .width, 0#64⟩ := by decide +kernel

/-- The example of R164. -/
theorem test_encfEnd : let s := State.at (session 16 .encf 3) .encf 0 9 0x6600000000000000#64
    ((issue .encfEnd s).resp, (issue .encfEnd s).mem, cursor (issue .encfEnd s)) =
      (some ⟨.ok, 2#64⟩, [(0, 0x66#8)], (0#64, 1, 2)) := by decide +kernel

/-- R191: after a first `F_BUS` in mode `RD`, `RDREG 6` reads 0x8609. -/
theorem test_rdreg_status : let s := { machine 16 (0, 0) with mode := .rd, fault := some .bus }
    (issue (.rdreg .status) s).resp = some ⟨.ok, 0x8609#64⟩ := by decide +kernel

/-- The examples of R192. -/
theorem test_wrreg_bitoff : (issue (.wrreg .bitoff 64#64) (machine 16 (0, 0))).bitOff.val = 64 := by
  decide +kernel

theorem test_wrreg_bitoff_above_64 :
    (issue (.wrreg .bitoff 65#64) (machine 16 (0, 0))).resp = some ⟨.fault .cursor, 0#64⟩ := by decide +kernel

/-- Line 1 of P4, as the first command after reset, through the step and the decoder. -/
theorem test_step_decg_runs_into_the_end :
    ∃ t, step ((machine 16 (16, 2 ^ 128 - 1)).withFetchWord 80 0x08040000000000000000) = .next t ∧
      cursor t = (0xFFFFFFFFFFFFFFFF#64, 8, 8) ∧ t.statusWord = 0x8608#64 :=
  ⟨_, rfl, by decide +kernel⟩

/-- R251: `DECG 1` as the first command after reset answers 0, the item `00` of an all-zero buffer. -/
theorem test_step_from_reset :
    (stepped (State.reset.withFetchWord 80 0x08010000000000000000)).resp = some ⟨.ok, 0#64⟩ := by decide +kernel

/-- R230: reset clears the fault and keeps the buffer. -/
theorem test_reset : let s := { machine 16 (1, 0x90) with fault := some .bus, inputs := [.reset] }
    ∃ t, step s = .next t ∧ t.statusWord = 0#64 ∧ t.mem = [(0, 0x90#8)] :=
  ⟨_, rfl, by decide +kernel⟩

/-- R249: `E_CAPACITY`, then an `RDREG` that answers `OK`, is no good end of a write pass. -/
theorem test_rdreg_ends_no_pass (s t : State) (n : Word) : ¬ EndedWell (.rdreg .byteoff) s t n :=
  fun h => nomatch h.1

/-- Line 5 of P4: a faulted block refuses `INIT`. -/
theorem test_init_refused : let s := { machine 16 (0, 0) with fault := some .bus }
    issue .init s = { s with resp := some ⟨.refused, 0#64⟩ } := by decide +kernel


/-! ## Witnesses

For each statement with hypotheses, states and operands that meet all the hypotheses of a clause. -/

/-- A state with one event waiting. -/
def waiting (e : PortEvent) (s : State) : State := { s with inputs := [e] }

/-- A faulted block. -/
def broken : State := { machine 16 (0, 0) with fault := some .bus }

theorem witness_DecodeOfEncodeIsTheCommand : (Instr.wrreg .cap 0xFFFFFFFFFFFFFFFF#64).wellFormed = true := rfl

theorem witness_LegalWordIsItsCommandsEncoding : ∃ (w : CmdWord) (i : Instr), decode w = .ok i :=
  ⟨0x21050000000000000400#80, _, rfl⟩

/-- One word for each clause of R84: an unknown `OP`, an unused `CNT`, an unused `VAL`, register 7, register 3. -/
theorem witness_IllegalWordsRaiseFCmd : (machine 16 (0, 0)).fault = none ∧
    IllegalWord 0x00000000000000000000#80 ∧ IllegalWord 0x01010000000000000000#80 ∧
    IllegalWord 0x02010000000000000001#80 ∧ IllegalWord 0x20070000000000000000#80 ∧
    IllegalWord 0x21030000000000000000#80 :=
  ⟨rfl, by decide +kernel, by decide +kernel, by decide +kernel, by decide +kernel, by decide +kernel⟩

theorem witness_StepRunsTheDecodedCommand : ∃ (s : State) (w : CmdWord) (rest : List PortEvent) (i : Instr),
    s.inputs = .command w :: rest ∧ decode w = .ok i :=
  ⟨waiting (.command 0x01000000000000000000#80) (machine 16 (0, 0)), _, _, _, rfl, rfl⟩

theorem witness_FaultedBlock_refused :
    ∃ (s : State) (c : FaultCode) (w : CmdWord) (rest : List PortEvent),
      s.fault = some c ∧ s.inputs = .command w :: rest ∧ ∀ r, decode w ≠ .ok (.rdreg r) :=
  ⟨waiting (.command 0x20070000000000000000#80) broken, _, _, _, rfl, rfl, by intro r; cases r <;> nofun⟩

theorem witness_FaultedBlock_rdreg :
    ∃ (s : State) (c : FaultCode) (w : CmdWord) (rest : List PortEvent) (r : Reg),
      s.fault = some c ∧ s.inputs = .command w :: rest ∧ decode w = .ok (.rdreg r) :=
  ⟨waiting (.command 0x20060000000000000000#80) broken, _, _, _, _, rfl, rfl, rfl⟩

theorem witness_FaultedBlock_latched : ∃ (s t : State) (c : FaultCode),
    s.fault = some c ∧ (∀ rest, s.inputs ≠ .reset :: rest) ∧ step s = .next t :=
  ⟨waiting (.poke 0 1#8) broken, _, _, rfl, nofun, rfl⟩

theorem witness_ResetGivesEveryRegisterItsValue : ∃ (s : State) (rest : List PortEvent),
    s.inputs = .reset :: rest := ⟨waiting .reset broken, _, rfl⟩

/-- The last byte of the window, and the first offset past it. -/
theorem witness_HostWritesAndWaiting : (machine 16 (0, 0)).inputs = [] ∧
    (∃ (s : State) (a : Nat) (b : Byte) (rest : List PortEvent),
      Memory.wf s.mem ∧ s.inputs = .poke a b :: rest ∧ a < s.memSize) ∧
    (∃ (s : State) (a : Nat) (b : Byte) (rest : List PortEvent),
      s.inputs = .poke a b :: rest ∧ s.memSize ≤ a) :=
  ⟨rfl, ⟨waiting (.poke 15 1#8) (machine 16 (1, 0x90)), _, _, _, by decide +kernel, rfl, by decide +kernel⟩,
    ⟨waiting (.poke 16 1#8) (machine 16 (0, 0)), _, _, _, rfl, by decide +kernel⟩⟩

/-- A Golomb session in the middle, which the step continues. -/
theorem witness_EveryStepKeepsInv : ∃ s t : State, Inv s ∧ step s = .next t ∧ InSession t :=
  ⟨waiting (.command 0x11000000000000000007#80)
    { State.at (session 16 .encg 2) .encg 1 12 0xFFF0000000000000#64 with
      mem := [(0, 0xFF#8)], acc := 5#64, cap := 2048#64 }, _, by decide +kernel, rfl, by decide +kernel⟩

theorem witness_EveryCommandAnswersInOneWay : (machine 16 (0, 0)).fault = none ∧ broken.fault = some .bus :=
  ⟨rfl, rfl⟩

/-- A fault checked before any change, and one raised inside a micro-operation. -/
theorem witness_FaultsArePrecise : (∃ (i : Instr) (s t : State) (c : FaultCode), s.fault = none ∧
      exec i s = .next t ∧ t.fault = some c ∧ c ∈ [FaultCode.cmd, .seq, .count, .width]) ∧
    ∃ (i : Instr) (s t : State), s.fault = none ∧ exec i s = .next t ∧ t.fault = some .bus :=
  ⟨⟨.encgEnd, machine 16 (0, 0), _, _, rfl, rfl, rfl, by decide +kernel⟩,
    ⟨.decg 4#8, machine 16 (16, 2 ^ 128 - 1), _, rfl, rfl, by decide +kernel⟩⟩

theorem witness_CodecRegistersHaveTheirOwnWriters : ∃ (i : Instr) (s t : State), exec i s = .next t ∧
    (∀ v, i ≠ .wrreg .cap v) ∧ (∀ p, i ≠ .encgStart p) ∧ (∀ v, i ≠ .encgItem v) ∧ (∀ p, i ≠ .encfStart p) :=
  ⟨.putbits 5#64 3#8, machine 16 (0, 0), _, rfl, nofun, nofun, nofun, nofun⟩

theorem witness_CapFeedsOnlyTheGolombItem : ∃ (i : Instr) (s t : State),
    (∀ v, i ≠ .encgItem v) ∧ i ≠ .rdreg .cap ∧ (∀ v, i ≠ .wrreg .cap v) ∧ exec i s = .next t :=
  ⟨.encfItem 3#64, session 16 .encf 3, _, nofun, nofun, nofun, rfl⟩

theorem witness_ReadsDoNotDependOnLookahead : ∀ i ∈ [Instr.getbits 8#8, .decf 8#8, .decg 8#8],
    i ∈ [Instr.getbits 8#8, .decf 8#8, .decg 8#8] ∧ (machine 16 (1, 0x90)).fault = none ∧
      ∃ t, exec i (machine 16 (1, 0x90)) = .next t ∧ t.fault = none := by
  intro i hi
  simp only [List.mem_cons, List.not_mem_nil, or_false] at hi
  rcases hi with rfl | rfl | rfl <;> exact ⟨by decide +kernel, rfl, _, rfl, by decide +kernel⟩

/-- The byte at the top of the window, stored by a drain. -/
theorem witness_OnlyWriteCommandsStore : ∃ (i : Instr) (s t : State) (a : Nat), s.memSize ≤ 2 ^ 60 ∧
    Memory.wf s.mem ∧ exec i s = .next t ∧ Memory.read t.mem a ≠ Memory.read s.mem a :=
  ⟨.finalize, State.at (machine 16 (0, 0)) .wr 15 8 0xFF00000000000000#64, _, 15, by decide +kernel,
    by decide +kernel, rfl, by decide +kernel⟩

/-- A read in `DONE`, and an item outside its session. -/
theorem witness_FSeqExactly : ∀ i ∈ [Instr.getbits 1#8, .encfItem 1#64, .finalize, .wrreg .cap 1#64],
    i.wellFormed = true ∧ (State.at (machine 16 (0, 0)) .done 1 4 0#64).fault = none ∧
      (State.at (machine 16 (0, 0)) .done 1 4 0#64).mode ∉ admittedModes i := by decide +kernel

/-- Both ends of the three ranges. -/
theorem witness_FCountExactly : ∀ i ∈ [Instr.getbits 0#8, .getbits 58#8, .decf 0#8, .decg 58#8, .putbits 0#64 0#8,
      .putbits 0#64 57#8, .encgStart 0#8, .encfStart 0#8],
    i.wellFormed = true ∧ (machine 16 (0, 0)).fault = none ∧
      (machine 16 (0, 0)).mode ∈ admittedModes i ∧ countOutOfRange i = true := by decide +kernel

/-- The least value too wide, for a `PUTBITS` of 1 and of 56 bits and for an item of 3 bits. -/
theorem witness_FWidthExactly : ∀ x ∈ [(machine 16 (0, 0), Instr.putbits 2#64 1#8),
      (machine 16 (0, 0), .putbits 0x0100000000000000#64 56#8), (session 16 .encf 3, .encfItem 8#64)],
    x.2.wellFormed = true ∧ x.1.fault = none ∧ x.1.mode ∈ admittedModes x.2 ∧ countOutOfRange x.2 = false ∧
      tooWide x.1 x.2 = true := by decide +kernel

theorem witness_FCursorOnABreachedCursor : let s := State.at (machine 16 (0, 0)) .fresh 0 64 0#64
    (s.fault = none ∧ (s.mode = .fresh ∨ s.mode = .wr) ∧ s.bitOff.val = 64 ∧ 1 ≤ (56#8).toNat ∧
      (56#8).toNat ≤ 56 ∧ (5#64).toNat < 2 ^ (56#8).toNat) ∧ 64 < (65#64).toNat := by decide +kernel

theorem witness_ParameterErrorChangesNothing :
    ((machine 16 (0, 0)).fault = none ∧ (machine 16 (0, 0)).mode ≠ .encg ∧ (machine 16 (0, 0)).mode ≠ .encf ∧
      56 < (57#8).toNat) ∧
    ((session 16 .encg 2).fault = none ∧ (session 16 .encg 2).mode = .encg ∧ 56 < (255#8).toNat) ∧
    ∃ t, exec (.encgStart 57#8) (machine 16 (0, 0)) = .next t ∧ t.resp = some ⟨.eParam, 0#64⟩ :=
  ⟨by decide +kernel, by decide +kernel, _, rfl, by decide +kernel⟩

/-- `CAP = 1024` makes the first item report (R146); an empty session reports at its end. -/
theorem witness_CapacityAndEmpty :
    (∃ (s t : State) (x : Word), s.fault = none ∧ s.mode = .encg ∧ exec (.encgItem x) s = .next t ∧
      t.fault = none ∧ t.cap.toNat ≤ t.byteOff.toNat + 1024 ∧ t.resp = some ⟨.eCapacity, 0#64⟩) ∧
    ∃ (s t : State), exec .encfEnd s = .next t ∧ t.resp = some ⟨.eEmpty, 0#64⟩ :=
  ⟨⟨{ session 16 .encg 2 with cap := 1024#64 }, _, 5#64, rfl, rfl, rfl, by decide +kernel, by decide +kernel,
    by decide +kernel⟩, ⟨session 16 .encf 3, _, rfl, by decide +kernel⟩⟩

/-- A full window in which the next drain does not fit. -/
theorem witness_SessionCommandsFaultOnlyOnTheBus :
    (∃ s t : State, Inv s ∧ s.fault = none ∧ s.mode = .encg ∧ exec (.encgItem 5#64) s = .next t ∧
      t.fault = some .bus) ∧
    (∃ s t : State, Inv s ∧ s.fault = none ∧ s.mode = .encg ∧ exec .encgEnd s = .next t ∧ t.fault = some .bus) ∧
    (∃ s t : State, Inv s ∧ s.fault = none ∧ s.mode = .encf ∧ exec .encfEnd s = .next t ∧ t.fault = some .bus) ∧
    ∃ s t : State, Inv s ∧ s.fault = none ∧ s.mode = .encf ∧ exec (.encfItem 9#64) s = .next t ∧
      t.fault = some .width :=
  ⟨⟨State.at (session 8 .encg 3) .encg 8 8 0#64, _, by decide +kernel, rfl, rfl, rfl, by decide +kernel⟩,
    ⟨State.at (session 8 .encg 3) .encg 8 8 0#64, _, by decide +kernel, rfl, rfl, rfl, by decide +kernel⟩,
    ⟨State.at (session 8 .encf 3) .encf 8 8 0#64, _, by decide +kernel, rfl, rfl, rfl, by decide +kernel⟩,
    ⟨session 8 .encf 3, _, by decide +kernel, rfl, rfl, rfl, by decide +kernel⟩⟩

theorem witness_InitCreatesAFreshCursor : (machine 16 (0, 0)).fault = none ∧ broken.fault ≠ none ∧
    ∃ (w : CmdWord) (i : Instr), w.toNat / 2 ^ 72 = 1 ∧ decode w = .ok i :=
  ⟨rfl, nofun, 0x01000000000000000000#80, _, by decide +kernel, rfl⟩

/-- One bit and 57 bits, the refill at the last place it fits. -/
theorem witness_GetbitsAndDecfReturnTheNextBits : let s := State.at (machine 16 (0, 0)) .rd 8 7 0#64
    ∀ x ∈ [(Instr.getbits 1#8, 1#8), (.getbits 57#8, 57#8), (.decf 1#8, 1#8), (.decf 57#8, 57#8)],
      x.1 ∈ [Instr.getbits x.2, .decf x.2] ∧ s.fault = none ∧ (s.mode = .fresh ∨ s.mode = .rd) ∧ 1 ≤ x.2.toNat ∧
        x.2.toNat ≤ 57 ∧ s.memSize ≤ 2 ^ 60 ∧ s.pos / 8 + 8 ≤ s.memSize := by decide +kernel

/-- The first refill address that does not fit. -/
theorem witness_ReadPastTheWindowChangesNothing : let s := State.at (machine 16 (0, 0)) .rd 8 8 0#64
    ∀ i ∈ [Instr.getbits 57#8, .decf 57#8, .decg 57#8],
      i ∈ [Instr.getbits 57#8, .decf 57#8, .decg 57#8] ∧ s.fault = none ∧ (s.mode = .fresh ∨ s.mode = .rd) ∧
        1 ≤ (57#8).toNat ∧ (57#8).toNat ≤ 57 ∧ s.memSize < s.pos / 8 + 8 := by decide +kernel

theorem witness_OverAllocationMakesReadsSafe : let s := State.at (machine 16 (0, 0)) .rd 8 0 0#64
    Instr.decf 8#8 ∈ [Instr.getbits 8#8, .decf 8#8] ∧ s.fault = none ∧ (s.mode = .fresh ∨ s.mode = .rd) ∧
      1 ≤ (8#8).toNat ∧ (8#8).toNat ≤ 57 ∧ s.memSize ≤ 2 ^ 60 ∧ s.pos + (8#8).toNat ≤ 8 * 9 ∧ 9 + 7 ≤ s.memSize := by
  decide +kernel

/-- The longest run that `p = 57` admits, 127 ones. -/
theorem witness_DecgReturnsTheItemsValue : let s := machine 24 (16, 2 ^ 128 - 2)
    s.fault = none ∧ (s.mode = .fresh ∨ s.mode = .rd) ∧ 1 ≤ (57#8).toNat ∧ (57#8).toNat ≤ 57 ∧
      s.memSize ≤ 2 ^ 60 ∧ (∀ j, j < 127 → Memory.streamBit s.mem (s.pos + j) = true) ∧
      Memory.streamBit s.mem (s.pos + 127) = false ∧ (s.pos + 127 + 1) / 8 + 8 ≤ s.memSize ∧
      127 < 2 ^ (64 - (57#8).toNat) := by decide +kernel

/-- The shortest run that overflows with `p = 57`, 128 ones. -/
theorem witness_DecgQuotientOverflowFaults : let s := machine 24 (16, 2 ^ 128 - 1)
    s.fault = none ∧ (s.mode = .fresh ∨ s.mode = .rd) ∧ 1 ≤ (57#8).toNat ∧ (57#8).toNat ≤ 57 ∧
      s.memSize ≤ 2 ^ 60 ∧ (∀ j, j < 128 → Memory.streamBit s.mem (s.pos + j) = true) ∧
      Memory.streamBit s.mem (s.pos + 128) = false ∧ (s.pos + 128 + 1) / 8 + 8 ≤ s.memSize ∧
      2 ^ (64 - (57#8).toNat) ≤ 128 := by decide +kernel

/-- The least window: all its readable bits ones, or a terminator in the last of them. -/
theorem witness_DecgRunsIntoTheWindowsEnd_ones : let s := machine 8 (1, 0xFF)
    s.fault = none ∧ (s.mode = .fresh ∨ s.mode = .rd) ∧ 1 ≤ (1#8).toNat ∧ (57#8).toNat ≤ 57 ∧
      s.memSize ≤ 2 ^ 60 ∧ s.pos / 8 + 8 ≤ s.memSize ∧
      ∀ k, k < 8 * s.memSize → s.pos ≤ k → k / 8 + 8 ≤ s.memSize → Memory.streamBit s.mem k = true := by
  decide +kernel

theorem witness_DecgRunsIntoTheWindowsEnd_terminator : let s := machine 8 (1, 0xFE)
    s.fault = none ∧ (s.mode = .fresh ∨ s.mode = .rd) ∧ 1 ≤ (1#8).toNat ∧ (57#8).toNat ≤ 57 ∧
      s.memSize ≤ 2 ^ 60 ∧ (∀ j, j < 7 → Memory.streamBit s.mem (s.pos + j) = true) ∧
      Memory.streamBit s.mem (s.pos + 7) = false ∧ (s.pos + 7) / 8 + 8 ≤ s.memSize ∧
      s.memSize < (s.pos + 7 + 1) / 8 + 8 := by decide +kernel

/-- One bit and 56 bits after seven queued ones, the last bytes of the window drained. -/
theorem witness_PutbitsAppendsTheValuesBits : let s := State.at (machine 16 (0, 0)) .wr 9 63 0xFFFFFFFFFFFFFFFE#64
    ∀ n ∈ [1, 56], s.fault = none ∧ (s.mode = .fresh ∨ s.mode = .wr) ∧ 1 ≤ (BitVec.ofNat 8 n).toNat ∧
      (BitVec.ofNat 8 n).toNat ≤ 56 ∧ (1#64).toNat < 2 ^ (BitVec.ofNat 8 n).toNat ∧ Clean s ∧ Memory.wf s.mem ∧
      s.memSize ≤ 2 ^ 60 ∧ s.pos / 8 ≤ s.memSize := by decide +kernel

theorem witness_PutbitsOnAnyCursorOrsTheValueIn : let s := State.at (machine 16 (0, 0)) .wr 9 63 0x0123456789ABCDEF#64
    s.fault = none ∧ (s.mode = .fresh ∨ s.mode = .wr) ∧ 1 ≤ (56#8).toNat ∧ (56#8).toNat ≤ 56 ∧
      (5#64).toNat < 2 ^ (56#8).toNat ∧ s.bitOff.val < 64 ∧ Memory.wf s.mem ∧ s.memSize ≤ 2 ^ 60 ∧
      s.byteOff.toNat + s.bitOff.val / 8 ≤ s.memSize := by decide +kernel

theorem witness_FinalizeStoresEveryQueuedBit : let s := State.at (machine 16 (0, 0)) .wr 8 63 0x0123456789ABCDEF#64
    s.fault = none ∧ (s.mode = .fresh ∨ s.mode = .wr) ∧ s.bitOff.val < 64 ∧ Memory.wf s.mem ∧
      s.memSize ≤ 2 ^ 60 ∧ s.byteOff.toNat + (s.bitOff.val + 7) / 8 ≤ s.memSize := by decide +kernel

/-- Eight bits queued above a full window, for each of the five commands. -/
theorem witness_DrainPastTheWindowChangesNothing :
    ∀ x ∈ [(Instr.finalize, Mode.wr), (.encgEnd, .encg), (.encfEnd, .encf), (.encfItem 7#64, .encf),
      (.putbits 7#64 3#8, .wr)], let s := State.at (session 16 x.2 3) x.2 16 8 0#64
      s.fault = none ∧ s.mode ∈ admittedModes x.1 ∧ countOutOfRange x.1 = false ∧ tooWide s x.1 = false ∧
        8 ≤ s.bitOff.val ∧ s.bitOff.val < 64 ∧ s.memSize < s.byteOff.toNat + s.bitOff.val / 8 := by decide +kernel

/-- The drain fills the window and one bit is left over; and a `BYTEOFF` past the window with no byte to drain. -/
theorem witness_PartialByteFaultKeepsTheDrain :
    ∀ x ∈ [(Instr.finalize, Mode.wr, 15, (9 : Fin 65)), (.encgEnd, .encg, 15, 9), (.encfEnd, .encf, 15, 9),
      (.finalize, .wr, 100, 1), (.finalize, .wr, 16, 7)],
      let s := State.at (session 16 x.2.1 3) x.2.1 x.2.2.1 x.2.2.2 0xABC0000000000000#64
      x.1 ∈ [Instr.finalize, .encgEnd, .encfEnd] ∧ s.fault = none ∧ s.mode ∈ admittedModes x.1 ∧
        s.bitOff.val < 64 ∧ s.bitOff.val % 8 ≠ 0 ∧ Memory.wf s.mem ∧ s.memSize ≤ 2 ^ 60 ∧
        (s.bitOff.val / 8 = 0 ∨ s.byteOff.toNat + s.bitOff.val / 8 ≤ s.memSize) ∧
        s.memSize < s.byteOff.toNat + s.bitOff.val / 8 + 1 := by decide +kernel

theorem witness_StartOpensASession : let s := State.at (machine 16 (0, 0)) .done 3 4 0#64
    (s.fault = none ∧ s.mode ≠ .encg ∧ s.mode ≠ .encf ∧ 1 ≤ (56 : Fin 57).val) ∧
    (session 16 .encf 3).fault = none ∧ (session 16 .encf 3).mode = .encf ∧ (0#8).toNat = 0 ∧
    56 < (57#8).toNat := by decide +kernel

/-- The last drain fills the window: 63 ones and the terminator in eight bytes. -/
theorem witness_EncgItemAppendsTheItem : let s := session 8 .encg 1
    s.fault = none ∧ s.mode = .encg ∧ s.memSize ≤ 2 ^ 60 ∧ Memory.wf s.mem ∧ (∀ c ∈ s.mem, c.1 < s.memSize) ∧
      SessionOk s ∧ (s.pos + (126#64 - s.acc).toNat / 2 ^ s.p.val + 1) / 8 ≤ s.memSize := by decide +kernel

/-- Eight ones more, and a session whose first drain does not fit. -/
theorem witness_EncgItemStopsAtTheWindowsEnd :
    ∀ s ∈ [session 8 .encg 1, State.at (session 8 .encg 1) .encg 8 8 0#64],
      s.fault = none ∧ s.mode = .encg ∧ s.memSize ≤ 2 ^ 60 ∧ Memory.wf s.mem ∧ (∀ c ∈ s.mem, c.1 < s.memSize) ∧
        SessionOk s ∧ s.memSize < (s.pos + (142#64 - s.acc).toNat / 2 ^ s.p.val + 1) / 8 := by decide +kernel

/-- An empty session, and one that fills the window. -/
theorem witness_EndStoresTheStreamAndReportsItsLength :
    ∀ x ∈ [(Instr.encgEnd, session 8 .encg 1), (.encfEnd, State.at (session 8 .encf 1) .encf 7 8 0#64)],
      x.1 ∈ [Instr.encgEnd, .encfEnd] ∧ x.2.fault = none ∧ x.2.mode ∈ admittedModes x.1 ∧ x.2.memSize ≤ 2 ^ 60 ∧
        Memory.wf x.2.mem ∧ SessionOk x.2 ∧ (x.2.pos + 7) / 8 ≤ x.2.memSize := by decide +kernel

theorem witness_EncfItemAppendsTheField : let s := State.at (session 8 .encf 3) .encf 7 8 0#64
    s.fault = none ∧ s.mode = .encf ∧ s.memSize ≤ 2 ^ 60 ∧ Memory.wf s.mem ∧ SessionOk s ∧
      (7#64).toNat < 2 ^ s.p.val ∧ s.pos / 8 ≤ s.memSize := by decide +kernel

/-- The longest length R245 allows: `CAP = 1025`, eight bytes. -/
theorem witness_GolombLengthStaysBelowTheCapacity : ∃ s t : State, Inv s ∧ s.mode = .encg ∧
    exec .encgEnd s = .next t ∧ t.resp = some ⟨.ok, 8#64⟩ ∧ s.cap = 1025#64 :=
  ⟨{ State.at (session 16 .encg 56) .encg 0 63 0#64 with cap := 1025#64 }, _, by decide +kernel, rfl, rfl,
    by decide +kernel, rfl⟩

/-- `CAP = MEMSIZE`, an item of 8129 bits on 63 queued ones. -/
theorem witness_MarginProtectsTheWindow :
    let s := { State.at (session 1025 .encg 1) .encg 0 63 0#64 with cap := 1025#64 }
    Inv s ∧ s.fault = none ∧ s.mode = .encg ∧ s.byteOff.toNat + 1024 < s.cap.toNat ∧ s.cap.toNat ≤ s.memSize ∧
      (golombItem s.p.val (16254#64 - s.acc).toNat).length ≤ 8129 :=
  ⟨by decide +kernel, rfl, rfl, by decide +kernel, by decide +kernel, by
    unfold golombItem
    rw [List.length_append, List.length_replicate]
    decide +kernel⟩

theorem witness_WrregWritesTheWritableRegisters :
    (∀ m ∈ [Mode.fresh, .rd, .wr], let s := State.at (machine 16 (0, 0)) m 0 0 0#64
      s.fault = none ∧ (s.mode = .fresh ∨ s.mode = .rd ∨ s.mode = .wr) ∧ s.mode ∉ [Mode.encg, .encf, .done] ∧
      64 < (65#64).toNat) ∧
    Reg.p ∈ [Reg.acc, .p, .status] ∧ Reg.cap ∈ [Reg.lookahead, .bitoff, .byteoff, .cap] ∧
    (session 16 .encg 2).fault = none ∧ (session 16 .encg 2).mode ∈ [Mode.encg, .encf, .done] := by decide +kernel

/-- The example of R192: byte 16, bit 3, and a `BITOFF` of 64. -/
theorem witness_RestoredCursorReadsOn : let s := State.at (machine 32 (0, 0)) .rd 1 2 7#64
    ∀ b ∈ [(3 : Fin 65), 64], s.fault = none ∧ (s.mode = .fresh ∨ s.mode = .rd) ∧ 1 ≤ (57#8).toNat ∧
      (57#8).toNat ≤ 57 ∧ s.memSize ≤ 2 ^ 60 ∧ (8 * (16#64 : Word).toNat + b.val) / 8 + 8 ≤ s.memSize := by
  decide +kernel

/-- S1 and P1: the stream of one value, and of five, in the least window and under the least capacity. -/
theorem witness_EncodeGolombWritesTheStream :
    ∀ x ∈ [(2#8, [5#64]), (4#8, [3#64, 20#64, 20#64, 100#64, 1000#64])],
      let s := { machine 11 (0, 0) with cap := 1035#64 }
      WindowOk s ∧ Memory.wf s.mem ∧ (∀ c ∈ s.mem, c.1 < s.memSize) ∧ s.fault = none ∧ s.mode ≠ .encg ∧
        s.mode ≠ .encf ∧ 1 ≤ x.1.toNat ∧ x.1.toNat ≤ 56 ∧ x.2 ≠ [] ∧
        ((golombStream x.1.toNat 0#64 x.2).length + 7) / 8 ≤ s.memSize ∧
        (golombStream x.1.toNat 0#64 x.2).length / 8 + 1024 < s.cap.toNat := by decide +kernel

/-- S6, whatever `CAP` holds. -/
theorem witness_EncodeFixedWritesTheStream : let s := { machine 8 (0, 0) with cap := 0#64 }
    WindowOk s ∧ Memory.wf s.mem ∧ s.fault = none ∧ s.mode ≠ .encg ∧ s.mode ≠ .encf ∧ 1 ≤ (3#8).toNat ∧
      (3#8).toNat ≤ 56 ∧ [3#64, 1#64, 4#64] ≠ [] ∧ (∀ v ∈ [3#64, 1#64, 4#64], v.toNat < 2 ^ (3#8).toNat) ∧
      ([3#64, 1#64, 4#64].length * (3#8).toNat + 7) / 8 ≤ s.memSize :=
  ⟨by decide +kernel, by decide +kernel, rfl, nofun, nofun, by decide, by decide, nofun, by simp, by decide⟩

/-- P1 with a window of the stream's 11 bytes and the 7 of R235. -/
theorem witness_GolombRoundTrip : let s := machine 18 (0, 0)
    WindowOk s ∧ Memory.wf s.mem ∧ (∀ c ∈ s.mem, c.1 < s.memSize) ∧
      (encodeGolomb 4#8 [3#64, 20#64, 20#64, 100#64, 1000#64] s).resp = some ⟨.ok, 11#64⟩ ∧
      (11#64).toNat + 7 ≤ s.memSize := by decide +kernel

theorem witness_FixedRoundTrip : let s := machine 9 (0, 0)
    WindowOk s ∧ Memory.wf s.mem ∧ (encodeFixed 3#8 [3#64, 1#64, 4#64] s).resp = some ⟨.ok, 2#64⟩ ∧
      (2#64).toNat + 7 ≤ s.memSize := by decide +kernel

/-- `FINALIZE` of thirteen bits, and a `FINALIZE` of nothing at the top of the address space. -/
theorem witness_GoodEndLeavesTheStream :
    (∃ (s t : State) (n : Word), EndedWell .finalize s t n ∧ Memory.wf s.mem ∧ s.memSize ≤ 2 ^ 60 ∧ Clean s) ∧
    ∃ (s t : State), EndedWell .finalize s t 0xFFFFFFFFFFFFFFFF#64 ∧ Memory.wf s.mem ∧ s.memSize ≤ 2 ^ 60 :=
  ⟨⟨State.at (machine 16 (1, 0xBF)) .wr 1 5 0xF000000000000000#64, _, 2#64, ⟨rfl, rfl, by decide +kernel⟩,
      by decide +kernel, by decide +kernel, by decide +kernel⟩,
    State.at (machine 16 (0, 0)) .fresh 0xFFFFFFFFFFFFFFFF 0 0#64, _, ⟨rfl, rfl, by decide +kernel⟩,
      by decide +kernel, by decide +kernel⟩

/-- A pass that goes on, one that ends well, and one that `CAP = 1024` ends. -/
theorem witness_WritePassEndsWellOnlyAtAnOkClose :
    (∀ s ∈ [State.at (machine 16 (0, 0)) .wr 0 3 0#64, session 16 .encg 2, session 16 .encf 3],
      s.fault = none ∧ s.mode ∈ [Mode.wr, .encg, .encf]) ∧
    (∃ (t : State) (n : Word), EndedWell .encfEnd (State.at (session 16 .encf 3) .encf 0 3 0#64) t n ∧
      t.mode = .done) ∧
    ∃ t : State, exec (.encgItem 5#64) { session 16 .encg 2 with cap := 1024#64 } = .next t ∧ t.mode = .done :=
  ⟨by decide +kernel, ⟨_, 1#64, ⟨rfl, rfl, by decide +kernel⟩, by decide +kernel⟩, _, rfl, by decide +kernel⟩

theorem witness_EncodeCallsAnswerOk :
    (encodeGolomb 2#8 [5#64] (machine 16 (0, 0))).resp = some ⟨.ok, 1#64⟩ ∧
    (encodeFixed 3#8 [3#64, 1#64, 4#64] (machine 16 (0, 0))).resp = some ⟨.ok, 2#64⟩ := by decide +kernel

/-- V2.1, in the least window, and a pass of no fields. -/
theorem witness_BitLevelPassWritesTheStream : let s := machine 8 (0, 0)
    s.fault = none ∧ Memory.wf s.mem ∧ s.memSize ≤ 2 ^ 60 ∧
      (∀ f ∈ [((5 : Word), (3 : Byte)), (0x1FF, 9), (0, 52)],
        1 ≤ f.2.toNat ∧ f.2.toNat ≤ 56 ∧ f.1.toNat < 2 ^ f.2.toNat) ∧
      ((fieldStream [(5, 3), (0x1FF, 9), (0, 52)]).length + 7) / 8 ≤ s.memSize ∧
      ((fieldStream []).length + 7) / 8 ≤ s.memSize :=
  ⟨rfl, by decide +kernel, by decide +kernel, by simp, by decide +kernel, by decide +kernel⟩

/-- S6's first fields: the data is two bytes, the window nine. -/
theorem witness_ReadPassInsideTheDataEndsWell : let s := machine 9 (2, 0x6600)
    List.Forall₂ (fun i n => i = Instr.getbits n ∨ i = .decf n) [.decf 3#8, .getbits 13#8] [3#8, 13#8] ∧
      (∀ n ∈ [3#8, 13#8], 1 ≤ n.toNat ∧ n.toNat ≤ 57) ∧ s.fault = none ∧ (s.mode = .fresh ∨ s.mode = .rd) ∧
      s.memSize ≤ 2 ^ 60 ∧ s.pos + ([3#8, 13#8].map BitVec.toNat).sum ≤ 8 * 2 ∧ 2 + 7 ≤ s.memSize :=
  ⟨.cons (.inr rfl) (.cons (.inl rfl) .nil), by simp, rfl, .inl rfl, by decide +kernel, by decide +kernel,
    by decide +kernel⟩

end Sys2Proof.Tests
end

section
/-! How every command answers: no micro-operation moves a control register (R56), so a command's answer is
settled by its checks and by how its micro-operations end (R14, R210, R212). -/

namespace Sys2Proof.Machine

/-! ### The micro-operations keep the control registers -/

/-- The state a micro-operation ends in, whether it is done or raises a fault there. -/
def Micro.endState {α : Type} : Micro α → State
  | .done _ s => s
  | .raised _ s => s

@[simp] theorem Micro.endState_done {α : Type} (v : α) (s : State) : (Micro.done v s).endState = s := rfl

@[simp] theorem Micro.endState_raised {α : Type} (c : FaultCode) (s : State) :
    (Micro.raised c s : Micro α).endState = s := rfl

theorem SameControl.andThen {α β : Type} {s : State} {m : Micro α} {k : α → State → Micro β}
    (hm : SameControl s m.endState) (hk : ∀ v t, SameControl t (k v t).endState) :
    SameControl s (m.andThen k).endState := by
  cases m with
  | done v t => exact hm.trans (hk v t)
  | raised c t => exact hm

theorem State.afterRead_control (s : State) (k n : Nat) : SameControl s (s.afterRead k n) :=
  ⟨rfl, rfl, rfl, rfl, rfl, rfl, rfl, rfl⟩

theorem consume_control (n : Nat) (s : State) : SameControl s (consume n s) :=
  ⟨rfl, rfl, rfl, rfl, rfl, rfl, rfl, rfl⟩

theorem refill_control (s : State) : SameControl s (refill s).endState := by
  rw [refill_eq]
  split
  · exact SameControl.refl s
  · exact s.afterRead_control s.pos 0

theorem getBits_control (n : Nat) (s : State) : SameControl s (getBits n s).endState :=
  (refill_control s).andThen fun _ t => consume_control n t

theorem readUnaryFuel_control (fuel q : Nat) (s : State) : SameControl s (readUnaryFuel fuel q s).endState := by
  induction fuel generalizing q s with
  | zero => exact SameControl.refl s
  | succ fuel ih =>
    refine (getBits_control 1 s).andThen fun b t => ?_
    split
    · exact ih (q + 1) t
    · exact SameControl.refl t

theorem readItem_control (p : Nat) (s : State) : SameControl s (readItem p s).endState :=
  (readUnaryFuel_control _ 0 s).andThen fun _ t =>
    (getBits_control p t).andThen fun _ u => SameControl.refl u

theorem refillW_control (s : State) : SameControl s (refillW s).endState := by
  rw [refillW_eq]
  split
  · exact SameControl.refl s
  · split
    · exact SameControl.refl s
    · exact s.drained_control

theorem putBits_control (v : Word) (n : Nat) (s : State) : SameControl s (putBits v n s).endState :=
  (refillW_control s).andThen fun _ _ => ⟨rfl, rfl, rfl, rfl, rfl, rfl, rfl, rfl⟩

theorem putPartialByte_control (s : State) : SameControl s (putPartialByte s).endState := by
  unfold putPartialByte
  rw [State.memWrite_eq]
  split
  · exact SameControl.refl s
  · by_cases hout : 1 ≤ 1 ∧ s.memSize < s.byteOff.toNat + 1
    · simp only [if_pos hout]
      exact SameControl.refl s
    · simp only [if_neg hout]
      exact ⟨rfl, rfl, rfl, rfl, rfl, rfl, rfl, rfl⟩

theorem finalW_control (s : State) : SameControl s (finalW s).endState :=
  (refillW_control s).andThen fun _ t => putPartialByte_control t

theorem putOnes_control (q : Nat) (s : State) : SameControl s (putOnes q s).endState := by
  induction q generalizing s with
  | zero => exact SameControl.refl s
  | succ q ih => exact (putBits_control 1#64 1 s).andThen fun _ t => ih t

theorem putItem_control (d : Word) (p : Nat) (s : State) : SameControl s (putItem d p s).endState :=
  (putOnes_control _ s).andThen fun _ t =>
    (putBits_control 0#64 1 t).andThen fun _ u => putBits_control _ p u

/-! ### The answer of an unfaulted block -/

/-- The statuses that report no fault: `OK` and the reported errors (R14, R86). -/
def nonFaultStatuses : List Status := [.ok, .eParam, .eCapacity, .eEmpty]

/-- The two ways an unfaulted block answers (R14): without a fault, or with one whose code is latched. -/
def Answered (t : State) : Prop :=
  ∃ r, t.resp = some r ∧ ((t.fault = none ∧ r.status ∈ nonFaultStatuses) ∨
    ∃ c, t.fault = some c ∧ r = ⟨.fault c, 0#64⟩)

theorem answered_reply {st : Status} {s : State} (v : Word) (hs : s.fault = none)
    (hst : st ∈ nonFaultStatuses) : Answered (reply st v s) :=
  ⟨⟨st, v⟩, rfl, .inl ⟨hs, hst⟩⟩

theorem answered_ok {s : State} (v : Word) (hs : s.fault = none) : Answered (reply .ok v s) :=
  answered_reply v hs (by decide)

theorem answered_raiseFault {s : State} (c : FaultCode) (hs : s.fault = none) : Answered (raiseFault c s) :=
  ⟨_, rfl, .inr ⟨c, by simp [hs], rfl⟩⟩

/-- A command's micro-operations end it (R210): a fault they raise is taken, or the rest of its rule answers. -/
theorem answered_finish {α : Type} {s : State} {m : Micro α} {k : α → State → State} (hs : s.fault = none)
    (hm : SameControl s m.endState) (hk : ∀ v t, t.fault = none → Answered (k v t)) :
    Answered (m.finish k) := by
  cases m with
  | done v t => exact hk v t (hm.fault.trans hs)
  | raised c t => exact answered_raiseFault c (hm.fault.trans hs)

theorem answered_readField (n : Byte) {s : State} (hs : s.fault = none) : Answered (readField n s) := by
  unfold readField
  split
  · exact answered_raiseFault .seq hs
  · split
    · exact answered_raiseFault .count hs
    · exact answered_finish hs (getBits_control _ s) fun v t ht => answered_ok v ht

theorem answered_endSession {s : State} (hs : s.fault = none) : Answered (endSession s) := by
  refine answered_finish hs (finalW_control s) fun _ t ht => ?_
  split
  · exact answered_reply _ ht (by decide)
  · exact answered_ok _ ht

theorem writeReg_fault (g : Reg) (v : Word) (s : State) : (writeReg g v s).fault = s.fault := by
  cases g <;> rfl

/-! ### The answer of a command -/

/-- The command completes and leaves an answered state. -/
def Answers (o : Host.Outcome State Fault Refusal) : Prop := ∃ t, o = .next t ∧ Answered t

theorem Answers.next {t : State} (h : Answered t) : Answers (.next t) := ⟨t, rfl, h⟩

/-- The refusal of a faulted block (R212) does not concern an unfaulted one. -/
theorem Answers.notRefused {s u : State} {o : Host.Outcome State Fault Refusal} (hs : s.fault = none)
    (ho : Answers o) : Answers (if s.faulted then .next u else o) := by
  simpa [State.faulted, hs] using ho

/-- A check of a rule (R213): its fault, or the rest of the rule. -/
theorem Answers.check {P : Prop} [Decidable P] {s : State} {c : FaultCode}
    {o : Host.Outcome State Fault Refusal} (hs : s.fault = none) (ho : Answers o) :
    Answers (if P then .next (raiseFault c s) else o) := by
  split
  · exact .next (answered_raiseFault c hs)
  · exact ho

/-- The parameter error of the two `START`s (R141, R161), or the session they open. -/
theorem Answers.paramError {P : Prop} [Decidable P] {s : State} {o : Host.Outcome State Fault Refusal}
    (hs : s.fault = none) (ho : Answers o) : Answers (if P then .next (reply .eParam 0#64 s) else o) := by
  split
  · exact .next (answered_reply _ hs (by decide))
  · exact ho

theorem execDecg_answers (p : Byte) {s : State} (hs : s.fault = none) : Answers (execDecg p s) := by
  refine .notRefused hs <| .check hs <| .check hs <| .next <|
    answered_finish hs (readItem_control _ s) fun item t ht => ?_
  split
  · exact answered_ok _ ht
  · exact answered_raiseFault .ovf ht

/-- `ENCG.ITEM` updates `ACC` before its bits are put (R143). -/
theorem execEncgItem_answers (v : Word) {s : State} (hs : s.fault = none) : Answers (execEncgItem v s) := by
  have hacc : (s.setAcc (s.acc + deltaOf v s.acc)).fault = none := hs
  refine .notRefused hs <| .check hs <| .next <|
    answered_finish hacc (putItem_control _ _ _) fun _ t ht => ?_
  split
  · exact answered_reply _ ht (by decide)
  · exact answered_ok _ ht

/-- The checks of each rule in its order, then its end. -/
theorem exec_answers (i : Instr) {s : State} (hs : s.fault = none) : Answers (exec i s) := by
  cases i with
  | init => exact .notRefused hs <| .next <| answered_ok _ hs
  | getbits n => exact .notRefused hs <| .next <| answered_readField n hs
  | putbits v n =>
    exact .notRefused hs <| .check hs <| .check hs <| .check hs <| .next <|
      answered_finish hs (putBits_control v _ s) fun _ _ ht => answered_ok _ ht
  | finalize =>
    exact .notRefused hs <| .check hs <| .next <|
      answered_finish hs (finalW_control s) fun _ _ ht => answered_ok _ ht
  | decg p => exact execDecg_answers p hs
  | decf p => exact .notRefused hs <| .next <| answered_readField p hs
  | encgStart p =>
    exact .notRefused hs <| .check hs <| .check hs <| .paramError hs <| .next <| answered_ok _ hs
  | encgItem v => exact execEncgItem_answers v hs
  | encgEnd => exact .notRefused hs <| .check hs <| .next <| answered_endSession hs
  | encfStart p =>
    exact .notRefused hs <| .check hs <| .check hs <| .paramError hs <| .next <| answered_ok _ hs
  | encfItem v =>
    exact .notRefused hs <| .check hs <| .check hs <| .next <|
      answered_finish hs (putBits_control v _ s) fun _ _ ht => answered_ok _ ht
  | encfEnd => exact .notRefused hs <| .check hs <| .next <| answered_endSession hs
  | rdreg g => exact .next <| answered_ok _ hs
  | wrreg g v =>
    exact .notRefused hs <| .check hs <| .check hs <| .check hs <| .next <|
      answered_ok _ ((writeReg_fault g v s).trans hs)

/-- A faulted block refuses every command but `RDREG` (R212). -/
theorem exec_of_faulted {i : Instr} {s : State} {c : FaultCode} (hs : s.fault = some c)
    (hi : ∀ g, i ≠ .rdreg g) : exec i s = .next (refuse s) := by
  have hf : s.faulted = true := by simp [State.faulted, hs]
  cases i with
  | rdreg g => exact absurd rfl (hi g)
  | _ => exact if_pos hf

/-- Settles O12: a faulted block answers `RDREG` and refuses the rest; an unfaulted one answers by its rule. -/
theorem everyCommandAnswersInOneWay : Obligations.EveryCommandAnswersInOneWay := by
  intro i s
  cases hs : s.fault with
  | none =>
    obtain ⟨t, ht, r, hr, hways⟩ := exec_answers i hs
    exact ⟨t, r, ht, hr, fun _ => hways, nofun⟩
  | some c =>
    by_cases hi : ∃ g, i = .rdreg g
    · obtain ⟨g, rfl⟩ := hi
      exact ⟨_, _, rfl, rfl, nofun, fun _ hc => ⟨hs.trans hc, .inl ⟨⟨g, rfl⟩, rfl⟩⟩⟩
    · have hrefused := exec_of_faulted hs fun g hg => hi ⟨g, hg⟩
      exact ⟨_, _, hrefused, rfl, nofun, fun _ hc => ⟨hs.trans hc, .inr rfl⟩⟩

end Sys2Proof.Machine
end

section
/-! Reset and the register port: reset and the two register accesses give their next state whole (R191, R192, R230). -/

namespace Sys2Proof.Machine

/-! ### `STATUS` -/

theorem toNat_append_eq_add {m n : Nat} (x : BitVec m) (y : BitVec n) :
    (x ++ y).toNat = x.toNat * 2 ^ n + y.toNat := by
  rw [BitVec.toNat_append, ← Nat.shiftLeft_add_eq_or_of_lt y.isLt, Nat.shiftLeft_eq]

/-- The fields of `STATUS` (R30) as one number. -/
theorem State.statusWord_eq (s : State) :
    s.statusWord = BitVec.ofNat 64 (s.mode.code.toNat + (8 * s.faulted.toNat + 256 * s.fcode.toNat)) := by
  have hmode := s.mode.code.isLt
  have hcode := s.fcode.isLt
  have hfault := s.faulted.toNat_lt
  apply BitVec.eq_of_toNat_eq
  simp only [State.statusWord, toNat_append_eq_add, BitVec.toNat_ofNat, BitVec.toNat_ofBool]
  omega

/-! ### Reset -/

theorem step_of_reset {s : State} {rest : List PortEvent} (h : s.inputs = .reset :: rest) :
    step s = .next (resetBlock (s.setInputs rest)) := by
  simp only [step, takeEvent, h, runEvent]

theorem statusWord_resetBlock (s : State) : (resetBlock s).statusWord = 0#64 := by
  simp [State.statusWord_eq, State.faulted, State.fcode, Mode.code]

/-- Settles O8: the step is `resetBlock`, whose fields are the reset values. -/
theorem resetGivesEveryRegisterItsValue : Obligations.ResetGivesEveryRegisterItsValue := by
  refine ⟨fun s rest h => ⟨_, step_of_reset h, ?_⟩, rfl, rfl, rfl, rfl, rfl, rfl, rfl, rfl, rfl⟩
  exact ⟨rfl, rfl, rfl, rfl, rfl, rfl, rfl, rfl, statusWord_resetBlock _, rfl, rfl, rfl, rfl⟩

/-- Settles O10: no byte is listed and no session is open. -/
theorem invHoldsAtReset : Obligations.InvHoldsAtReset := by
  have hwindow : WindowOk State.reset := by decide
  have hform : Memory.wf State.reset.mem := ⟨.nil, nofun⟩
  have hsession : ¬ InSession State.reset := by rintro (h | h) <;> cases h
  exact ⟨hwindow, hform, nofun, fun h => absurd h hsession, fun _ => nofun⟩

/-! ### `RDREG` -/

/-- Settles O44: `RDREG` is one reply; the word of `STATUS` is the sum of its fields. -/
theorem rdregReadsEveryRegister : Obligations.RdregReadsEveryRegister := by
  intro s
  refine ⟨rfl, rfl, rfl, rfl, rfl, rfl, ?_⟩
  have hread : exec (.rdreg .status) s = .next { s with resp := some ⟨.ok, s.statusWord⟩ } := rfl
  rw [hread, s.statusWord_eq]
  congr 6
  · cases s.mode <;> rfl
  · unfold State.faulted State.fcode
    rcases s.fault with _ | _ | _ | _ | _ | _ | _ | _ <;> rfl

/-! ### `WRREG` -/

theorem State.faulted_eq_false {s : State} (h : s.fault = none) : s.faulted = false := by
  rw [State.faulted, h]; rfl

/-- Fault entry in an unfaulted block (R210). -/
theorem raiseFault_eq_faultedBy {s : State} (h : s.fault = none) (c : FaultCode) :
    raiseFault c s = faultedBy c s := by
  simp only [raiseFault, h]
  rfl

/-- All that `WRREG` can do in an unfaulted block: R192's checks in their order, then the write. -/
theorem exec_wrreg {s : State} (h : s.fault = none) (r : Reg) (v : Word) :
    exec (.wrreg r v) s =
      if r.writable = false then .next (faultedBy .cmd s)
      else if s.mode.admitsRegWrite = false then .next (faultedBy .seq s)
      else if r = .bitoff ∧ 64 < v.toNat then .next (faultedBy .cursor s)
      else .next (reply .ok 0#64 (writeReg r v s)) := by
  show execWrreg r v s = _
  simp only [execWrreg, State.faulted_eq_false h, raiseFault_eq_faultedBy h, illegalBitOff, Bool.not_eq_true',
    decide_eq_true_eq, Bool.false_eq_true, if_false]

/-- The write itself, where the checks of R192 pass. -/
theorem exec_wrreg_ok {s : State} (h : s.fault = none) {r : Reg} {v : Word} (hr : r.writable = true)
    (hm : s.mode = .fresh ∨ s.mode = .rd ∨ s.mode = .wr) (hv : ¬(r = .bitoff ∧ 64 < v.toNat)) :
    exec (.wrreg r v) s = .next (reply .ok 0#64 (writeReg r v s)) := by
  have hadmits : s.mode.admitsRegWrite = true := by rcases hm with hm | hm | hm <;> rw [hm] <;> rfl
  rw [exec_wrreg h, if_neg (by simp [hr]), if_neg (by simp [hadmits]), if_neg hv]

theorem writeReg_bitoff (b : Fin 65) (s : State) :
    writeReg .bitoff (BitVec.ofNat 64 b.val) s = s.setBitOff b := by
  have hval : (BitVec.ofNat 64 b.val).toNat = b.val := Nat.mod_eq_of_lt (by omega)
  have hb : bitOffOf b.val = b := Fin.ext (bitOffOf_val (by omega))
  simp only [writeReg, hval, hb]

theorem mem_readOnly_iff (r : Reg) : r ∈ [Reg.acc, .p, .status] ↔ r.writable = false := by
  cases r <;> decide

theorem mem_readWrite_iff (r : Reg) : r ∈ [Reg.lookahead, .bitoff, .byteoff, .cap] ↔ r.writable = true := by
  cases r <;> decide

theorem mem_closedToRegWrite_iff (m : Mode) : m ∈ [Mode.encg, .encf, .done] ↔ m.admitsRegWrite = false := by
  cases m <;> decide

/-- Settles O45: each clause is one of the ends of `exec_wrreg`. -/
theorem wrregWritesTheWritableRegisters : Obligations.WrregWritesTheWritableRegisters := by
  refine ⟨fun s v h hm => ⟨?_, ?_, ?_, fun b => ?_⟩, fun s v r h hr => ?_, fun s v r h hr hm => ?_,
    fun s v h hm hv => ?_⟩
  · exact exec_wrreg_ok h rfl hm nofun
  · exact exec_wrreg_ok h rfl hm nofun
  · exact exec_wrreg_ok h rfl hm nofun
  · have hval : ¬ 64 < (BitVec.ofNat 64 b.val).toNat := by
      rw [BitVec.toNat_ofNat, Nat.mod_eq_of_lt (by omega)]
      omega
    rw [exec_wrreg_ok h rfl hm fun hb => hval hb.2, writeReg_bitoff]
    rfl
  · rw [exec_wrreg h, if_pos ((mem_readOnly_iff r).1 hr)]
  · rw [exec_wrreg h, if_neg (by simp [(mem_readWrite_iff r).1 hr]), if_pos ((mem_closedToRegWrite_iff _).1 hm)]
  · rw [exec_wrreg h, if_neg nofun, if_neg (mt (mem_closedToRegWrite_iff _).2 hm), if_pos ⟨rfl, hv⟩]

end Sys2Proof.Machine
end

section
/-! The reads: `GETBITS` and `DECF` are one field read, and no read uses what `LOOKAHEAD` held before (R32, R62). -/

namespace Sys2Proof.Machine

/-! ### The field read -/

theorem Mode.admitsRead_iff (m : Mode) : m.admitsRead = true ↔ m = .fresh ∨ m = .rd := by
  cases m <;> decide

theorem readCountOk_iff (c : Byte) : readCountOk c = true ↔ 1 ≤ c.toNat ∧ c.toNat ≤ 57 :=
  decide_eq_true_iff

/-- The bytes of a refill are 64 stream bits (R10, R54). -/
theorem Memory.readBytes_eq_streamBits (m : Memory) (a n : Nat) :
    Memory.readBytes m a n = Memory.streamBits m (8 * a) (8 * n) := by
  apply Nat.eq_of_testBit_eq
  intro j
  rw [Memory.testBit_readBytes, Memory.testBit_streamBits, Nat.mul_add]

/-- The commands that read one field: `GETBITS` and `DECF` (R105, R177). -/
theorem exec_fieldRead {i : Instr} {n : Byte} {s : State} (hi : i ∈ [Instr.getbits n, .decf n])
    (hs : s.fault = none) : exec i s = .next (readField n s) := by
  have hf : ¬ s.faulted = true := by rw [State.faulted_eq_false hs]; decide
  simp only [List.mem_cons, List.not_mem_nil, or_false] at hi
  rcases hi with rfl | rfl <;> exact if_neg hf

/-- The field read in an admitted mode with a count in range: `U.GETBITS` alone decides. -/
theorem readField_eq {n : Byte} {s : State} (hm : s.mode = .fresh ∨ s.mode = .rd) (hn1 : 1 ≤ n.toNat)
    (hn : n.toNat ≤ 57) :
    readField n s = (getBits n.toNat s).finish fun v t => reply .ok v (t.setMode .rd) := by
  rw [readField, (Mode.admitsRead_iff _).2 hm, (readCountOk_iff n).2 ⟨hn1, hn⟩]
  rfl

/-- `DECG` in an admitted mode with a width in range. -/
theorem exec_decg {p : Byte} {s : State} (hs : s.fault = none) (hm : s.mode = .fresh ∨ s.mode = .rd)
    (hp1 : 1 ≤ p.toNat) (hp : p.toNat ≤ 57) :
    exec (.decg p) s = .next ((readItem p.toNat s).finish fun item t =>
      if quotientFits item.1 p.toNat then reply .ok (itemValue item.1 p.toNat item.2) (t.setMode .rd)
      else raiseFault .ovf t) := by
  show execDecg p s = _
  rw [execDecg, State.faulted_eq_false hs, (Mode.admitsRead_iff _).2 hm, (readCountOk_iff p).2 ⟨hp1, hp⟩]
  rfl

/-- Settles O26: `U.GETBITS` returns the field at the position and stands past it. -/
theorem getbitsAndDecfReturnTheNextBits : Obligations.GetbitsAndDecfReturnTheNextBits := by
  intro i n s hi hs hm hn1 hn _ hin
  refine ⟨bitOffOf (s.pos % 8 + n.toNat), bitOffOf_val (by omega), ?_⟩
  have hread : getBits n.toNat s =
      .done (BitVec.ofNat 64 (Memory.streamBits s.mem s.pos n.toNat)) (s.afterRead s.pos n.toNat) := by
    rw [getBits_eq s hn, if_neg (by omega)]
  rw [exec_fieldRead hi hs, readField_eq hm hn1 hn, hread, Micro.finish_done,
    State.afterRead, Memory.readBytes_eq_streamBits]
  rfl

/-! ### The first refill past the window -/

theorem readItem_of_raised {c : FaultCode} {p : Nat} {s t : State} (h : readUnary s = .raised c t) :
    readItem p s = .raised c t := by
  rw [readItem, h, Micro.andThen_raised]

/-- The unary loop stops at a first refill past the window, whatever reads it has left (R175). -/
theorem readUnary_past {s : State} (h : s.memSize < s.pos / 8 + 8) : readUnary s = .raised .bus s := by
  unfold readUnary
  generalize 8 * s.memSize = fuel
  cases fuel with
  | zero => rfl
  | succ fuel => rw [readUnaryFuel_succ, if_pos h]

/-- Settles O27: the first refill raises `F_BUS` before any change, in the field read and in the unary loop. -/
theorem readPastTheWindowChangesNothing : Obligations.ReadPastTheWindowChangesNothing := by
  intro i n s hi hs hm hn1 hn hout
  rw [← raiseFault_eq_faultedBy hs]
  by_cases hdecg : i = .decg n
  · rw [hdecg, exec_decg hs hm hn1 hn, readItem_of_raised (readUnary_past hout), Micro.finish_raised]
  · have hfield : i ∈ [Instr.getbits n, .decf n] := by
      simpa [hdecg] using hi
    rw [exec_fieldRead hfield hs, readField_eq hm hn1 hn, getBits_eq s hn, if_pos hout, Micro.finish_raised]

/-! ### What `LOOKAHEAD` held before -/

@[simp] theorem State.setLookahead_pos (s : State) (v : Word) : (s.setLookahead v).pos = s.pos := rfl

@[simp] theorem State.setLookahead_afterRead (s : State) (v : Word) (k n : Nat) :
    (s.setLookahead v).afterRead k n = s.afterRead k n := rfl

/-- A read whose refill stays in the window forgets `LOOKAHEAD` there (R101). -/
theorem getBits_setLookahead {n : Nat} {s : State} (v : Word) (hn : n ≤ 57)
    (hin : ¬ s.memSize < s.pos / 8 + 8) : getBits n (s.setLookahead v) = getBits n s := by
  simp only [getBits_eq _ hn, State.setLookahead_memSize, State.setLookahead_pos, State.setLookahead_mem,
    State.setLookahead_afterRead, hin, if_false]

/-- The unary loop forgets `LOOKAHEAD` at its first read. -/
theorem readUnary_setLookahead {s : State} (v : Word) (hin : ¬ s.memSize < s.pos / 8 + 8) :
    readUnary (s.setLookahead v) = readUnary s := by
  obtain ⟨fuel, hfuel⟩ : ∃ fuel, 8 * s.memSize = fuel + 1 := ⟨8 * s.memSize - 1, by omega⟩
  have hin' : ¬ (s.setLookahead v).memSize < (s.setLookahead v).pos / 8 + 8 := hin
  rw [readUnary, readUnary, State.setLookahead_memSize, hfuel, readUnaryFuel_succ, readUnaryFuel_succ,
    if_neg hin, if_neg hin']
  rfl

/-- The checks of the three read commands, in the order of R213, whatever the rest of the rule does. -/
theorem exec_read_checks {i : Instr} {n : Byte} {s : State} (hi : i ∈ [Instr.getbits n, .decf n, .decg n])
    (hs : s.fault = none) :
    ∃ u, exec i s =
      if s.mode.admitsRead = false then .next (raiseFault .seq s)
      else if readCountOk n = false then .next (raiseFault .count s)
      else .next u := by
  have hf := State.faulted_eq_false hs
  by_cases hdecg : i = .decg n
  · subst hdecg
    show ∃ u, execDecg n s = _
    simp only [execDecg, hf, Bool.not_eq_true', Bool.false_eq_true, if_false]
    exact ⟨_, rfl⟩
  · have hfield : i ∈ [Instr.getbits n, .decf n] := by
      simpa [hdecg] using hi
    rw [exec_fieldRead hfield hs]
    simp only [readField, Bool.not_eq_true', apply_ite Host.Outcome.next]
    exact ⟨_, rfl⟩

/-- A read command that ends without a fault had its mode admitted, its count in range and its first refill inside
the window. -/
theorem read_completes {i : Instr} {n : Byte} {s t : State} (hi : i ∈ [Instr.getbits n, .decf n, .decg n])
    (hs : s.fault = none) (h : exec i s = .next t) (ht : t.fault = none) :
    (s.mode = .fresh ∨ s.mode = .rd) ∧ 1 ≤ n.toNat ∧ n.toNat ≤ 57 ∧ ¬ s.memSize < s.pos / 8 + 8 := by
  have hnot : ∀ c, exec i s ≠ .next (raiseFault c s) := by
    intro c hc
    obtain rfl : t = raiseFault c s := Host.Outcome.next.inj (h.symm.trans hc)
    simp at ht
  obtain ⟨u, hu⟩ := exec_read_checks hi hs
  have hmode : s.mode.admitsRead = true := by
    by_contra hm
    exact hnot .seq (hu.trans (if_pos (Bool.eq_false_of_not_eq_true hm)))
  have hcount : readCountOk n = true := by
    by_contra hn
    exact hnot .count ((hu.trans (if_neg (by simp [hmode]))).trans (if_pos (Bool.eq_false_of_not_eq_true hn)))
  have hm := (Mode.admitsRead_iff _).1 hmode
  obtain ⟨hn1, hn⟩ := (readCountOk_iff n).1 hcount
  refine ⟨hm, hn1, hn, fun hout => hnot .bus ?_⟩
  rw [raiseFault_eq_faultedBy hs]
  exact readPastTheWindowChangesNothing i n s hi hs hm hn1 hn hout

/-- Settles O16: the first refill, which a completed read has done, overwrites `LOOKAHEAD`. -/
theorem readsDoNotDependOnLookahead : Obligations.ReadsDoNotDependOnLookahead := by
  intro i n s t v hi hs h ht
  obtain ⟨hm, hn1, hn, hin⟩ := read_completes hi hs h ht
  rw [← h]
  show exec i (s.setLookahead v) = exec i s
  by_cases hdecg : i = .decg n
  · rw [hdecg, exec_decg hs hm hn1 hn, exec_decg (s := s.setLookahead v) hs hm hn1 hn, readItem, readItem,
      readUnary_setLookahead v hin]
  · have hfield : i ∈ [Instr.getbits n, .decf n] := by
      simpa [hdecg] using hi
    rw [exec_fieldRead hfield hs, exec_fieldRead (s := s.setLookahead v) hfield hs, readField_eq hm hn1 hn,
      readField_eq (s := s.setLookahead v) hm hn1 hn, getBits_setLookahead v hn hin]

end Sys2Proof.Machine
end

section
/-! The bit-level write pass: a completed `PUTBITS` appends its field, a completed `FINALIZE` stores what is queued,
and a pass is their composition (R33, R125, R126, R249). -/

namespace Sys2Proof.Machine

/-! ### `PUTBITS` and `FINALIZE` where they complete -/

theorem Mode.admitsWrite_iff (m : Mode) : m.admitsWrite = true ↔ m = .fresh ∨ m = .wr := by
  cases m <;> decide

theorem writeCountOk_iff (c : Byte) : writeCountOk c = true ↔ 1 ≤ c.toNat ∧ c.toNat ≤ 56 :=
  decide_eq_true_iff

theorem fitsIn_iff (v : Word) (n : Nat) : fitsIn v n = true ↔ v.toNat < 2 ^ n := by
  rw [fitsIn, decide_eq_true_iff, ← BitVec.toNat_inj, BitVec.toNat_ushiftRight, Nat.shiftRight_eq_div_pow,
    BitVec.toNat_ofNat, Nat.zero_mod, Nat.div_eq_zero_iff_lt (Nat.two_pow_pos n)]

theorem State.pos_div (s : State) : s.pos / 8 = s.byteOff.toNat + s.bitOff.val / 8 := by
  simp only [State.pos]
  omega

theorem exec_putbits {v : Word} {n : Byte} {s : State} (hs : s.fault = none)
    (hm : s.mode = .fresh ∨ s.mode = .wr) (hn1 : 1 ≤ n.toNat) (hn : n.toNat ≤ 56) (hv : v.toNat < 2 ^ n.toNat)
    (hb : s.bitOff.val ≤ 63) (hin : s.bitOff.val / 8 = 0 ∨ s.pos / 8 ≤ s.memSize) :
    exec (.putbits v n) s = .next (reply .ok 0#64 ((putState v n.toNat s).setMode .wr)) := by
  have hput : putBits v n.toNat s = .done () (putState v n.toNat s) := by
    rw [State.pos_div] at hin
    rw [putBits_eq, if_neg (by omega), if_neg (by omega)]
  show execPutbits v n s = _
  rw [execPutbits, State.faulted_eq_false hs, (Mode.admitsWrite_iff _).2 hm, (writeCountOk_iff n).2 ⟨hn1, hn⟩,
    (fitsIn_iff v _).2 hv, hput]
  rfl

theorem exec_finalize {s : State} (hs : s.fault = none) (hm : s.mode = .fresh ∨ s.mode = .wr)
    (hb : s.bitOff.val ≤ 63) (hw : s.memSize ≤ 2 ^ 60) (hin : (s.pos + 7) / 8 ≤ s.memSize) :
    exec .finalize s = .next (reply .ok s.closed.byteOff (s.closed.setMode .done)) := by
  have hfin : finalW s = .done () s.closed := by
    have hpos : s.pos = 8 * s.byteOff.toNat + s.bitOff.val := rfl
    rw [finalW_eq s (by omega), if_neg (by omega), if_neg (by omega), if_neg (by omega)]
  show execFinalize s = _
  rw [execFinalize, State.faulted_eq_false hs, (Mode.admitsWrite_iff _).2 hm, hfin]
  rfl

/-- Output is a matter of the cursor and the buffer: the answer of a command and its mode do not count. -/
theorem OutputExtends.answered {s t : State} {bits : List Bool} (h : OutputExtends s t bits) (m : Mode)
    (st : Status) (v : Word) : OutputExtends s (reply st v (t.setMode m)) bits :=
  ⟨h.pos, h.earlier, h.appended, h.clean, h.rises, h.elsewhere⟩

/-- Settles O32: the next state is `putState` with its answer, and `putState` appends the field. -/
theorem putbitsAppendsTheValuesBits : Obligations.PutbitsAppendsTheValuesBits := by
  intro v n s hs hm hn1 hn hv hc hform hw hin
  have hlt : s.byteOff.toNat + s.bitOff.val / 8 < 2 ^ 64 := by
    rw [State.pos_div] at hin
    omega
  have hkept := putState_control v n.toNat s
  exact ⟨_, exec_putbits hs hm hn1 hn hv hc.1 hin, (putState_extends hform hc hn1 hn hlt).answered .wr .ok 0#64,
    putState_byteOff v n.toNat s hlt, putState_bitOff v s hn, rfl, rfl, hkept.fault.trans hs, hkept.acc, hkept.p,
    hkept.cap, hkept.memSize, hkept.inputs⟩

/-! ### The pass -/

/-- A bit-level write pass opened at `s` has put out `bits` and is at `t`. -/
structure WritePass (s t : State) (bits : List Bool) : Prop where
  unfaulted : t.fault = none
  admits : t.mode = .fresh ∨ t.mode = .wr
  form : Memory.wf t.mem
  memSize : t.memSize = s.memSize
  output : OutputExtends s t bits

theorem WritePass.nil {s : State} (hs : s.fault = none) (hm : s.mode = .fresh ∨ s.mode = .wr)
    (hform : Memory.wf s.mem) (hc : Clean s) : WritePass s s [] :=
  ⟨hs, hm, hform, rfl, OutputExtends.refl hc⟩

/-- A field `PUTBITS` takes: a count of 1..56 and a value that fits it (R127, R206). -/
def FieldOk (f : Word × Byte) : Prop := 1 ≤ f.2.toNat ∧ f.2.toNat ≤ 56 ∧ f.1.toNat < 2 ^ f.2.toNat

/-- One `PUTBITS` of a pass whose output so far is inside the window. -/
theorem WritePass.put {s t : State} {bits : List Bool} {f : Word × Byte} (h : WritePass s t bits) (hf : FieldOk f)
    (hw : s.memSize ≤ 2 ^ 60) (hin : (s.pos + bits.length) / 8 ≤ s.memSize) :
    (issue (.putbits f.1 f.2) t).answeredOk = true ∧
      WritePass s (issue (.putbits f.1 f.2) t) (bits ++ bitsOf f.1.toNat f.2.toNat) := by
  obtain ⟨hn1, hn, hv⟩ := hf
  have hc := h.output.clean
  have hpos : t.pos / 8 ≤ t.memSize := by rw [h.output.pos, h.memSize]; exact hin
  have hlt : t.byteOff.toNat + t.bitOff.val / 8 < 2 ^ 64 := by
    have := h.memSize
    rw [State.pos_div] at hpos
    omega
  have hkept := putState_control f.1 f.2.toNat t
  have hput := putState_extends (v := f.1) h.form hc hn1 hn hlt
  rw [issue_of_next (exec_putbits h.unfaulted h.admits hn1 hn hv hc.1 (.inr hpos))]
  exact ⟨(State.answeredOk_iff _).2 ⟨0#64, rfl⟩, hkept.fault.trans h.unfaulted, .inr rfl, t.drained_wf h.form,
    hkept.memSize.trans h.memSize, h.output.trans (hput.answered .wr .ok 0#64)⟩

@[simp] theorem fieldStream_nil : fieldStream [] = [] := rfl

@[simp] theorem fieldStream_cons (f : Word × Byte) (fs : List (Word × Byte)) :
    fieldStream (f :: fs) = bitsOf f.1.toNat f.2.toNat ++ fieldStream fs := rfl

/-- The `PUTBITS` of a list of fields whose stream fits the window. -/
theorem WritePass.putAll {s t : State} {bits : List Bool} {fs : List (Word × Byte)} (h : WritePass s t bits)
    (hfs : ∀ f ∈ fs, FieldOk f) (hw : s.memSize ≤ 2 ^ 60)
    (hin : (s.pos + (bits ++ fieldStream fs).length) / 8 ≤ s.memSize) :
    allAnsweredOk (fs.map fun f => .putbits f.1 f.2) t = true ∧
      WritePass s (issueAll (fs.map fun f => .putbits f.1 f.2) t) (bits ++ fieldStream fs) := by
  induction fs generalizing t bits with
  | nil => simpa using h
  | cons f fs ih =>
    rw [List.length_append] at hin
    obtain ⟨hok, hput⟩ := h.put (hfs f (by simp)) hw (by omega)
    obtain ⟨hoks, hall⟩ := ih hput (fun g hg => hfs g (by simp [hg])) (by
      rwa [List.append_assoc, ← fieldStream_cons, List.length_append])
    rw [List.append_assoc, ← fieldStream_cons] at hall
    exact ⟨by rw [List.map_cons, allAnsweredOk_cons, hok, hoks, Bool.and_self], hall⟩

/-- `FINALIZE` ends a pass that fits the window well: from the opening position on the buffer holds the pass's bits
and zeros to the byte, and it is unchanged from the new `BYTEOFF` on. -/
theorem WritePass.finalize {s u : State} {bits : List Bool} (h : WritePass s u bits) (hw : s.memSize ≤ 2 ^ 60)
    (hin : (s.pos + bits.length + 7) / 8 ≤ s.memSize) :
    ∃ t n, EndedWell .finalize u t n ∧ n.toNat = (s.pos + bits.length + 7) / 8 ∧
      (∀ j, j < bits.length → bits[j]? = some (Memory.streamBit t.mem (s.pos + j))) ∧
      (∀ k, s.pos + bits.length ≤ k → k < 8 * n.toNat → Memory.streamBit t.mem k = false) ∧
      (∀ a, n.toNat ≤ a → Memory.read t.mem a = Memory.read s.mem a) := by
  have hc := h.output.clean
  have hmem := h.memSize
  have hpos := h.output.pos
  have hbytes : u.byteOff.toNat + (u.bitOff.val + 7) / 8 = (s.pos + bits.length + 7) / 8 := by
    rw [← hpos]
    simp only [State.pos]
    omega
  have hlt : u.byteOff.toNat + (u.bitOff.val + 7) / 8 < 2 ^ 64 := by omega
  have hexec := exec_finalize h.unfaulted h.admits hc.1 (by omega) (by omega)
  have hn : u.closed.byteOff.toNat = (s.pos + bits.length + 7) / 8 := by
    rw [u.closed_byteOff hlt, hbytes]
  have hstored : ∀ k, k < 8 * u.closed.byteOff.toNat → Memory.streamBit u.closed.mem k = u.outBit k := fun k hk =>
    u.streamBit_closed h.form hc.1 hlt (by omega)
  refine ⟨_, u.closed.byteOff, ⟨rfl, hexec, rfl⟩, hn, fun j hj => ?_, fun k hk1 hk2 => ?_, fun a ha => ?_⟩
  · rw [h.output.appended j hj]
    exact congrArg some (hstored _ (by omega)).symm
  · exact (hstored k hk2).trans (hc.outBit_past (by omega))
  · have hread : Memory.read u.closed.mem a = Memory.read u.mem a := by
      rw [u.read_closed h.form hc.1 hlt, if_neg (by omega)]
    exact hread.trans (h.output.elsewhere a (.inr (by omega)))

theorem clean_zeroCursor (s : State) : Clean (zeroCursor s) := by simp [Clean]

/-- `INIT` in an unfaulted block (R100). -/
theorem exec_init {s : State} (hs : s.fault = none) :
    exec .init s = .next (reply .ok 0#64 ((zeroCursor s).setMode .fresh)) := by
  show execInit s = _
  rw [execInit, State.faulted_eq_false hs]
  rfl

/-- Settles O54: `INIT` opens the pass at position 0, each `PUTBITS` appends its field, `FINALIZE` stores the rest. -/
theorem bitLevelPassWritesTheStream : Obligations.BitLevelPassWritesTheStream := by
  rintro s u fields hs hform hw hfields hin rfl
  have hinit := issue_of_next (exec_init hs)
  have hopen : WritePass (issue .init s) (issue .init s) [] := by
    rw [hinit]
    exact .nil hs (.inl rfl) hform (clean_zeroCursor s)
  have hpos : (issue .init s).pos = 0 := by rw [hinit]; rfl
  have hmem : (issue .init s).mem = s.mem := by rw [hinit]; rfl
  have hsize : (issue .init s).memSize = s.memSize := by rw [hinit]; rfl
  have hok : (issue .init s).answeredOk = true := by rw [hinit]; rfl
  obtain ⟨hoks, hpass⟩ := hopen.putAll hfields (by omega) (by
    rw [hpos, hsize, List.nil_append]
    omega)
  rw [List.nil_append] at hpass
  obtain ⟨t, n, hend, hn, hbits, hzeros, hrest⟩ := hpass.finalize (by omega) (by rw [hpos, hsize]; omega)
  simp only [hpos, Nat.zero_add] at hn hbits hzeros
  rw [hmem] at hrest
  exact ⟨by rw [allAnsweredOk_cons, hok, hoks, Bool.and_self], t, n, hend, hn, hbits, hzeros, hrest⟩

end Sys2Proof.Machine
end

section
/-! The codec registers: who writes `CAP`, `ACC` and `P`, and who reads `CAP` (R27, R28, R29, R165). -/

namespace Sys2Proof.Machine

/-! ### What an outcome leaves -/

/-- Whenever the outcome is a next state, it meets `P`. -/
def Leaves (P : State → Prop) (o : Host.Outcome State Fault Refusal) : Prop := ∀ t, o = .next t → P t

theorem Leaves.next {P : State → Prop} {t : State} (h : P t) : Leaves P (.next t) := by
  rintro _ ⟨⟩
  exact h

/-- A check of a rule (R213): the state it ends the command in, or the rest of the rule once it has passed. -/
theorem Leaves.check {P : State → Prop} {Q : Prop} [Decidable Q] {t : State}
    {o : Host.Outcome State Fault Refusal} (ht : P t) (ho : ¬Q → Leaves P o) :
    Leaves P (if Q then .next t else o) := by
  split
  · exact .next ht
  · next hq => exact ho hq

/-! ### The writers of the codec registers -/

/-- `CAP`, `ACC` and `P`, the parameter and the coming events are the same. -/
structure SameCodec (s t : State) : Prop where
  cap : t.cap = s.cap
  acc : t.acc = s.acc
  p : t.p = s.p
  memSize : t.memSize = s.memSize
  inputs : t.inputs = s.inputs

theorem SameCodec.refl (s : State) : SameCodec s s := ⟨rfl, rfl, rfl, rfl, rfl⟩

theorem SameControl.codec {s t : State} (h : SameControl s t) : SameCodec s t :=
  ⟨h.cap, h.acc, h.p, h.memSize, h.inputs⟩

theorem SameCodec.reply {s t : State} (h : SameCodec s t) (st : Status) (v : Word) :
    SameCodec s (reply st v t) := ⟨h.cap, h.acc, h.p, h.memSize, h.inputs⟩

theorem SameCodec.setMode {s t : State} (h : SameCodec s t) (m : Mode) : SameCodec s (t.setMode m) :=
  ⟨h.cap, h.acc, h.p, h.memSize, h.inputs⟩

theorem SameCodec.raiseFault {s t : State} (h : SameCodec s t) (c : FaultCode) :
    SameCodec s (raiseFault c t) := ⟨h.cap, h.acc, h.p, h.memSize, h.inputs⟩

/-- A command's micro-operations keep the codec registers, and so does its end if its answer does. -/
theorem SameCodec.finish {α : Type} {s : State} {m : Micro α} {k : α → State → State}
    (hm : SameControl s m.endState) (hk : ∀ v t, SameCodec s t → SameCodec s (k v t)) :
    SameCodec s (m.finish k) := by
  cases m with
  | done v t => exact hk v t hm.codec
  | raised c t => exact hm.codec.raiseFault c

theorem readField_codec (n : Byte) (s : State) : SameCodec s (readField n s) := by
  have hs := SameCodec.refl s
  unfold readField
  split
  · exact hs.raiseFault .seq
  · split
    · exact hs.raiseFault .count
    · exact .finish (getBits_control _ s) fun v t ht => (ht.setMode .rd).reply .ok v

theorem endSession_codec (s : State) : SameCodec s (endSession s) := by
  refine .finish (finalW_control s) fun _ t ht => ?_
  split
  · exact (ht.setMode .done).reply .eEmpty _
  · exact (ht.setMode .done).reply .ok _

/-- The command writes `CAP`, `ACC` or `P`. -/
def writesCodec : Instr → Bool
  | .encgStart _ => true
  | .encgItem _ => true
  | .encfStart _ => true
  | .wrreg .cap _ => true
  | _ => false

theorem writeReg_codec {r : Reg} (hr : r ≠ .cap) (v : Word) (s : State) : SameCodec s (writeReg r v s) := by
  cases r with
  | cap => exact absurd rfl hr
  | _ => exact ⟨rfl, rfl, rfl, rfl, rfl⟩

/-- A command that is none of the writers leaves the codec registers. -/
theorem exec_codec {i : Instr} (hi : writesCodec i = false) (s : State) : Leaves (SameCodec s) (exec i s) := by
  have hs := SameCodec.refl s
  have hrefused : SameCodec s (refuse s) := hs.reply _ _
  have hfault := fun c => hs.raiseFault c
  cases i with
  | init => exact .check hrefused fun _ => .next ⟨rfl, rfl, rfl, rfl, rfl⟩
  | getbits n => exact .check hrefused fun _ => .next (readField_codec n s)
  | putbits v n =>
    exact .check hrefused fun _ => .check (hfault _) fun _ => .check (hfault _) fun _ => .check (hfault _) fun _ =>
      .next <| .finish (putBits_control v _ s) fun _ _ ht => (ht.setMode .wr).reply .ok _
  | finalize =>
    exact .check hrefused fun _ => .check (hfault _) fun _ =>
      .next <| .finish (finalW_control s) fun _ _ ht => (ht.setMode .done).reply .ok _
  | decg p =>
    refine .check hrefused fun _ => .check (hfault _) fun _ => .check (hfault _) fun _ =>
      .next <| .finish (readItem_control _ s) fun item t ht => ?_
    split
    · exact (ht.setMode .rd).reply .ok _
    · exact ht.raiseFault .ovf
  | decf p => exact .check hrefused fun _ => .next (readField_codec p s)
  | encgStart p => exact nomatch hi
  | encgItem v => exact nomatch hi
  | encgEnd => exact .check hrefused fun _ => .check (hfault _) fun _ => .next (endSession_codec s)
  | encfStart p => exact nomatch hi
  | encfItem v =>
    exact .check hrefused fun _ => .check (hfault _) fun _ => .check (hfault _) fun _ =>
      .next <| .finish (putBits_control v _ s) fun _ _ ht => ht.reply .ok _
  | encfEnd => exact .check hrefused fun _ => .check (hfault _) fun _ => .next (endSession_codec s)
  | rdreg r => exact .next (hs.reply _ _)
  | wrreg r v =>
    have hr : r ≠ .cap := by rintro rfl; exact nomatch hi
    exact .check hrefused fun _ => .check (hfault _) fun _ => .check (hfault _) fun _ => .check (hfault _) fun _ =>
      .next ((writeReg_codec hr v s).reply _ _)

/-- What R27, R28 and R29 leave a command: the registers it is no writer of, the parameter and the coming events
stay. -/
structure CodecFrame (i : Instr) (s t : State) : Prop where
  cap : (∀ v, i ≠ .wrreg .cap v) → t.cap = s.cap
  acc : (∀ p, i ≠ .encgStart p) → (∀ v, i ≠ .encgItem v) → t.acc = s.acc
  p : (∀ p, i ≠ .encgStart p) → (∀ p, i ≠ .encfStart p) → t.p = s.p
  memSize : t.memSize = s.memSize
  inputs : t.inputs = s.inputs

theorem SameCodec.frame {s t : State} (h : SameCodec s t) (i : Instr) : CodecFrame i s t :=
  ⟨fun _ => h.cap, fun _ _ => h.acc, fun _ _ => h.p, h.memSize, h.inputs⟩

/-- The three commands of the encoders that are writers keep the registers they do not write. -/
theorem exec_codecFrame (i : Instr) (s : State) : Leaves (CodecFrame i s) (exec i s) := by
  have hs := SameCodec.refl s
  have hrefused := (hs.reply .refused 0#64).frame i
  have hfault := fun c => (hs.raiseFault c).frame i
  by_cases hi : writesCodec i = false
  · exact fun t ht => (exec_codec hi s t ht).frame i
  · cases i with
    | encgStart p =>
      exact .check hrefused fun _ => .check (hfault _) fun _ => .check (hfault _) fun _ =>
        .check ((hs.reply _ _).frame _) fun _ =>
          .next ⟨fun _ => rfl, fun h => absurd rfl (h p), fun h => absurd rfl (h p), rfl, rfl⟩
    | encfStart p =>
      exact .check hrefused fun _ => .check (hfault _) fun _ => .check (hfault _) fun _ =>
        .check ((hs.reply _ _).frame _) fun _ =>
          .next ⟨fun _ => rfl, fun _ _ => rfl, fun _ h => absurd rfl (h p), rfl, rfl⟩
    | encgItem v =>
      have hitem := SameCodec.finish (k := fun _ t => if capacityReached t.byteOff t.cap
          then reply .eCapacity 0#64 (t.setMode .done) else reply .ok 0#64 t)
        (putItem_control (deltaOf v s.acc) s.p.val (s.setAcc (s.acc + deltaOf v s.acc))) fun _ t ht => by
          split
          · exact (ht.setMode .done).reply _ _
          · exact ht.reply _ _
      exact .check hrefused fun _ => .check (hfault _) fun _ =>
        .next ⟨fun _ => hitem.cap, fun _ h => absurd rfl (h v), fun _ _ => hitem.p, hitem.memSize, hitem.inputs⟩
    | wrreg r v =>
      obtain rfl : r = .cap := by
        cases r with
        | cap => rfl
        | _ => exact absurd rfl hi
      exact .check hrefused fun _ => .check (hfault _) fun _ => .check (hfault _) fun _ => .check (hfault _) fun _ =>
        .next ⟨fun h => absurd rfl (h v), fun _ _ => rfl, fun _ _ => rfl, rfl, rfl⟩
    | _ => exact absurd rfl hi

/-- Settles O14: each command's `CodecFrame`. -/
theorem codecRegistersHaveTheirOwnWriters : Obligations.CodecRegistersHaveTheirOwnWriters := by
  intro i s t h
  obtain ⟨hcap, hacc, hp, hsize, hinputs⟩ := exec_codecFrame i s t h
  exact ⟨hcap, hacc, hp, hsize, hinputs⟩

/-! ### The readers of `CAP` -/

/-- How a micro-operation ends, with another `CAP` in the state it ends in. -/
def Micro.setCap {α : Type} (c : Word) : Micro α → Micro α
  | .done v s => .done v (s.setCap c)
  | .raised f s => .raised f (s.setCap c)

/-- The micro-operation does the same whatever `CAP` holds. -/
def IgnoresCap {α : Type} (m : State → Micro α) : Prop := ∀ (s : State) (c : Word), m (s.setCap c) = (m s).setCap c

theorem IgnoresCap.done {α : Type} (v : α) : IgnoresCap (Micro.done v) := fun _ _ => rfl

theorem IgnoresCap.andThen {α β : Type} {m : State → Micro α} {k : α → State → Micro β} (hm : IgnoresCap m)
    (hk : ∀ v, IgnoresCap (k v)) : IgnoresCap fun s => (m s).andThen k := by
  intro s c
  simp only [hm s c]
  cases m s with
  | done v t => exact hk v t c
  | raised f t => rfl

theorem refill_ignoresCap : IgnoresCap refill := by
  intro s c
  rw [refill_eq s, apply_ite (Micro.setCap c)]
  exact refill_eq (s.setCap c)

theorem getBits_ignoresCap (n : Nat) : IgnoresCap (getBits n) :=
  refill_ignoresCap.andThen fun _ _ _ => rfl

theorem readUnaryFuel_ignoresCap (fuel q : Nat) : IgnoresCap (readUnaryFuel fuel q) := by
  induction fuel generalizing q with
  | zero => exact fun _ _ => rfl
  | succ fuel ih =>
    refine (getBits_ignoresCap 1).andThen fun b => ?_
    split
    · exact ih (q + 1)
    · exact .done q

theorem readItem_ignoresCap (p : Nat) : IgnoresCap (readItem p) :=
  IgnoresCap.andThen (fun s => readUnaryFuel_ignoresCap (8 * s.memSize) 0 s) fun q =>
    (getBits_ignoresCap p).andThen fun r => .done (q, r)

theorem refillW_ignoresCap : IgnoresCap refillW := by
  intro s c
  rw [refillW_eq s, apply_ite (Micro.setCap c), apply_ite (Micro.setCap c)]
  exact refillW_eq (s.setCap c)

theorem putBits_ignoresCap (v : Word) (n : Nat) : IgnoresCap (putBits v n) :=
  refillW_ignoresCap.andThen fun _ _ _ => rfl

theorem State.memWrite_setCap (s : State) (c : Word) (a n v : Nat) :
    (s.setCap c).memWrite a n v = (s.memWrite a n v).map fun t => t.setCap c := by
  rw [State.memWrite_eq s, apply_ite (Option.map _)]
  exact State.memWrite_eq (s.setCap c) a n v

theorem putPartialByte_ignoresCap : IgnoresCap putPartialByte := by
  intro s c
  simp only [putPartialByte, State.setCap_bitOff, State.setCap_byteOff, State.setCap_lookahead,
    State.memWrite_setCap]
  split
  · rfl
  · cases s.memWrite s.byteOff.toNat 1 (s.lookahead.toNat / 2 ^ 56) <;> rfl

theorem finalW_ignoresCap : IgnoresCap finalW :=
  refillW_ignoresCap.andThen fun _ => putPartialByte_ignoresCap

/-- The second outcome is the first with another `CAP` in the next state. -/
def SameButCap (c : Word) (o o' : Host.Outcome State Fault Refusal) : Prop :=
  ∀ t, o = .next t → o' = .next (t.setCap c)

theorem SameButCap.next {c : Word} {t t' : State} (h : t' = t.setCap c) : SameButCap c (.next t) (.next t') := by
  rintro _ ⟨⟩
  rw [h]

/-- A check that does not look at `CAP`. -/
theorem SameButCap.check {Q : Prop} [Decidable Q] {c : Word} {t t' : State}
    {o o' : Host.Outcome State Fault Refusal} (ht : t' = t.setCap c) (ho : SameButCap c o o') :
    SameButCap c (if Q then .next t else o) (if Q then .next t' else o') := by
  split
  · exact .next ht
  · exact ho

theorem IgnoresCap.finish {α : Type} {m : State → Micro α} {k : α → State → State} (hm : IgnoresCap m)
    (hk : ∀ v s c, k v (s.setCap c) = (k v s).setCap c) (s : State) (c : Word) :
    (m (s.setCap c)).finish k = ((m s).finish k).setCap c := by
  rw [hm s c]
  cases m s with
  | done v t => exact hk v t c
  | raised f t => rfl

theorem readField_setCap (n : Byte) (s : State) (c : Word) :
    readField n (s.setCap c) = (readField n s).setCap c := by
  have hread := (getBits_ignoresCap n.toNat).finish (k := fun v t => reply .ok v (t.setMode .rd))
    (fun _ _ _ => rfl) s c
  simp only [readField, State.setCap_mode, hread]
  split
  · rfl
  · split <;> rfl

theorem setCap_ite {Q : Prop} [Decidable Q] (s t : State) (c : Word) :
    (if Q then s else t).setCap c = if Q then s.setCap c else t.setCap c :=
  apply_ite (fun u : State => u.setCap c) Q s t

theorem endSession_setCap (s : State) (c : Word) : endSession (s.setCap c) = (endSession s).setCap c :=
  finalW_ignoresCap.finish (fun _ t c => by rw [setCap_ite]; rfl) s c

theorem readReg_setCap {r : Reg} (hr : r ≠ .cap) (s : State) (c : Word) :
    readReg r (s.setCap c) = readReg r s := by
  cases r with
  | cap => exact absurd rfl hr
  | _ => rfl

theorem writeReg_setCap {r : Reg} (hr : r ≠ .cap) (v : Word) (s : State) (c : Word) :
    writeReg r v (s.setCap c) = (writeReg r v s).setCap c := by
  cases r with
  | cap => exact absurd rfl hr
  | _ => rfl

/-- Settles O15: the checks of a command, its micro-operations and its answer do not look at `CAP`, but for the
capacity check and the two accesses of `CAP`. -/
theorem capFeedsOnlyTheGolombItem : Obligations.CapFeedsOnlyTheGolombItem := by
  intro i s t c hitem hrd hwr h
  suffices hsame : SameButCap c (exec i s) (exec i (s.setCap c)) from hsame t h
  cases i with
  | init => exact .check rfl <| .next rfl
  | getbits n => exact .check rfl <| .next (readField_setCap n s c)
  | putbits v n =>
    exact .check rfl <| .check rfl <| .check rfl <| .check rfl <| .next <|
      (putBits_ignoresCap v _).finish (fun _ _ _ => rfl) s c
  | finalize => exact .check rfl <| .check rfl <| .next <| finalW_ignoresCap.finish (fun _ _ _ => rfl) s c
  | decg p =>
    exact .check rfl <| .check rfl <| .check rfl <| .next <|
      (readItem_ignoresCap p.toNat).finish (fun item t c => by rw [setCap_ite]; rfl) s c
  | decf p => exact .check rfl <| .next (readField_setCap p s c)
  | encgStart p => exact .check rfl <| .check rfl <| .check rfl <| .check rfl <| .next rfl
  | encgItem v => exact absurd rfl (hitem v)
  | encgEnd => exact .check rfl <| .check rfl <| .next (endSession_setCap s c)
  | encfStart p => exact .check rfl <| .check rfl <| .check rfl <| .check rfl <| .next rfl
  | encfItem v =>
    exact .check rfl <| .check rfl <| .check rfl <| .next <|
      (putBits_ignoresCap v _).finish (fun _ _ _ => rfl) s c
  | encfEnd => exact .check rfl <| .check rfl <| .next (endSession_setCap s c)
  | rdreg r =>
    have hr : r ≠ .cap := fun hr => hrd (by rw [hr])
    exact .next (congrArg (fun v => (reply .ok v s).setCap c) (readReg_setCap hr s c))
  | wrreg r v =>
    have hr : r ≠ .cap := fun hr => hwr v (by rw [hr])
    exact .check rfl <| .check rfl <| .check rfl <| .check rfl <| .next <|
      congrArg (reply .ok 0#64) (writeReg_setCap hr v s c)

end Sys2Proof.Machine
end

section
/-! The invariant of the block: every micro-operation keeps the buffer, the write side keeps a session in order, and so
every step keeps `Inv` (R33, R52, R143, R146). -/

namespace Sys2Proof.Machine

/-! ### The parts of the invariant -/

/-- The part of `Inv` that every micro-operation keeps: the window's size is in range, the buffer is in canonical
form and inside the window. -/
structure BufferOk (s : State) : Prop where
  window : WindowOk s
  form : Memory.wf s.mem
  inside : ∀ c ∈ s.mem, c.1 < s.memSize

theorem Inv.buffer {s : State} (h : Inv s) : BufferOk s := by
  obtain ⟨hwindow, hform, hinside, -, -⟩ := h
  exact ⟨hwindow, hform, hinside⟩

theorem Inv.session {s : State} (h : Inv s) (hs : InSession s) : SessionOk s := by
  obtain ⟨-, -, -, hsession, -⟩ := h
  exact hsession hs

/-- Outside a session the invariant is about the buffer alone. -/
theorem BufferOk.inv {s : State} (h : BufferOk s) (hs : ¬ InSession s) : Inv s :=
  ⟨h.window, h.form, h.inside, fun hin => absurd hin hs, fun _ hm => absurd (.inl hm) hs⟩

/-- The invariant does not look at the response. -/
theorem Inv.reply {s : State} (h : Inv s) (st : Status) (v : Word) : Inv (reply st v s) := h

/-- A latched fault ends the claim about the margin. -/
theorem Inv.raiseFault {s : State} (h : Inv s) (c : FaultCode) : Inv (raiseFault c s) := by
  obtain ⟨hwindow, hform, hinside, hsession, -⟩ := h
  exact ⟨hwindow, hform, hinside, hsession, nofun⟩

theorem BufferOk.congr {s t : State} (h : BufferOk s) (hmem : t.mem = s.mem) (hsize : t.memSize = s.memSize) :
    BufferOk t := by
  refine ⟨?_, hmem ▸ h.form, ?_⟩
  · rw [WindowOk, hsize]; exact h.window
  · rw [hmem, hsize]; exact h.inside

/-- Bytes stored inside a window (R52) leave every listed byte inside it. -/
theorem Memory.writeBytes_inside {m : Memory} {a n v size : Nat} (h : ∀ c ∈ m, c.1 < size)
    (hin : n = 0 ∨ a + n ≤ size) : ∀ c ∈ Memory.writeBytes m a n v, c.1 < size := by
  intro c hc
  rcases hin with rfl | hin
  · exact h c hc
  · exact (Memory.mem_writeBytes hc).elim (h c) fun hlt => hlt.trans_le hin

theorem BufferOk.store {s : State} (h : BufferOk s) (a v : Nat) {n : Nat} (hin : n = 0 ∨ a + n ≤ s.memSize) :
    BufferOk (s.setMem (Memory.writeBytes s.mem a n v)) :=
  ⟨h.window, Memory.writeBytes_wf h.form a n v, Memory.writeBytes_inside h.inside hin⟩

/-! ### What a micro-operation keeps -/

/-- The micro-operation keeps `P`, whether it is done or raises a fault. -/
def Keeps {α : Type} (P : State → Prop) (m : State → Micro α) : Prop := ∀ s, P s → P (m s).endState

theorem Keeps.done {α : Type} {P : State → Prop} (v : α) : Keeps P (Micro.done v) := fun _ h => h

theorem Keeps.andThen {α β : Type} {P : State → Prop} {m : State → Micro α} {k : α → State → Micro β}
    (hm : Keeps P m) (hk : ∀ v, Keeps P (k v)) : Keeps P fun s => (m s).andThen k := by
  intro s hs
  have h := hm s hs
  simp only
  cases hms : m s with
  | done v t => rw [hms] at h; exact hk v t h
  | raised c t => rw [hms] at h; exact h

theorem refill_keepsBuffer : Keeps BufferOk refill := by
  intro s hs
  rw [refill_eq]
  split
  · exact hs
  · exact hs.congr rfl rfl

theorem getBits_keepsBuffer (n : Nat) : Keeps BufferOk (getBits n) :=
  refill_keepsBuffer.andThen fun _ _ ht => ht.congr rfl rfl

theorem readUnaryFuel_keepsBuffer (fuel q : Nat) : Keeps BufferOk (readUnaryFuel fuel q) := by
  induction fuel generalizing q with
  | zero => exact fun _ hs => hs
  | succ fuel ih =>
    refine (getBits_keepsBuffer 1).andThen fun b => ?_
    split
    · exact ih (q + 1)
    · exact .done q

theorem readItem_keepsBuffer (p : Nat) : Keeps BufferOk (readItem p) :=
  Keeps.andThen (fun s => readUnaryFuel_keepsBuffer (8 * s.memSize) 0 s) fun q =>
    (getBits_keepsBuffer p).andThen fun r => .done (q, r)

theorem refillW_keepsBuffer : Keeps BufferOk refillW := by
  intro s hs
  rw [refillW_eq]
  split
  · exact hs
  · split
    · exact hs
    · exact (hs.store s.byteOff.toNat _ (n := s.bitOff.val / 8) (by omega)).congr rfl rfl

theorem putBits_keepsBuffer (v : Word) (n : Nat) : Keeps BufferOk (putBits v n) :=
  refillW_keepsBuffer.andThen fun _ _ ht => ht.congr rfl rfl

theorem putPartialByte_keepsBuffer : Keeps BufferOk putPartialByte := by
  intro s hs
  unfold putPartialByte
  rw [State.memWrite_eq]
  split
  · exact hs
  · by_cases hout : 1 ≤ 1 ∧ s.memSize < s.byteOff.toNat + 1
    · simp only [if_pos hout]
      exact hs
    · simp only [if_neg hout]
      exact (hs.store s.byteOff.toNat _ (n := 1) (by omega)).congr rfl rfl

theorem finalW_keepsBuffer : Keeps BufferOk finalW :=
  refillW_keepsBuffer.andThen fun _ => putPartialByte_keepsBuffer

/-! ### The write side keeps a session ready -/

/-- A state inside a session is ready for a put. -/
theorem Inv.ready {s : State} (h : Inv s) (hs : InSession s) : Ready s := by
  obtain ⟨-, hclean, hoff⟩ := h.session hs
  have hbuf := h.buffer
  exact ⟨hbuf.window.2, hbuf.form, hbuf.inside, hclean, hoff⟩

theorem putBits_keepsReady (v : Word) {n : Nat} (hn1 : 1 ≤ n) (hn : n ≤ 56) : Keeps Ready (putBits v n) := by
  intro s hs
  by_cases hin : s.pos / 8 ≤ s.memSize
  · obtain ⟨hput, -, -, hready, -, -⟩ := putBits_ready (v := v) hs hn1 hn hin
    rw [hput]
    exact hready
  · rw [putBits_overrun hs.clean.1 hs.offset (by omega)]
    exact hs

theorem putOnes_keepsReady (q : Nat) : Keeps Ready (putOnes q) := by
  induction q with
  | zero => exact fun _ hs => hs
  | succ q ih => exact (putBits_keepsReady 1#64 (by decide) (by decide)).andThen fun _ => ih

theorem putItem_keepsReady (d : Word) {p : Nat} (hp1 : 1 ≤ p) (hp : p ≤ 56) : Keeps Ready (putItem d p) :=
  (putOnes_keepsReady _).andThen fun _ =>
    (putBits_keepsReady 0#64 (by decide) (by decide)).andThen fun _ => putBits_keepsReady _ hp1 hp

/-- A drain inside the window (R121). -/
theorem Ready.drained {s : State} (h : Ready s)
    (hin : s.bitOff.val / 8 = 0 ∨ s.byteOff.toNat + s.bitOff.val / 8 ≤ s.memSize) : Ready s.drained := by
  have hw := h.window
  have hoff := h.offset
  refine ⟨hw, s.drained_wf h.form, Memory.writeBytes_inside h.inside hin, s.drained_clean h.clean, ?_⟩
  rw [s.drained_byteOff (by omega), s.drained_control.memSize]
  omega

/-- A fault of the final drain (R124), raised before the drain or after it, leaves a session ready. -/
theorem finalW_raised_ready {s t : State} {c : FaultCode} (hs : Ready s) (h : finalW s = .raised c t) :
    Ready t := by
  have hw := hs.window
  have hoff := hs.offset
  rw [finalW_eq s (by omega)] at h
  split at h
  · cases h; exact hs
  · split at h
    · cases h; exact hs
    · split at h
      · cases h; exact hs.drained (by omega)
      · cases h

/-! ### The ends of a command -/

theorem Ready.buffer {s t : State} (h : Ready t) (hs : Inv s) (hc : SameControl s t) : BufferOk t := by
  have hmin := hs.buffer.window.1
  rw [← hc.memSize] at hmin
  exact ⟨⟨hmin, h.window⟩, h.form, h.inside⟩

/-- Inside a session: the buffer and the session in order, and the margin if no fault is latched. -/
theorem Ready.inv {s t : State} (h : Ready t) (hs : Inv s) (hin : InSession s) (hc : SameControl s t)
    (hmargin : t.fault = none → t.mode = .encg → MarginOk t) : Inv t := by
  obtain ⟨hp, -, -⟩ := hs.session hin
  rw [← hc.p] at hp
  obtain ⟨hwindow, hform, hinside⟩ := h.buffer hs hc
  exact ⟨hwindow, hform, hinside, fun _ => ⟨hp, h.clean, h.offset⟩, hmargin⟩

/-- A fault raised inside a session. -/
theorem Ready.inv_raiseFault {s t : State} (h : Ready t) (hs : Inv s) (hin : InSession s) (hc : SameControl s t)
    (c : FaultCode) : Inv (raiseFault c t) := by
  have hready : Ready (raiseFault c t) := ⟨h.window, h.form, h.inside, h.clean, h.offset⟩
  have hstart : Inv (raiseFault c s) := hs.raiseFault c
  refine hready.inv hstart hin ⟨hc.acc, hc.p, hc.cap, hc.mode, ?_, hc.memSize, hc.inputs, rfl⟩ nofun
  rw [raiseFault_fault, raiseFault_fault, hc.fault]

/-- The modes outside a session, by any column of the admission table that has none of a session's. -/
theorem not_inSession_of_admits {s : State} (admits : Mode → Bool) (hg : admits .encg = false)
    (hf : admits .encf = false) (h : ¬ (!admits s.mode) = true) : ¬ InSession s := by
  rintro (hm | hm)
  · exact h (by rw [hm, hg]; rfl)
  · exact h (by rw [hm, hf]; rfl)

theorem inv_finish {α : Type} {m : Micro α} {k : α → State → State}
    (hdone : ∀ v t, m = .done v t → Inv (k v t)) (hraised : ∀ c t, m = .raised c t → Inv (raiseFault c t)) :
    Inv (m.finish k) := by
  cases m with
  | done v t => exact hdone v t rfl
  | raised c t => exact hraised c t rfl

/-- A command outside a session: its micro-operations keep the buffer, and it ends outside a session. -/
theorem inv_finish_outside {α : Type} {s : State} {m : State → Micro α} {k : α → State → State}
    (hb : BufferOk s) (hs : ¬ InSession s) (hm : Keeps BufferOk m) (hc : SameControl s (m s).endState)
    (hk : ∀ v t, BufferOk t → ¬ InSession t → Inv (k v t)) : Inv ((m s).finish k) := by
  have hend := hm s hb
  have houtside : ¬ InSession (m s).endState := by rwa [InSession, hc.mode]
  refine inv_finish (fun v t h => ?_) fun c t h => ?_
  · rw [h] at hend houtside
    exact hk v t hend houtside
  · rw [h] at hend houtside
    exact (BufferOk.inv hend houtside).raiseFault c

/-- A command inside a session: its micro-operations keep the session ready, and its end keeps the invariant. -/
theorem inv_finish_session {α : Type} {s : State} {m : State → Micro α} {k : α → State → State}
    (hs : Inv s) (hin : InSession s) (hm : Keeps Ready m) (hc : SameControl s (m s).endState)
    (hk : ∀ v t, Ready t → SameControl s t → Inv (k v t)) : Inv ((m s).finish k) := by
  have hend := hm s (hs.ready hin)
  refine inv_finish (fun v t h => ?_) fun c t h => ?_
  · rw [h] at hend hc
    exact hk v t hend hc
  · rw [h] at hend hc
    exact hend.inv_raiseFault hs hin hc c

/-- A command that has left a session, or was in none, is in a mode of its own. -/
theorem BufferOk.inv_setMode {s : State} (h : BufferOk s) (m : Mode) (hg : m ≠ .encg) (hf : m ≠ .encf) :
    Inv (s.setMode m) :=
  (h.congr (t := s.setMode m) rfl rfl).inv fun hm => hm.elim hg hf

/-! ### Each command -/

theorem readField_keepsInv (n : Byte) {s : State} (h : Inv s) : Inv (readField n s) := by
  unfold readField
  split
  · exact h.raiseFault .seq
  · next hm =>
    split
    · exact h.raiseFault .count
    · refine inv_finish_outside h.buffer (not_inSession_of_admits Mode.admitsRead rfl rfl hm)
        (getBits_keepsBuffer _) (getBits_control _ s) fun v t ht _ => ?_
      exact (ht.inv_setMode .rd nofun nofun).reply .ok v

theorem execDecg_keepsInv (p : Byte) {s : State} (h : Inv s) : Leaves Inv (execDecg p s) := by
  refine .check (h.reply _ _) fun _ => .check (h.raiseFault _) fun hm => .check (h.raiseFault _) fun _ => .next ?_
  refine inv_finish_outside h.buffer (not_inSession_of_admits Mode.admitsRead rfl rfl hm)
    (readItem_keepsBuffer _) (readItem_control _ s) fun item t ht houtside => ?_
  split
  · exact (ht.inv_setMode .rd nofun nofun).reply .ok _
  · exact (ht.inv houtside).raiseFault .ovf

theorem execPutbits_keepsInv (v : Word) (n : Byte) {s : State} (h : Inv s) : Leaves Inv (execPutbits v n s) := by
  refine .check (h.reply _ _) fun _ => .check (h.raiseFault _) fun hm => .check (h.raiseFault _) fun _ =>
    .check (h.raiseFault _) fun _ => .next ?_
  exact inv_finish_outside h.buffer (not_inSession_of_admits Mode.admitsWrite rfl rfl hm)
    (putBits_keepsBuffer v _) (putBits_control v _ s) fun _ t ht _ => (ht.inv_setMode .wr nofun nofun).reply .ok _

theorem execFinalize_keepsInv {s : State} (h : Inv s) : Leaves Inv (execFinalize s) := by
  refine .check (h.reply _ _) fun _ => .check (h.raiseFault _) fun hm => .next ?_
  exact inv_finish_outside h.buffer (not_inSession_of_admits Mode.admitsWrite rfl rfl hm)
    finalW_keepsBuffer (finalW_control s) fun _ t ht _ => (ht.inv_setMode .done nofun nofun).reply .ok _

/-- The end of a session (R148, R164): a fault of the final drain keeps the session, everything else ends it. -/
theorem endSession_keepsInv {s : State} (h : Inv s) (hin : InSession s) : Inv (endSession s) := by
  have hbuffer := finalW_keepsBuffer s h.buffer
  have hcontrol := finalW_control s
  refine inv_finish (fun _ t ht => ?_) fun c t ht => ?_
  · rw [ht] at hbuffer
    have hdone : Inv (t.setMode .done) := BufferOk.inv_setMode hbuffer .done nofun nofun
    split
    · exact hdone.reply _ _
    · exact hdone.reply _ _
  · rw [ht] at hcontrol
    exact (finalW_raised_ready (h.ready hin) ht).inv_raiseFault h hin hcontrol c

theorem one_le_widthOf {p : Byte} (hp0 : p ≠ 0#8) (hp : ¬ widthTooLarge p = true) : 1 ≤ (widthOf p.toNat).val := by
  have hle : p.toNat ≤ 56 := by
    rw [widthTooLarge, decide_eq_true_iff] at hp
    exact Nat.le_of_not_lt hp
  have hne : p.toNat ≠ 0 := fun h => hp0 (BitVec.eq_of_toNat_eq h)
  rw [widthOf_val hle]
  omega

/-- A session opened with a legal width starts in order: a clean cursor at position 0 (R141, R161). -/
theorem BufferOk.inv_start {s t : State} (h : BufferOk s) (hmem : t.mem = s.mem) (hsize : t.memSize = s.memSize)
    (hp : 1 ≤ t.p.val) (hlook : t.lookahead = 0#64) (hbit : t.bitOff = 0) (hbyte : t.byteOff = 0#64) : Inv t := by
  obtain ⟨hwindow, hform, hinside⟩ := h.congr hmem hsize
  have hclean : Clean t := by simp [Clean, hlook, hbit]
  have hpos : t.pos = 0 := by simp [State.pos, hbit, hbyte]
  exact ⟨hwindow, hform, hinside, fun _ => ⟨hp, hclean, by simp [hbyte]⟩, fun _ _ => .inl hpos⟩

theorem execEncgStart_keepsInv (p : Byte) {s : State} (h : Inv s) : Leaves Inv (execEncgStart p s) :=
  .check (h.reply _ _) fun _ => .check (h.raiseFault _) fun _ => .check (h.raiseFault _) fun hp0 =>
    .check (h.reply _ _) fun hp => .next <| h.buffer.inv_start rfl rfl (one_le_widthOf hp0 hp) rfl rfl rfl

theorem execEncfStart_keepsInv (p : Byte) {s : State} (h : Inv s) : Leaves Inv (execEncfStart p s) :=
  .check (h.reply _ _) fun _ => .check (h.raiseFault _) fun _ => .check (h.raiseFault _) fun hp0 =>
    .check (h.reply _ _) fun hp => .next <| h.buffer.inv_start rfl rfl (one_le_widthOf hp0 hp) rfl rfl rfl

theorem mode_encg_of_admits {m : Mode} (h : ¬ (!m.admitsGolombItem) = true) : m = .encg := by
  cases m with
  | encg => rfl
  | _ => exact absurd rfl h

theorem mode_encf_of_admits {m : Mode} (h : ¬ (!m.admitsFixedItem) = true) : m = .encf := by
  cases m with
  | encf => rfl
  | _ => exact absurd rfl h

/-- `ENCG.ITEM` (R143, R146): a session that goes on has passed the capacity check just made. -/
theorem execEncgItem_keepsInv (v : Word) {s : State} (h : Inv s) : Leaves Inv (execEncgItem v s) := by
  refine .check (h.reply _ _) fun _ => .check (h.raiseFault _) fun hm => .next ?_
  have hacc : Inv (s.setAcc (s.acc + deltaOf v s.acc)) := h
  have hin : InSession (s.setAcc (s.acc + deltaOf v s.acc)) := .inl (mode_encg_of_admits hm)
  obtain ⟨hp1, -, -⟩ := h.session (.inl (mode_encg_of_admits hm))
  refine inv_finish_session hacc hin (putItem_keepsReady (deltaOf v s.acc) hp1 (by omega))
    (putItem_control _ _ _) fun _ t ht hc => ?_
  split
  · exact ((ht.buffer hacc hc).inv_setMode .done nofun nofun).reply _ _
  · next hcap =>
    rw [capacityReached, decide_eq_true_iff] at hcap
    exact Inv.reply (ht.inv hacc hin hc fun _ _ => .inr (Nat.lt_of_not_le hcap)) _ _

/-- `ENCF.ITEM` (R162): no margin is claimed of a fixed-width session (R165). -/
theorem execEncfItem_keepsInv (v : Word) {s : State} (h : Inv s) : Leaves Inv (execEncfItem v s) := by
  refine .check (h.reply _ _) fun _ => .check (h.raiseFault _) fun hm => .check (h.raiseFault _) fun _ => .next ?_
  have hmode := mode_encf_of_admits hm
  obtain ⟨hp1, -, -⟩ := h.session (.inr hmode)
  refine inv_finish_session h (.inr hmode) (putBits_keepsReady v hp1 (by omega)) (putBits_control v _ s)
    fun _ t ht hc => ?_
  have hmargin : t.fault = none → t.mode = .encg → MarginOk t := fun _ hg => by
    rw [hc.mode, hmode] at hg
    cases hg
  exact Inv.reply (ht.inv h (.inr hmode) hc hmargin) _ _

/-- `WRREG` (R192) is admitted outside a session alone, and writes neither the buffer nor `MODE`. -/
theorem writeReg_keepsInv (r : Reg) (v : Word) {s : State} (h : Inv s) (hs : ¬ InSession s) :
    Inv (writeReg r v s) := by
  have hmem : (writeReg r v s).mem = s.mem := by cases r <;> rfl
  have hsize : (writeReg r v s).memSize = s.memSize := by cases r <;> rfl
  have hmode : (writeReg r v s).mode = s.mode := by cases r <;> rfl
  exact (h.buffer.congr hmem hsize).inv (by rwa [InSession, hmode])

theorem exec_keepsInv (i : Instr) {s : State} (h : Inv s) : Leaves Inv (exec i s) := by
  cases i with
  | init =>
    have hcursor : BufferOk (zeroCursor s) := h.buffer.congr rfl rfl
    exact .check (h.reply _ _) fun _ => .next ((hcursor.inv_setMode .fresh nofun nofun).reply _ _)
  | getbits n => exact .check (h.reply _ _) fun _ => .next (readField_keepsInv n h)
  | putbits v n => exact execPutbits_keepsInv v n h
  | finalize => exact execFinalize_keepsInv h
  | decg p => exact execDecg_keepsInv p h
  | decf p => exact .check (h.reply _ _) fun _ => .next (readField_keepsInv p h)
  | encgStart p => exact execEncgStart_keepsInv p h
  | encgItem v => exact execEncgItem_keepsInv v h
  | encgEnd =>
    exact .check (h.reply _ _) fun _ => .check (h.raiseFault _) fun hm =>
      .next (endSession_keepsInv h (.inl (mode_encg_of_admits hm)))
  | encfStart p => exact execEncfStart_keepsInv p h
  | encfItem v => exact execEncfItem_keepsInv v h
  | encfEnd =>
    exact .check (h.reply _ _) fun _ => .check (h.raiseFault _) fun hm =>
      .next (endSession_keepsInv h (.inr (mode_encf_of_admits hm)))
  | rdreg r => exact .next (h.reply _ _)
  | wrreg r v =>
    exact .check (h.reply _ _) fun _ => .check (h.raiseFault _) fun _ => .check (h.raiseFault _) fun hm =>
      .check (h.raiseFault _) fun _ =>
        .next (writeReg_keepsInv r v h (not_inSession_of_admits Mode.admitsRegWrite rfl rfl hm))

/-! ### Each event -/

theorem runCommand_keepsInv (w : CmdWord) {s : State} (h : Inv s) : Leaves Inv (runCommand w s) := by
  unfold runCommand
  split
  · next i _ => exact exec_keepsInv i h
  · refine .next ?_
    unfold illegalCommand
    split
    · exact h.reply _ _
    · exact h.raiseFault .cmd

/-- A host write inside the window (R243) changes the buffer alone. -/
theorem runPoke_keepsInv (a : Nat) (b : Byte) {s : State} (h : Inv s) : Leaves Inv (runPoke a b s) := by
  unfold runPoke
  split
  · exact fun _ ht => nomatch ht
  · next hin =>
    obtain ⟨hwindow, hform, hinside, hsession, hmargin⟩ := h
    refine .next ⟨hwindow, Memory.write_wf hform a b, fun c hc => ?_, hsession, hmargin⟩
    rcases Memory.mem_write hc with rfl | hc
    · have ha : a < s.memSize := by simpa [State.outOfWindow] using hin
      exact ha
    · exact hinside c hc

theorem runEvent_keepsInv (e : PortEvent) {s : State} (h : Inv s) : Leaves Inv (runEvent e s) := by
  cases e with
  | command w => exact runCommand_keepsInv w h
  | reset =>
    have hfresh : ¬ InSession (resetBlock s) := by rintro (hm | hm) <;> cases hm
    have hbuffer : BufferOk (resetBlock s) := h.buffer.congr rfl rfl
    exact .next (hbuffer.inv hfresh)
  | poke a b => exact runPoke_keepsInv a b h

/-- Settles O11: the step is the next event, and every event keeps the invariant. -/
theorem everyStepKeepsInv : Obligations.EveryStepKeepsInv := by
  intro s t h ht
  have hstep : step s = takeEvent s := rfl
  rw [hstep, takeEvent] at ht
  split at ht
  · exact Leaves.next h t ht
  · next e rest _ =>
    have hrest : Inv (s.setInputs rest) := h
    exact runEvent_keepsInv e hrest t ht

end Sys2Proof.Machine
end

section
/-! The buffer between commands: the write side stores from the old `BYTEOFF` up to the new one and nowhere else, a
drain that does not fit ends the command that needs it, and over-allocation keeps reads inside the window (R52, R56,
R59). -/

namespace Sys2Proof.Machine

/-! ### Commands that store nothing -/

/-- A command's end keeps what its micro-operations kept, if its answer and fault entry do. -/
theorem Micro.finish_of_endState {α : Type} {P : State → Prop} {m : Micro α} {k : α → State → State}
    (hm : P m.endState) (hk : ∀ v t, P t → P (k v t)) (hfault : ∀ c t, P t → P (raiseFault c t)) :
    P (m.finish k) := by
  cases m with
  | done v t => exact hk v t hm
  | raised c t => exact hfault c t hm

/-- The buffer holds `m`. -/
def Holds (m : Memory) (s : State) : Prop := s.mem = m

theorem refill_keepsHolds (m : Memory) : Keeps (Holds m) refill := by
  intro s hs
  rw [refill_eq]
  split <;> exact hs

theorem getBits_keepsHolds (m : Memory) (n : Nat) : Keeps (Holds m) (getBits n) :=
  (refill_keepsHolds m).andThen fun _ _ ht => ht

theorem readUnaryFuel_keepsHolds (m : Memory) (fuel q : Nat) : Keeps (Holds m) (readUnaryFuel fuel q) := by
  induction fuel generalizing q with
  | zero => exact fun _ hs => hs
  | succ fuel ih =>
    refine (getBits_keepsHolds m 1).andThen fun b => ?_
    split
    · exact ih (q + 1)
    · exact .done q

theorem readItem_keepsHolds (m : Memory) (p : Nat) : Keeps (Holds m) (readItem p) :=
  Keeps.andThen (fun s => readUnaryFuel_keepsHolds m (8 * s.memSize) 0 s) fun q =>
    (getBits_keepsHolds m p).andThen fun r => .done (q, r)

theorem readField_mem (n : Byte) (s : State) : Holds s.mem (readField n s) := by
  unfold readField
  split
  · rfl
  · split
    · rfl
    · exact Micro.finish_of_endState (getBits_keepsHolds s.mem _ s rfl) (fun _ _ ht => ht) fun _ _ ht => ht

/-- A command that is not of the write side leaves the buffer (R56). -/
theorem exec_keepsHolds {i : Instr} (hi : storesToBuffer i = false) (s : State) :
    Leaves (Holds s.mem) (exec i s) := by
  cases i with
  | init => exact .check rfl fun _ => .next rfl
  | getbits n => exact .check rfl fun _ => .next (readField_mem n s)
  | decg p =>
    refine .check rfl fun _ => .check rfl fun _ => .check rfl fun _ => .next <|
      Micro.finish_of_endState (readItem_keepsHolds s.mem _ s rfl) (fun item t ht => ?_) fun _ _ ht => ht
    split
    · exact ht
    · exact ht
  | decf p => exact .check rfl fun _ => .next (readField_mem p s)
  | encgStart p => exact .check rfl fun _ => .check rfl fun _ => .check rfl fun _ => .check rfl fun _ => .next rfl
  | encfStart p => exact .check rfl fun _ => .check rfl fun _ => .check rfl fun _ => .check rfl fun _ => .next rfl
  | rdreg r => exact .next rfl
  | wrreg r v =>
    have hwrite : (writeReg r v s).mem = s.mem := by cases r <;> rfl
    exact .check rfl fun _ => .check rfl fun _ => .check rfl fun _ => .check rfl fun _ => .next hwrite
  | _ => exact nomatch hi

/-! ### Commands of the write side -/

/-- From `s` to `t` the buffer changed in the window alone, between the two values of `BYTEOFF` (R56); what the next
store needs stands beside it. -/
structure StoresBelow (s t : State) : Prop where
  window : t.memSize ≤ 2 ^ 60
  form : Memory.wf t.mem
  memSize : t.memSize = s.memSize
  rises : s.byteOff.toNat ≤ t.byteOff.toNat
  changed : ∀ a, Memory.read t.mem a ≠ Memory.read s.mem a →
    s.byteOff.toNat ≤ a ∧ a < t.byteOff.toNat ∧ a < s.memSize

theorem StoresBelow.refl {s : State} (hw : s.memSize ≤ 2 ^ 60) (hm : Memory.wf s.mem) : StoresBelow s s :=
  ⟨hw, hm, rfl, le_rfl, fun _ h => absurd rfl h⟩

/-- The relation looks at the buffer, its size and `BYTEOFF` alone. -/
theorem StoresBelow.congr {s t u : State} (h : StoresBelow s t) (hmem : u.mem = t.mem)
    (hsize : u.memSize = t.memSize) (hoff : u.byteOff = t.byteOff) : StoresBelow s u := by
  refine ⟨hsize ▸ h.window, hmem ▸ h.form, hsize.trans h.memSize, hoff ▸ h.rises, ?_⟩
  rw [hmem, hoff]
  exact h.changed

/-- The store of a drain: `n` bytes at `BYTEOFF`, none or all inside the window, and `BYTEOFF` moved past them. -/
theorem StoresBelow.store {s t u : State} {n v : Nat} (h : StoresBelow s t)
    (hin : n = 0 ∨ t.byteOff.toNat + n ≤ t.memSize) (hsize : u.memSize = t.memSize)
    (hmem : u.mem = Memory.writeBytes t.mem t.byteOff.toNat n v)
    (hoff : u.byteOff = BitVec.ofNat 64 (t.byteOff.toNat + n)) : StoresBelow s u := by
  have hw := h.window
  have hrises := h.rises
  have hend : u.byteOff.toNat = t.byteOff.toNat + n := by
    rw [hoff, BitVec.toNat_ofNat, Nat.mod_eq_of_lt (by omega)]
  refine ⟨hsize ▸ hw, hmem ▸ Memory.writeBytes_wf h.form _ n v, hsize.trans h.memSize, by omega, fun a ha => ?_⟩
  rw [hmem, Memory.read_writeBytes h.form] at ha
  have hsame := h.memSize
  split at ha
  · omega
  · obtain ⟨hlow, hhigh, hinside⟩ := h.changed a ha
    omega

theorem refillW_keepsStores (s : State) : Keeps (StoresBelow s) refillW := by
  intro t h
  rw [refillW_eq]
  split
  · exact h
  · split
    · exact h
    · exact h.store (n := t.bitOff.val / 8) (by omega) rfl rfl rfl

theorem putBits_keepsStores (s : State) (v : Word) (n : Nat) : Keeps (StoresBelow s) (putBits v n) :=
  (refillW_keepsStores s).andThen fun _ _ h => h.congr rfl rfl rfl

theorem putOnes_keepsStores (s : State) (q : Nat) : Keeps (StoresBelow s) (putOnes q) := by
  induction q with
  | zero => exact fun _ h => h
  | succ q ih => exact (putBits_keepsStores s 1#64 1).andThen fun _ => ih

theorem putItem_keepsStores (s : State) (d : Word) (p : Nat) : Keeps (StoresBelow s) (putItem d p) :=
  (putOnes_keepsStores s _).andThen fun _ =>
    (putBits_keepsStores s 0#64 1).andThen fun _ => putBits_keepsStores s _ p

theorem putPartialByte_keepsStores (s : State) : Keeps (StoresBelow s) putPartialByte := by
  intro t h
  unfold putPartialByte
  rw [State.memWrite_eq]
  split
  · exact h
  · by_cases hout : 1 ≤ 1 ∧ t.memSize < t.byteOff.toNat + 1
    · simp only [if_pos hout]
      exact h
    · simp only [if_neg hout]
      exact h.store (n := 1) (by omega) rfl rfl rfl

theorem finalW_keepsStores (s : State) : Keeps (StoresBelow s) finalW :=
  (refillW_keepsStores s).andThen fun _ => putPartialByte_keepsStores s

/-- The end of a write-side command: its answer moves neither the buffer nor `BYTEOFF`. -/
theorem StoresBelow.finish {α : Type} {s : State} {m : Micro α} {k : α → State → State}
    (hm : StoresBelow s m.endState) (hk : ∀ v t, StoresBelow s t → StoresBelow s (k v t)) :
    StoresBelow s (m.finish k) :=
  Micro.finish_of_endState hm hk fun _ _ h => h.congr rfl rfl rfl

theorem endSession_stores {s : State} (h : StoresBelow s s) : StoresBelow s (endSession s) := by
  refine .finish (finalW_keepsStores s s h) fun _ t ht => ?_
  split
  · exact ht.congr rfl rfl rfl
  · exact ht.congr rfl rfl rfl

/-- `ENCG.ITEM` updates `ACC` before its bits are put (R143), and reports or answers after them (R146). -/
theorem execEncgItem_stores (v : Word) {s : State} (h : StoresBelow s s) :
    Leaves (StoresBelow s) (execEncgItem v s) := by
  have hacc : StoresBelow s (s.setAcc (s.acc + deltaOf v s.acc)) := h.congr rfl rfl rfl
  refine .check (h.congr rfl rfl rfl) fun _ => .check (h.congr rfl rfl rfl) fun _ => .next <|
    .finish (putItem_keepsStores s _ _ _ hacc) fun _ t ht => ?_
  split
  · exact ht.congr rfl rfl rfl
  · exact ht.congr rfl rfl rfl

/-- Every command of the write side stores between the two values of `BYTEOFF` (R56). -/
theorem exec_stores {i : Instr} (hi : storesToBuffer i = true) {s : State} (h : StoresBelow s s) :
    Leaves (StoresBelow s) (exec i s) := by
  have hrefused : StoresBelow s (refuse s) := h.congr rfl rfl rfl
  have hfault : ∀ c, StoresBelow s (raiseFault c s) := fun _ => h.congr rfl rfl rfl
  cases i with
  | putbits v n =>
    exact .check hrefused fun _ => .check (hfault _) fun _ => .check (hfault _) fun _ => .check (hfault _) fun _ =>
      .next <| .finish (putBits_keepsStores s v _ s h) fun _ _ ht => ht.congr rfl rfl rfl
  | finalize =>
    exact .check hrefused fun _ => .check (hfault _) fun _ =>
      .next <| .finish (finalW_keepsStores s s h) fun _ _ ht => ht.congr rfl rfl rfl
  | encgItem v => exact execEncgItem_stores v h
  | encgEnd => exact .check hrefused fun _ => .check (hfault _) fun _ => .next (endSession_stores h)
  | encfItem v =>
    exact .check hrefused fun _ => .check (hfault _) fun _ => .check (hfault _) fun _ =>
      .next <| .finish (putBits_keepsStores s v _ s h) fun _ _ ht => ht.congr rfl rfl rfl
  | encfEnd => exact .check hrefused fun _ => .check (hfault _) fun _ => .next (endSession_stores h)
  | _ => exact nomatch hi

/-- Settles O17: a command off the write side leaves the buffer, and one of the write side is `StoresBelow`. -/
theorem onlyWriteCommandsStoreAndOnlyBelowByteoff : Obligations.OnlyWriteCommandsStoreAndOnlyBelowByteoff := by
  intro i s t a hw hm ht ha
  cases hi : storesToBuffer i with
  | false =>
    have hsame : t.mem = s.mem := exec_keepsHolds hi s t ht
    exact absurd (by rw [hsame]) ha
  | true => exact ⟨rfl, (exec_stores hi (.refl hw hm) t ht).changed a ha⟩

/-! ### Reads inside over-allocated data -/

/-- Settles O28: a bit inside the data is refilled from a byte below `len`, so its refill
fits and `getbitsAndDecfReturnTheNextBits` gives the read's next state. -/
theorem overAllocationMakesReadsSafe : Obligations.OverAllocationMakesReadsSafe := by
  intro i n s len hi hs hm hn1 hn hw hdata hover
  obtain ⟨b, hb, hexec⟩ := getbitsAndDecfReturnTheNextBits i n s hi hs hm hn1 hn hw (by omega)
  have hrefill : (BitVec.ofNat 64 (s.pos / 8)).toNat = s.pos / 8 := by
    rw [BitVec.toNat_ofNat, Nat.mod_eq_of_lt (by omega)]
  refine ⟨_, hexec, hs, ?_, ?_⟩
  · show (BitVec.ofNat 64 (s.pos / 8)).toNat + 8 ≤ len + 7
    omega
  · show 8 * (BitVec.ofNat 64 (s.pos / 8)).toNat + b.val = s.pos + n.toNat
    omega

/-! ### A drain past the window -/

/-- The drain has a byte or more to store, and they would pass the window (R52, R121). -/
structure DrainOverruns (s : State) : Prop where
  wholeByte : 8 ≤ s.bitOff.val
  cursor : s.bitOff.val < 64
  past : s.memSize < s.byteOff.toNat + s.bitOff.val / 8

theorem DrainOverruns.refillW_raised {s : State} (h : DrainOverruns s) : refillW s = .raised .bus s := by
  obtain ⟨hbyte, hcursor, hpast⟩ := h
  rw [refillW_eq, if_neg (by omega), if_pos (by omega)]

theorem DrainOverruns.putBits_raised {s : State} (h : DrainOverruns s) (v : Word) (n : Nat) :
    putBits v n s = .raised .bus s := by
  rw [putBits, h.refillW_raised, Micro.andThen_raised]

theorem DrainOverruns.finalW_raised {s : State} (h : DrainOverruns s) : finalW s = .raised .bus s := by
  rw [finalW, h.refillW_raised, Micro.andThen_raised]

theorem DrainOverruns.endSession_eq {s : State} (h : DrainOverruns s) : endSession s = raiseFault .bus s := by
  rw [endSession, h.finalW_raised, Micro.finish_raised]

theorem execPutbits_overrun {v : Word} {n : Byte} {s : State} (h : DrainOverruns s) (hs : s.fault = none)
    (hm : s.mode.admitsWrite = true) (hn : writeCountOk n = true) (hv : fitsIn v n.toNat = true) :
    exec (.putbits v n) s = .next (raiseFault .bus s) := by
  show execPutbits v n s = _
  rw [execPutbits, State.faulted_eq_false hs, hm, hn, hv, h.putBits_raised]
  rfl

theorem execFinalize_overrun {s : State} (h : DrainOverruns s) (hs : s.fault = none)
    (hm : s.mode.admitsWrite = true) : exec .finalize s = .next (raiseFault .bus s) := by
  show execFinalize s = _
  rw [execFinalize, State.faulted_eq_false hs, hm, h.finalW_raised]
  rfl

theorem execEncfItem_overrun {v : Word} {s : State} (h : DrainOverruns s) (hs : s.fault = none)
    (hm : s.mode = .encf) (hv : fitsIn v s.p.val = true) :
    exec (.encfItem v) s = .next (raiseFault .bus s) := by
  show execEncfItem v s = _
  rw [execEncfItem, State.faulted_eq_false hs, hm, hv, h.putBits_raised]
  rfl

theorem execEncgEnd_overrun {s : State} (h : DrainOverruns s) (hs : s.fault = none) (hm : s.mode = .encg) :
    exec .encgEnd s = .next (raiseFault .bus s) := by
  show execEncgEnd s = _
  rw [execEncgEnd, State.faulted_eq_false hs, hm, h.endSession_eq]
  rfl

theorem execEncfEnd_overrun {s : State} (h : DrainOverruns s) (hs : s.fault = none) (hm : s.mode = .encf) :
    exec .encfEnd s = .next (raiseFault .bus s) := by
  show execEncfEnd s = _
  rw [execEncfEnd, State.faulted_eq_false hs, hm, h.endSession_eq]
  rfl

theorem mem_admittedModes_putbits_iff {v : Word} {n : Byte} {m : Mode} :
    m ∈ admittedModes (.putbits v n) ↔ m.admitsWrite = true := by
  simp [admittedModes, Mode.admitsWrite_iff]

theorem mem_admittedModes_finalize_iff {m : Mode} : m ∈ admittedModes .finalize ↔ m.admitsWrite = true := by
  simp [admittedModes, Mode.admitsWrite_iff]

theorem countOutOfRange_putbits_eq_false_iff {v : Word} {n : Byte} :
    countOutOfRange (.putbits v n) = false ↔ writeCountOk n = true := by
  rw [countOutOfRange, decide_eq_false_iff_not, writeCountOk_iff]
  omega

theorem tooWide_putbits_eq_false_iff {v : Word} {n : Byte} {s : State} :
    tooWide s (.putbits v n) = false ↔ fitsIn v n.toNat = true := by
  rw [tooWide, decide_eq_false_iff_not, Nat.not_le, fitsIn_iff]

theorem tooWide_encfItem_eq_false_iff {v : Word} {s : State} :
    tooWide s (.encfItem v) = false ↔ fitsIn v s.p.val = true := by
  rw [tooWide, decide_eq_false_iff_not, Nat.not_le, fitsIn_iff]

/-- Settles O35: the drain is each command's first micro-operation, and it raises `F_BUS` before any change. -/
theorem drainPastTheWindowChangesNothing : Obligations.DrainPastTheWindowChangesNothing := by
  intro i s hs hm hi hcount hwide hbyte hcursor hpast
  have h : DrainOverruns s := ⟨hbyte, hcursor, hpast⟩
  rw [← raiseFault_eq_faultedBy hs]
  rcases hi with rfl | rfl | rfl | ⟨v, rfl⟩ | ⟨v, n, rfl⟩
  · exact execFinalize_overrun h hs (mem_admittedModes_finalize_iff.1 hm)
  · exact execEncgEnd_overrun h hs (List.mem_singleton.1 hm)
  · exact execEncfEnd_overrun h hs (List.mem_singleton.1 hm)
  · exact execEncfItem_overrun h hs (List.mem_singleton.1 hm) (tooWide_encfItem_eq_false_iff.1 hwide)
  · exact execPutbits_overrun h hs (mem_admittedModes_putbits_iff.1 hm)
      (countOutOfRange_putbits_eq_false_iff.1 hcount) (tooWide_putbits_eq_false_iff.1 hwide)

end Sys2Proof.Machine
end

section
/-! The command encoding: the fields of a word name its command, and a legal word is the one encoding of it
(R80 to R87). -/

namespace Sys2Proof

/-! ### Decoding an encoding -/

/-- A packed word whose unused fields are zero decodes by its operation code alone (R81, R84). -/
theorem decode_packCommand (o : Opcode) (cnt : Byte) (val : Word)
    (hcnt : o.format.usesCount = false → cnt = 0#8) (hval : o.format.usesValue = false → val = 0#64) :
    decode (packCommand o cnt val) = decodeOperands o cnt val := by
  unfold decode
  rw [opField_packCommand, opcodeOf_byte, cntField_packCommand, valField_packCommand]
  simp only
  rw [if_neg fun h => h.2 (hcnt h.1), if_neg fun h => h.2 (hval h.1)]

theorem decodeRdreg_number (r : Reg) : decodeRdreg r.number = .ok (.rdreg r) := by
  rw [decodeRdreg, regOf_number]

theorem decodeWrreg_number {r : Reg} (hr : r.writable = true) (v : Word) :
    decodeWrreg r.number v = .ok (.wrreg r v) := by
  rw [decodeWrreg, regOf_number]
  exact if_pos hr

/-- Settles O1: each command's word is packed with zeros where its format has no field, and its operands name it. -/
theorem decodeOfEncodeIsTheCommand : Obligations.DecodeOfEncodeIsTheCommand := by
  intro i hi
  cases i with
  | init => exact decode_packCommand .init _ _ (fun _ => rfl) fun _ => rfl
  | getbits n => exact decode_packCommand .getbits n _ nofun fun _ => rfl
  | putbits v n => exact decode_packCommand .putbits n v nofun nofun
  | finalize => exact decode_packCommand .finalize _ _ (fun _ => rfl) fun _ => rfl
  | decg p => exact decode_packCommand .decg p _ nofun fun _ => rfl
  | decf p => exact decode_packCommand .decf p _ nofun fun _ => rfl
  | encgStart p => exact decode_packCommand .encgStart p _ nofun fun _ => rfl
  | encgItem v => exact decode_packCommand .encgItem _ v (fun _ => rfl) nofun
  | encgEnd => exact decode_packCommand .encgEnd _ _ (fun _ => rfl) fun _ => rfl
  | encfStart p => exact decode_packCommand .encfStart p _ nofun fun _ => rfl
  | encfItem v => exact decode_packCommand .encfItem _ v (fun _ => rfl) nofun
  | encfEnd => exact decode_packCommand .encfEnd _ _ (fun _ => rfl) fun _ => rfl
  | rdreg r => exact (decode_packCommand .rdreg r.number _ nofun fun _ => rfl).trans (decodeRdreg_number r)
  | wrreg r v => exact (decode_packCommand .wrreg r.number v nofun nofun).trans (decodeWrreg_number hi v)

/-! ### What a legal word holds -/

theorem packCommand_fields {o : Opcode} {w : CmdWord} (h : opField w = o.byte) :
    packCommand o (cntField w) (valField w) = w := by
  rw [packCommand, ← h]
  apply BitVec.eq_of_getLsbD_eq
  intro j hj
  simp only [opField, cntField, valField, BitVec.getLsbD_append, BitVec.getLsbD_extractLsb']
  split
  · next hval => simp [hval]
  · split
    · next hval hcnt => simp [hcnt, show 64 + (j - 64) = j by omega]
    · next hval hcnt => simp [show j - 64 - 8 < 8 by omega, show 72 + (j - 64 - 8) = j by omega]

theorem Opcode.byte_injective {o o' : Opcode} (h : o.byte = o'.byte) : o = o' := by
  rw [← Option.some_inj, ← opcodeOf_byte, h, opcodeOf_byte]

theorem Reg.number_injective {r r' : Reg} (h : r.number = r'.number) : r = r' := by
  rw [← Option.some_inj, ← regOf_number, h, regOf_number]

/-- One row of a map read as a chain of tests. -/
theorem ite_some_eq_some_cases {α : Type} {P : Prop} [Decidable P] {x y : α} {rest : Option α}
    (h : (if P then some x else rest) = some y) : P ∧ x = y ∨ rest = some y := by
  split at h
  · next hP => exact .inl ⟨hP, Option.some.inj h⟩
  · exact .inr h

theorem byte_of_opcodeOf {b : Byte} {o : Opcode} (h : opcodeOf b = some o) : b = o.byte := by
  unfold opcodeOf at h
  iterate 14
    obtain ⟨hb, rfl⟩ | h := ite_some_eq_some_cases h
    · exact hb
  cases h

theorem number_of_regOf {b : Byte} {r : Reg} (h : regOf b = some r) : b = r.number := by
  unfold regOf at h
  iterate 7
    obtain ⟨hb, rfl⟩ | h := ite_some_eq_some_cases h
    · exact hb
  cases h

/-- The two checks of R81 on the fields a format does not use. -/
def UnusedZero (o : Opcode) (cnt : Byte) (val : Word) : Prop :=
  (o.format.usesCount = false → cnt = 0#8) ∧ (o.format.usesValue = false → val = 0#64)

/-- All that the decoder accepts (R84): a packed word with its unused fields zero and operands that name a command. -/
theorem decode_eq_ok_iff {w : CmdWord} {i : Instr} :
    decode w = .ok i ↔ ∃ o, opField w = o.byte ∧ UnusedZero o (cntField w) (valField w) ∧
      decodeOperands o (cntField w) (valField w) = .ok i := by
  constructor
  · intro h
    unfold decode at h
    split at h
    · exact nomatch h
    · next o ho =>
      split at h
      · exact nomatch h
      · next hcnt =>
        split at h
        · exact nomatch h
        · next hval =>
          refine ⟨o, byte_of_opcodeOf ho, ⟨fun hu => ?_, fun hu => ?_⟩, h⟩
          · exact not_not.1 fun hne => hcnt ⟨hu, hne⟩
          · exact not_not.1 fun hne => hval ⟨hu, hne⟩
  · rintro ⟨o, ho, ⟨hcnt, hval⟩, hops⟩
    rw [← packCommand_fields ho, decode_packCommand o _ _ hcnt hval]
    exact hops

theorem decodeRdreg_eq_ok_iff {cnt : Byte} {i : Instr} :
    decodeRdreg cnt = .ok i ↔ ∃ r, cnt = r.number ∧ i = .rdreg r := by
  constructor
  · intro h
    unfold decodeRdreg at h
    split at h
    · exact nomatch h
    · next r hr => exact ⟨r, number_of_regOf hr, (Except.ok.inj h).symm⟩
  · rintro ⟨r, rfl, rfl⟩
    exact decodeRdreg_number r

theorem decodeWrreg_eq_ok_iff {cnt : Byte} {val : Word} {i : Instr} :
    decodeWrreg cnt val = .ok i ↔ ∃ r, cnt = r.number ∧ r.writable = true ∧ i = .wrreg r val := by
  constructor
  · intro h
    unfold decodeWrreg at h
    split at h
    · exact nomatch h
    · next r hr =>
      split at h
      · next hw => exact ⟨r, number_of_regOf hr, hw, (Except.ok.inj h).symm⟩
      · exact nomatch h
  · rintro ⟨r, rfl, hr, rfl⟩
    exact decodeWrreg_number hr val

/-- Operands with zeros in the unused fields are those the command's word is packed from (R81, R83). -/
theorem encode_of_decodeOperands {o : Opcode} {cnt : Byte} {val : Word} {i : Instr} (hz : UnusedZero o cnt val)
    (h : decodeOperands o cnt val = .ok i) : i.wellFormed = true ∧ encode i = packCommand o cnt val := by
  obtain ⟨hcnt, hval⟩ := hz
  cases o with
  | rdreg =>
    obtain ⟨r, rfl, rfl⟩ := decodeRdreg_eq_ok_iff.1 h
    obtain rfl := hval rfl
    exact ⟨rfl, rfl⟩
  | wrreg =>
    obtain ⟨r, rfl, hr, rfl⟩ := decodeWrreg_eq_ok_iff.1 h
    exact ⟨hr, rfl⟩
  | putbits => cases h; exact ⟨rfl, rfl⟩
  | getbits | decg | decf | encgStart | encfStart =>
    cases h
    obtain rfl := hval rfl
    exact ⟨rfl, rfl⟩
  | encgItem | encfItem =>
    cases h
    obtain rfl := hcnt rfl
    exact ⟨rfl, rfl⟩
  | init | finalize | encgEnd | encfEnd =>
    cases h
    obtain rfl := hcnt rfl
    obtain rfl := hval rfl
    exact ⟨rfl, rfl⟩

/-- Settles O2: the operands of a legal word give back the fields it was read from. -/
theorem legalWordIsItsCommandsEncoding : Obligations.LegalWordIsItsCommandsEncoding := by
  intro w i h
  obtain ⟨o, ho, hz, hops⟩ := decode_eq_ok_iff.1 h
  obtain ⟨hwf, henc⟩ := encode_of_decodeOperands hz hops
  exact ⟨hwf, henc.trans (packCommand_fields ho)⟩

/-! ### Words written out -/

theorem decode_of_encode_eq {i : Instr} {w : CmdWord} (hw : encode i = w) (hi : i.wellFormed = true) :
    decode w = .ok i := by
  rw [← hw]
  exact decodeOfEncodeIsTheCommand i hi

/-- Settles O4: each word is the encoding of its command. -/
theorem wordsOfEveryFamilyDecode : Obligations.WordsOfEveryFamilyDecode :=
  ⟨decode_of_encode_eq (by decide) rfl, decode_of_encode_eq (by decide) rfl, decode_of_encode_eq (by decide) rfl,
    decode_of_encode_eq (by decide) rfl, decode_of_encode_eq (by decide) rfl, decode_of_encode_eq (by decide) rfl,
    decode_of_encode_eq (by decide) rfl, decode_of_encode_eq (by decide) rfl, decode_of_encode_eq (by decide) rfl⟩

end Sys2Proof
end

section
/-! The command port: the illegal words off their raw fields, the response word, and the step of a command (R84 to R86,
R214, R251). -/

namespace Sys2Proof.Machine

/-! ### The fields as numbers -/

theorem toNat_opField (w : CmdWord) : (opField w).toNat = w.toNat / 2 ^ 72 := by
  have hw := w.isLt
  rw [opField, BitVec.extractLsb'_toNat, Nat.shiftRight_eq_div_pow, Nat.mod_eq_of_lt (by omega)]

theorem toNat_cntField (w : CmdWord) : (cntField w).toNat = w.toNat / 2 ^ 64 % 256 := by
  rw [cntField, BitVec.extractLsb'_toNat, Nat.shiftRight_eq_div_pow]

theorem toNat_valField (w : CmdWord) : (valField w).toNat = w.toNat % 2 ^ 64 := by
  rw [valField, BitVec.extractLsb'_toNat, Nat.shiftRight_zero]

/-- The operation codes of R82. -/
def opBytes : List Nat := [0x01, 0x02, 0x03, 0x04, 0x08, 0x09, 0x10, 0x11, 0x12, 0x18, 0x19, 0x1A, 0x20, 0x21]

theorem mem_opBytes_iff (b : Byte) : b.toNat ∈ opBytes ↔ ∃ o : Opcode, b = o.byte := by
  constructor
  · intro h
    simp only [opBytes, List.mem_cons, List.not_mem_nil, or_false] at h
    have hb : ∀ o : Opcode, b.toNat = o.byte.toNat → ∃ o : Opcode, b = o.byte := fun o ho =>
      ⟨o, BitVec.eq_of_toNat_eq ho⟩
    rcases h with h | h | h | h | h | h | h | h | h | h | h | h | h | h
    exacts [hb .init h, hb .getbits h, hb .putbits h, hb .finalize h, hb .decg h, hb .decf h, hb .encgStart h,
      hb .encgItem h, hb .encgEnd h, hb .encfStart h, hb .encfItem h, hb .encfEnd h, hb .rdreg h, hb .wrreg h]
  · rintro ⟨o, rfl⟩
    cases o <;> decide

/-! ### Illegal words -/

/-- The register operand names no register, or none that a write may name (R84). -/
def RegOperandBad (o : Opcode) (cnt : Byte) : Prop :=
  ((o = .rdreg ∨ o = .wrreg) ∧ 6 < cnt.toNat) ∨ (o = .wrreg ∧ cnt.toNat ∈ [3, 4, 6])

theorem regNumber_le (r : Reg) : r.number.toNat ≤ 6 := by cases r <;> decide

theorem exists_regNumber {cnt : Byte} (h : cnt.toNat ≤ 6) : ∃ r : Reg, cnt = r.number := by
  have hcnt : ∀ r : Reg, cnt.toNat = r.number.toNat → ∃ r : Reg, cnt = r.number := fun r hr =>
    ⟨r, BitVec.eq_of_toNat_eq hr⟩
  have hcases : cnt.toNat = 0 ∨ cnt.toNat = 1 ∨ cnt.toNat = 2 ∨ cnt.toNat = 3 ∨ cnt.toNat = 4 ∨ cnt.toNat = 5 ∨
    cnt.toNat = 6 := by omega
  rcases hcases with h | h | h | h | h | h | h
  exacts [hcnt .lookahead h, hcnt .bitoff h, hcnt .byteoff h, hcnt .acc h, hcnt .p h, hcnt .cap h, hcnt .status h]

theorem regNumber_readOnly_iff (r : Reg) : r.number.toNat ∈ [3, 4, 6] ↔ r.writable = false := by
  cases r <;> decide

/-- Operands name a command unless a register operand is bad (R83, R84). -/
theorem decodeOperands_ok_iff (o : Opcode) (cnt : Byte) (val : Word) :
    (∃ i, decodeOperands o cnt val = .ok i) ↔ ¬ RegOperandBad o cnt := by
  by_cases ho : o = .rdreg ∨ o = .wrreg
  · by_cases hcnt : cnt.toNat ≤ 6
    · obtain ⟨r, rfl⟩ := exists_regNumber hcnt
      rcases ho with rfl | rfl
      · have hgood : ¬ RegOperandBad .rdreg r.number := by simp [RegOperandBad, hcnt]
        exact iff_of_true ⟨_, decodeRdreg_number r⟩ hgood
      · have hbad : RegOperandBad .wrreg r.number ↔ r.writable = false := by
          rw [← regNumber_readOnly_iff]
          simp only [RegOperandBad, Nat.not_lt.2 hcnt, and_false, false_or, true_and]
        rw [hbad, Bool.not_eq_false]
        refine ⟨fun ⟨i, hi⟩ => ?_, fun hr => ⟨_, decodeWrreg_number hr val⟩⟩
        obtain ⟨r', hnum, hr', -⟩ := decodeWrreg_eq_ok_iff.1 hi
        rwa [Reg.number_injective hnum]
    · refine iff_of_false (fun ⟨i, hi⟩ => hcnt ?_) (not_not.2 (.inl ⟨ho, by omega⟩))
      rcases ho with rfl | rfl
      · obtain ⟨r, rfl, -⟩ := decodeRdreg_eq_ok_iff.1 hi
        exact regNumber_le r
      · obtain ⟨r, rfl, -, -⟩ := decodeWrreg_eq_ok_iff.1 hi
        exact regNumber_le r
  · have hgood : ¬ RegOperandBad o cnt := by
      rintro (⟨h, -⟩ | ⟨h, -⟩)
      · exact ho h
      · exact ho (.inr h)
    refine iff_of_true ?_ hgood
    cases o with
    | rdreg => exact absurd (.inl rfl) ho
    | wrreg => exact absurd (.inr rfl) ho
    | _ => exact ⟨_, rfl⟩

theorem byte_countUnused_iff (o : Opcode) :
    o.byte.toNat ∈ [0x01, 0x04, 0x11, 0x12, 0x19, 0x1A] ↔ o.format.usesCount = false := by
  cases o <;> decide

theorem byte_valueUnused_iff (o : Opcode) :
    o.byte.toNat ∈ [0x01, 0x02, 0x04, 0x08, 0x09, 0x10, 0x12, 0x18, 0x1A, 0x20] ↔ o.format.usesValue = false := by
  cases o <;> decide

theorem byte_register_iff (o : Opcode) : o.byte.toNat ∈ [0x20, 0x21] ↔ o = .rdreg ∨ o = .wrreg := by
  cases o <;> decide

theorem byte_wrreg_iff (o : Opcode) : o.byte.toNat = 0x21 ↔ o = .wrreg := by
  cases o <;> decide

theorem not_unusedZero_iff (o : Opcode) (cnt : Byte) (val : Word) :
    ¬ UnusedZero o cnt val ↔
      (o.format.usesCount = false ∧ cnt.toNat ≠ 0) ∨ (o.format.usesValue = false ∧ val.toNat ≠ 0) := by
  have hcnt : cnt = 0#8 ↔ cnt.toNat = 0 := BitVec.toNat_inj.symm
  have hval : val = 0#64 ↔ val.toNat = 0 := BitVec.toNat_inj.symm
  rw [UnusedZero, hcnt, hval, not_and_or, Classical.not_imp, Classical.not_imp]

/-- R84 for a word whose operation code is known: an unused field is not zero, or the register operand is bad. -/
theorem illegalWord_iff_of_opField {w : CmdWord} {o : Opcode} (ho : opField w = o.byte) :
    IllegalWord w ↔ ¬ UnusedZero o (cntField w) (valField w) ∨ RegOperandBad o (cntField w) := by
  have hknown : o.byte.toNat ∈ opBytes := (mem_opBytes_iff _).2 ⟨o, rfl⟩
  rw [not_unusedZero_iff, RegOperandBad, IllegalWord, ← toNat_opField, ← toNat_cntField, ← toNat_valField, ho,
    byte_countUnused_iff, byte_valueUnused_iff, byte_register_iff, byte_wrreg_iff, or_assoc]
  exact or_iff_right fun h => h hknown

theorem decode_ok_iff (w : CmdWord) : (∃ i, decode w = .ok i) ↔ ¬ IllegalWord w := by
  by_cases hop : ∃ o : Opcode, opField w = o.byte
  · obtain ⟨o, ho⟩ := hop
    rw [illegalWord_iff_of_opField ho, not_or, not_not, ← decodeOperands_ok_iff o _ (valField w)]
    constructor
    · rintro ⟨i, hi⟩
      obtain ⟨o', ho', hz, hops⟩ := decode_eq_ok_iff.1 hi
      obtain rfl := Opcode.byte_injective (ho.symm.trans ho')
      exact ⟨hz, i, hops⟩
    · rintro ⟨hz, i, hops⟩
      exact ⟨i, decode_eq_ok_iff.2 ⟨o, ho, hz, hops⟩⟩
  · have hill : IllegalWord w := by
      refine .inl fun h => hop ((mem_opBytes_iff _).1 ?_)
      rw [toNat_opField]
      exact h
    refine iff_of_false (fun ⟨i, hi⟩ => hop ?_) (not_not.2 hill)
    obtain ⟨o, ho, -, -⟩ := decode_eq_ok_iff.1 hi
    exact ⟨o, ho⟩

/-! ### The step of a command word -/

theorem step_of_command {s : State} {w : CmdWord} {rest : List PortEvent} (h : s.inputs = .command w :: rest) :
    step s = runCommand w (s.setInputs rest) := by
  simp only [step, takeEvent, h, runEvent]

theorem runCommand_of_ok {w : CmdWord} {i : Instr} (h : decode w = .ok i) (s : State) :
    runCommand w s = exec i s := by
  simp only [runCommand, h]

theorem runCommand_of_illegal {w : CmdWord} (h : IllegalWord w) (s : State) :
    runCommand w s = .next (illegalCommand s) := by
  unfold runCommand
  split
  · next i hi => exact absurd h ((decode_ok_iff w).1 ⟨i, hi⟩)
  · rfl

theorem illegalCommand_eq_faultedBy {s : State} (h : s.fault = none) : illegalCommand s = faultedBy .cmd s := by
  rw [illegalCommand, State.faulted_eq_false h]
  exact raiseFault_eq_faultedBy h .cmd

/-- Settles O3: `decode_ok_iff` gives the illegal words, and the port raises `F_CMD` on each of them. -/
theorem illegalWordsRaiseFCmd : Obligations.IllegalWordsRaiseFCmd := by
  refine ⟨rfl, decode_ok_iff, fun s w rest hs hin hw => ?_⟩
  have hrest : (s.setInputs rest).fault = none := hs
  rw [step_of_command hin, runCommand_of_illegal hw, illegalCommand_eq_faultedBy hrest]
  rfl

/-- Settles O5: the two fields of the word are its high and its low part. -/
theorem responseWordCarriesStatusAndValue : Obligations.ResponseWordCarriesStatusAndValue := by
  refine ⟨fun r => toNat_append_eq_add r.status.byte r.value, rfl, fun s c hs => ?_⟩
  simp only [State.fcode, hs, Status.byte]

/-- Settles O6: the step takes the word off the list and runs what it decodes to. -/
theorem stepRunsTheDecodedCommand : Obligations.StepRunsTheDecodedCommand := by
  intro s w rest i hin hw
  rw [step_of_command hin, runCommand_of_ok hw]
  rfl

end Sys2Proof.Machine
end

section
/-! The encoders' commands where they complete: an item appends its bits, an `END` stores what is queued and reports the
length (R143, R146, R148, R162, R164). -/

namespace Sys2Proof.Machine

/-! ### Micro-operations that fit the window -/

theorem putBits_done (v : Word) (n : Nat) {s : State} (hb : s.bitOff.val ≤ 63) (hin : s.pos / 8 ≤ s.memSize) :
    putBits v n s = .done () (putState v n s) := by
  rw [State.pos_div] at hin
  rw [putBits_eq, if_neg (by omega), if_neg (by omega)]

theorem State.pos_add_seven_div (s : State) : (s.pos + 7) / 8 = s.byteOff.toNat + (s.bitOff.val + 7) / 8 := by
  simp only [State.pos]
  omega

theorem finalW_done {s : State} (hb : s.bitOff.val ≤ 63) (hw : s.memSize ≤ 2 ^ 60)
    (hin : (s.pos + 7) / 8 ≤ s.memSize) : finalW s = .done () s.closed := by
  rw [State.pos_add_seven_div] at hin
  rw [finalW_eq s (by omega), if_neg (by omega), if_neg (by omega), if_neg (by omega)]

/-- Output is a matter of the cursor and the buffer: a response does not count. -/
theorem OutputExtends.reply {s t : State} {bits : List Bool} (h : OutputExtends s t bits) (st : Status) (v : Word) :
    OutputExtends s (reply st v t) bits :=
  ⟨h.pos, h.earlier, h.appended, h.clean, h.rises, h.elsewhere⟩

/-- Nor does `ACC`, which an item updates before its bits are put (R143). -/
theorem OutputExtends.of_setAcc {s t : State} {bits : List Bool} {v : Word}
    (h : OutputExtends (s.setAcc v) t bits) : OutputExtends s t bits :=
  ⟨h.pos, h.earlier, h.appended, h.clean, h.rises, h.elsewhere⟩

/-! ### `ENCF.ITEM` -/

theorem exec_encfItem {v : Word} {s : State} (hs : s.fault = none) (hm : s.mode = .encf)
    (hv : v.toNat < 2 ^ s.p.val) (hb : s.bitOff.val ≤ 63) (hin : s.pos / 8 ≤ s.memSize) :
    exec (.encfItem v) s = .next (reply .ok 0#64 (putState v s.p.val s)) := by
  show execEncfItem v s = _
  rw [execEncfItem, State.faulted_eq_false hs, hm, (fitsIn_iff v _).2 hv, putBits_done v _ hb hin]
  rfl

/-- Settles O41: the next state is `putState` with its answer, and `putState` appends the field. -/
theorem encfItemAppendsTheField : Obligations.EncfItemAppendsTheField := by
  intro v s hs hm hw hform hsession hv hin
  obtain ⟨hp1, hc, -⟩ := hsession
  have hp : s.p.val ≤ 56 := by omega
  have hlt : s.byteOff.toNat + s.bitOff.val / 8 < 2 ^ 64 := by
    rw [State.pos_div] at hin
    omega
  have hkept := putState_control v s.p.val s
  exact ⟨_, exec_encfItem hs hm hv hc.1 hin, (putState_extends hform hc hp1 hp hlt).reply .ok 0#64,
    putState_byteOff v s.p.val s hlt, putState_bitOff v s hp, hkept.mode.trans hm, rfl, hkept.fault.trans hs, hkept.acc,
    hkept.p, hkept.cap, hkept.memSize, hkept.inputs⟩

/-! ### `ENCG.ITEM` -/

/-- The answer of an item whose bits are put (R146). -/
def itemAnswer (t : State) : State :=
  if capacityReached t.byteOff t.cap then reply .eCapacity 0#64 (t.setMode .done) else reply .ok 0#64 t

theorem capacityReached_iff (b c : Word) : capacityReached b c = true ↔ c.toNat ≤ b.toNat + 1024 :=
  decide_eq_true_iff

theorem itemAnswer_of_reached {t : State} (h : t.cap.toNat ≤ t.byteOff.toNat + 1024) :
    itemAnswer t = reply .eCapacity 0#64 (t.setMode .done) :=
  if_pos ((capacityReached_iff _ _).2 h)

theorem itemAnswer_of_room {t : State} (h : t.byteOff.toNat + 1024 < t.cap.toNat) :
    itemAnswer t = reply .ok 0#64 t :=
  if_neg fun hcap => absurd ((capacityReached_iff _ _).1 hcap) (by omega)

theorem exec_encgItem {v : Word} {s : State} (hs : s.fault = none) (hm : s.mode = .encg) :
    exec (.encgItem v) s =
      .next ((putItem (v - s.acc) s.p.val (s.setAcc v)).finish fun _ t => itemAnswer t) := by
  have hacc : s.acc + (v - s.acc) = v := by rw [BitVec.add_comm, BitVec.sub_add_cancel]
  show execEncgItem v s = _
  rw [execEncgItem, State.faulted_eq_false hs, hm, deltaOf, hacc]
  rfl

/-- An item that fits the window (R143, R144): its bits are appended, `ACC` is its value, and the capacity check
answers. -/
theorem exec_encgItem_completes {v : Word} {s : State} (hs : s.fault = none) (hm : s.mode = .encg) (h : Ready s)
    (hp1 : 1 ≤ s.p.val) (hin : (s.pos + (v - s.acc).toNat / 2 ^ s.p.val + 1) / 8 ≤ s.memSize) :
    ∃ t, exec (.encgItem v) s = .next (itemAnswer t) ∧ OutputExtends s t (golombItem s.p.val (v - s.acc).toNat) ∧
      SameControl (s.setAcc v) t ∧ Ready t ∧
      t.byteOff.toNat = (s.pos + (v - s.acc).toNat / 2 ^ s.p.val + 1) / 8 ∧
      t.bitOff.val = (s.pos + (v - s.acc).toNat / 2 ^ s.p.val + 1) % 8 + s.p.val := by
  have hready : Ready (s.setAcc v) := ⟨h.window, h.form, h.inside, h.clean, h.offset⟩
  obtain ⟨t, hput, hout, hkept, ht, hby, hbo⟩ := putItem_ready (v - s.acc) hready hp1 (by omega) hin
  exact ⟨t, by rw [exec_encgItem hs hm, hput, Micro.finish_done], hout.of_setAcc, hkept, ht, hby, hbo⟩

/-- Settles O38: the completed item, with its answer on either side of the capacity check. -/
theorem encgItemAppendsTheItem : Obligations.EncgItemAppendsTheItem := by
  intro v s hs hm hw hform hinside hsession hin
  obtain ⟨hp1, hc, hoff⟩ := hsession
  obtain ⟨t, hexec, hout, hkept, -, hby, hbo⟩ :=
    exec_encgItem_completes hs hm ⟨hw, hform, hinside, hc, hoff⟩ hp1 hin
  have hcap : t.cap = s.cap := hkept.cap
  have hmode : t.mode = .encg := hkept.mode.trans hm
  have hfault : t.fault = none := hkept.fault.trans hs
  by_cases hreached : s.cap.toNat ≤ t.byteOff.toNat + 1024
  · rw [itemAnswer_of_reached (by rwa [hcap])] at hexec
    exact ⟨_, hexec, hout.answered .done .eCapacity 0#64, hby, hbo, hkept.acc, (if_pos hreached).symm, hfault,
      hkept.p, hcap, hkept.memSize, hkept.inputs⟩
  · rw [itemAnswer_of_room (by rw [hcap]; omega)] at hexec
    refine ⟨_, hexec, hout.reply .ok 0#64, hby, hbo, hkept.acc, ?_, hfault, hkept.p, hcap, hkept.memSize,
      hkept.inputs⟩
    rw [reply_byteOff, if_neg hreached, reply_mode, reply_resp, hmode]

/-! ### `ENCG.END` and `ENCF.END` -/

/-- The two `END`s are one rule, each in its own session (R148, R164). -/
theorem exec_end {i : Instr} {s : State} (hi : i ∈ [Instr.encgEnd, .encfEnd]) (hs : s.fault = none)
    (hm : s.mode ∈ admittedModes i) : exec i s = .next (endSession s) := by
  simp only [List.mem_cons, List.not_mem_nil, or_false] at hi
  rcases hi with rfl | rfl
  · show execEncgEnd s = _
    rw [execEncgEnd, State.faulted_eq_false hs, List.mem_singleton.1 hm]
    rfl
  · show execEncfEnd s = _
    rw [execEncfEnd, State.faulted_eq_false hs, List.mem_singleton.1 hm]
    rfl

/-- The response of an `END` whose drain is done: the length, or `E_EMPTY` when nothing was put (R148). -/
def endResponse (s : State) : Response := if s.pos = 0 then ⟨.eEmpty, 0#64⟩ else ⟨.ok, s.closed.byteOff⟩

theorem State.closed_byteOff_of_fits {s : State} (hw : s.memSize ≤ 2 ^ 60) (hin : (s.pos + 7) / 8 ≤ s.memSize) :
    s.closed.byteOff.toNat = (s.pos + 7) / 8 := by
  rw [State.pos_add_seven_div] at hin ⊢
  exact s.closed_byteOff (by omega)

theorem endSession_eq {s : State} (hb : s.bitOff.val ≤ 63) (hw : s.memSize ≤ 2 ^ 60)
    (hin : (s.pos + 7) / 8 ≤ s.memSize) :
    endSession s = (s.closed.setMode .done).setResp (some (endResponse s)) := by
  have hlen := State.closed_byteOff_of_fits hw hin
  rw [endSession, finalW_done hb hw hin, Micro.finish_done, endResponse]
  by_cases hpos : s.pos = 0
  · have hzero : s.closed.byteOff = 0#64 := BitVec.eq_of_toNat_eq (by rw [hlen, hpos]; rfl)
    rw [if_pos hpos, if_pos hzero]
    rfl
  · have hzero : s.closed.byteOff ≠ 0#64 := fun h => by
      rw [h, BitVec.toNat_ofNat] at hlen
      omega
    rw [if_neg hpos, if_neg hzero]
    rfl

/-- Settles O40: the next state is `closed` with the response, and `closed` holds what was queued. -/
theorem endStoresTheStreamAndReportsItsLength : Obligations.EndStoresTheStreamAndReportsItsLength := by
  intro i s hi hs hm hw hform hsession hin
  obtain ⟨-, hc, -⟩ := hsession
  have hexec := exec_end hi hs hm
  rw [endSession_eq hc.1 hw hin] at hexec
  have hlen := State.closed_byteOff_of_fits hw hin
  have hbytes := s.pos_add_seven_div
  have hlt : s.byteOff.toNat + (s.bitOff.val + 7) / 8 < 2 ^ 64 := by omega
  have hkept := s.closed_control
  refine ⟨_, hexec, hlen, rfl, hkept.fault.trans hs, ?_, fun k hk => ?_, fun a ha => ?_, rfl, s.drained_bitOff,
    hkept.acc, hkept.p, hkept.cap, hkept.memSize, hkept.inputs⟩
  · exact apply_ite some _ _ _
  · have hk' : k < 8 * s.closed.byteOff.toNat := hk
    have hstored : Memory.streamBit s.closed.mem k = s.outBit k := s.streamBit_closed hform hc.1 hlt (by omega)
    refine hstored.trans ?_
    split
    · rfl
    · next hpast => exact hc.outBit_past (by omega)
  · have ha' : a < s.byteOff.toNat ∨ s.closed.byteOff.toNat ≤ a := ha
    show Memory.read s.closed.mem a = _
    rw [s.read_closed hform hc.1 hlt, if_neg (by omega)]

end Sys2Proof.Machine
end

section
/-! The encode calls: the host stops at the first response that is not `OK`, so a call answers `OK` at its own `END`
alone; and a session whose stream fits leaves that stream in the buffer (R88, R89, R249). -/

namespace Sys2Proof.Machine

/-! ### The answer of a call -/

/-- The commands of a call before its last one are all answered `OK`: the last one is issued. -/
theorem issueWhileOk_concat_of_ok {is : List Instr} {s : State} (h : allAnsweredOk is s = true) (e : Instr) :
    issueWhileOk (is ++ [e]) s = issue e (issueAll is s) := by
  induction is generalizing s with
  | nil => exact ite_self _
  | cons i is ih =>
    rw [allAnsweredOk_cons, Bool.and_eq_true] at h
    obtain ⟨hi, his⟩ := h
    rw [List.cons_append, issueWhileOk, if_pos hi, ih his, issueAll_cons]

theorem not_answeredOk_of_stopped {is : List Instr} {s : State} (h : allAnsweredOk is s = false) (e : Instr) :
    (issueWhileOk (is ++ [e]) s).answeredOk = false := by
  rcases issueWhileOk_cases (is ++ [e]) s with ⟨hall, -⟩ | ⟨-, hstop⟩
  · rw [allAnsweredOk_append, h, Bool.false_and] at hall
    cases hall
  · exact hstop

theorem exec_issue (i : Instr) (s : State) : exec i s = .next (issue i s) := by
  obtain ⟨t, -, ht, -⟩ := everyCommandAnswersInOneWay i s
  rw [issue_of_next ht, ht]

/-- A call that closes a write pass answers `OK` exactly when its last command was issued and ended the pass well. -/
theorem issueWhileOk_concat_ok_iff {e : Instr} (he : closesWritePass e = true) (is : List Instr) (s : State)
    (n : Word) :
    (issueWhileOk (is ++ [e]) s).resp = some ⟨.ok, n⟩ ↔
      allAnsweredOk is s = true ∧ EndedWell e (issueAll is s) (issueWhileOk (is ++ [e]) s) n := by
  refine ⟨fun hresp => ?_, fun ⟨_, _, _, hresp⟩ => hresp⟩
  have hok : (issueWhileOk (is ++ [e]) s).answeredOk = true := (State.answeredOk_iff _).2 ⟨n, hresp⟩
  cases hall : allAnsweredOk is s with
  | false =>
    rw [not_answeredOk_of_stopped hall e] at hok
    cases hok
  | true =>
    refine ⟨rfl, he, ?_, hresp⟩
    rw [issueWhileOk_concat_of_ok hall e]
    exact exec_issue e _

/-- Settles O53: both calls are a session and its `END`. -/
theorem encodeCallsAnswerOkExactlyAtAGoodEnd : Obligations.EncodeCallsAnswerOkExactlyAtAGoodEnd := fun s p values n =>
  ⟨issueWhileOk_concat_ok_iff rfl (.encgStart p :: values.map .encgItem) s n,
    issueWhileOk_concat_ok_iff rfl (.encfStart p :: values.map .encfItem) s n⟩

/-! ### A session -/

/-- A session of mode `m` opened at `o` has put out `bits` and is at `t`, not ended yet. A Golomb session, whose
items are runs of puts, keeps the listed bytes inside the window. -/
structure SessionPass (m : Mode) (o t : State) (bits : List Bool) : Prop where
  unfaulted : t.fault = none
  mode : t.mode = m
  width : 1 ≤ t.p.val
  p : t.p = o.p
  cap : t.cap = o.cap
  memSize : t.memSize = o.memSize
  window : t.memSize ≤ 2 ^ 60
  form : Memory.wf t.mem
  inside : m = .encg → ∀ c ∈ t.mem, c.1 < t.memSize
  output : OutputExtends o t bits

namespace SessionPass

variable {m : Mode} {o t : State} {bits : List Bool}

theorem pos_fits (h : SessionPass m o t bits) (hin : (o.pos + bits.length) / 8 ≤ o.memSize) :
    t.pos / 8 ≤ t.memSize := by
  rw [h.output.pos, h.memSize]
  exact hin

theorem byteOff_fits (h : SessionPass m o t bits) (hin : (o.pos + bits.length) / 8 ≤ o.memSize) :
    t.byteOff.toNat ≤ t.memSize := by
  have hpos := h.pos_fits hin
  rw [State.pos_div] at hpos
  omega

/-- One `ENCF.ITEM` of a session whose output so far is inside the window. -/
theorem encfItem (h : SessionPass .encf o t bits) {v : Word} (hv : v.toNat < 2 ^ o.p.val)
    (hin : (o.pos + bits.length) / 8 ≤ o.memSize) :
    (issue (.encfItem v) t).answeredOk = true ∧
      SessionPass .encf o (issue (.encfItem v) t) (bits ++ bitsOf v.toNat o.p.val) := by
  rw [← h.p] at hv ⊢
  have hpos := h.pos_fits hin
  have hc := h.output.clean
  have hw := h.window
  have hlt : t.byteOff.toNat + t.bitOff.val / 8 < 2 ^ 64 := by
    rw [State.pos_div] at hpos
    omega
  have hkept := putState_control v t.p.val t
  have hput := putState_extends (v := v) h.form hc h.width (by omega) hlt
  rw [issue_of_next (exec_encfItem h.unfaulted h.mode hv hc.1 hpos)]
  exact ⟨(State.answeredOk_iff _).2 ⟨0#64, rfl⟩, hkept.fault.trans h.unfaulted, hkept.mode.trans h.mode, h.width,
    h.p, h.cap, h.memSize, hw, t.drained_wf h.form, nofun, h.output.trans (hput.reply .ok 0#64)⟩

theorem ready (h : SessionPass .encg o t bits) (hin : (o.pos + bits.length) / 8 ≤ o.memSize) : Ready t :=
  ⟨h.window, h.form, h.inside rfl, h.output.clean, h.byteOff_fits hin⟩

/-- One `ENCG.ITEM` of a session whose output with it is inside the window and below the margin. -/
theorem encgItem (h : SessionPass .encg o t bits) {v : Word} {item : List Bool}
    (hitem : item = golombItem o.p.val (v - t.acc).toNat)
    (hin : (o.pos + (bits ++ item).length) / 8 ≤ o.memSize)
    (hcap : (o.pos + (bits ++ item).length) / 8 + 1024 < o.cap.toNat) :
    (issue (.encgItem v) t).answeredOk = true ∧ (issue (.encgItem v) t).acc = v ∧
      SessionPass .encg o (issue (.encgItem v) t) (bits ++ item) := by
  rw [← h.p] at hitem
  have hpos := h.output.pos
  have hsize := h.memSize
  have hlen : item.length = (v - t.acc).toNat / 2 ^ t.p.val + 1 + t.p.val := by rw [hitem, length_golombItem]
  rw [List.length_append, hlen] at hin hcap
  obtain ⟨u, hexec, hout, hkept, hu, hby, -⟩ :=
    exec_encgItem_completes (v := v) h.unfaulted h.mode (h.ready (by omega)) h.width (by omega)
  have hcapu : u.cap = o.cap := hkept.cap.trans h.cap
  have hroom : u.byteOff.toNat + 1024 < u.cap.toNat := by
    rw [hcapu]
    omega
  rw [itemAnswer_of_room hroom] at hexec
  have hp : u.p = t.p := hkept.p
  have hsizeu : u.memSize = t.memSize := hkept.memSize
  rw [issue_of_next hexec, hitem]
  exact ⟨(State.answeredOk_iff _).2 ⟨0#64, rfl⟩, hkept.acc, hkept.fault.trans h.unfaulted, hkept.mode.trans h.mode,
    by rw [reply_p, hp]; exact h.width, hp.trans h.p, hcapu, hsizeu.trans h.memSize, hu.window, hu.form,
    fun _ => hu.inside, h.output.trans (hout.reply .ok 0#64)⟩

/-- The items of a fixed-width session whose stream fits the window, whatever `CAP` holds (R165). -/
theorem encfItems (h : SessionPass .encf o t bits) {vs : List Word} (hvs : ∀ v ∈ vs, v.toNat < 2 ^ o.p.val)
    (hin : (o.pos + (bits ++ fixedStream o.p.val vs).length) / 8 ≤ o.memSize) :
    allAnsweredOk (vs.map .encfItem) t = true ∧
      SessionPass .encf o (issueAll (vs.map .encfItem) t) (bits ++ fixedStream o.p.val vs) := by
  induction vs generalizing t bits with
  | nil => simpa [fixedStream] using h
  | cons v vs ih =>
    have hcons : bits ++ fixedStream o.p.val (v :: vs) =
        bits ++ bitsOf v.toNat o.p.val ++ fixedStream o.p.val vs := by
      rw [List.append_assoc]
      rfl
    rw [hcons] at hin ⊢
    have hlen := hin
    rw [List.append_assoc, List.length_append] at hlen
    obtain ⟨hok, hput⟩ := h.encfItem (hvs v (by simp)) (by omega)
    obtain ⟨hoks, hall⟩ := ih hput (fun w hw => hvs w (by simp [hw])) hin
    exact ⟨by rw [List.map_cons, allAnsweredOk_cons, hok, hoks, Bool.and_self], hall⟩

/-- The items of a Golomb session whose stream fits the window and its margin (R146). -/
theorem encgItems (h : SessionPass .encg o t bits) {vs : List Word}
    (hin : (o.pos + (bits ++ golombStream o.p.val t.acc vs).length) / 8 ≤ o.memSize)
    (hcap : (o.pos + (bits ++ golombStream o.p.val t.acc vs).length) / 8 + 1024 < o.cap.toNat) :
    allAnsweredOk (vs.map .encgItem) t = true ∧
      SessionPass .encg o (issueAll (vs.map .encgItem) t) (bits ++ golombStream o.p.val t.acc vs) := by
  induction vs generalizing t bits with
  | nil => simpa [golombStream] using h
  | cons v vs ih =>
    rw [golombStream, ← List.append_assoc] at hin hcap ⊢
    have hlen := List.length_append (as := bits ++ golombItem o.p.val (v - t.acc).toNat)
      (bs := golombStream o.p.val v vs)
    obtain ⟨hok, hacc, hput⟩ := h.encgItem (v := v) rfl (by omega) (by omega)
    have hrest := ih hput
    rw [hacc] at hrest
    obtain ⟨hoks, hall⟩ := hrest hin hcap
    exact ⟨by rw [List.map_cons, allAnsweredOk_cons, hok, hoks, Bool.and_self], hall⟩

end SessionPass

/-! ### The end of a session -/

/-- From `u` the command `e` has ended a pass well in `t`: the bytes of `bits`, with zeros to the last byte, stand at
the start of the buffer, which from there on is `m`. -/
def StreamStored (e : Instr) (m : Memory) (bits : List Bool) (u t : State) : Prop :=
  ∃ n : Word, n.toNat = (bits.length + 7) / 8 ∧ EndedWell e u t n ∧ t.mode = .done ∧ t.fault = none ∧
    (∀ k, k < bits.length → bits[k]? = some (Memory.streamBit t.mem k)) ∧
    (∀ k, bits.length ≤ k → k < 8 * n.toNat → Memory.streamBit t.mem k = false) ∧
    (∀ a, n.toNat ≤ a → Memory.read t.mem a = Memory.read m a)

/-- The `END` of a session that has put out at least a bit and fits the window (R148, R164). -/
theorem SessionPass.close {m : Mode} {o u : State} {bits : List Bool} {e : Instr} (h : SessionPass m o u bits)
    (he : e ∈ [Instr.encgEnd, .encfEnd]) (hm : m ∈ admittedModes e) (hstart : o.pos = 0) (hbits : bits ≠ [])
    (hin : (bits.length + 7) / 8 ≤ o.memSize) : StreamStored e o.mem bits u (issue e u) := by
  have hpos : u.pos = bits.length := by rw [h.output.pos, hstart, Nat.zero_add]
  have hne : bits.length ≠ 0 := fun hz => hbits (List.length_eq_zero_iff.1 hz)
  have hoff := h.byteOff_fits (by omega)
  obtain ⟨t, hexec, hlen, hmode, hfault, hresp, hstored, hframe, -⟩ :=
    endStoresTheStreamAndReportsItsLength e u he h.unfaulted (by rwa [h.mode]) h.window h.form
      ⟨h.width, h.output.clean, hoff⟩ (by rw [hpos, h.memSize]; exact hin)
  have hrise := h.output.rises
  rw [hpos] at hlen hstored hresp
  rw [if_neg hne] at hresp
  have hcloses : closesWritePass e = true := (closesWritePass_iff e).2 (.inr (by simpa using he))
  rw [issue_of_next hexec]
  refine ⟨t.byteOff, hlen, ⟨hcloses, hexec, hresp⟩, hmode, hfault, fun k hk => ?_, fun k hk1 hk2 => ?_,
    fun a ha => ?_⟩
  · have hput := h.output.appended k hk
    rw [hstart, Nat.zero_add] at hput
    rw [hput, hstored k (by omega), if_pos hk]
  · rw [hstored k hk2, if_neg (by omega)]
  · have hbyte : u.byteOff.toNat ≤ u.pos / 8 := by rw [State.pos_div]; omega
    rw [hframe a (.inr ha), h.output.elsewhere a (.inr (by omega))]

/-! ### The calls -/

theorem admitsStart_iff (m : Mode) : m.admitsStart = true ↔ m ≠ .encg ∧ m ≠ .encf := by
  cases m <;> decide

theorem widthTooLarge_eq_false_iff (p : Byte) : widthTooLarge p = false ↔ p.toNat ≤ 56 := by
  rw [widthTooLarge, decide_eq_false_iff_not, Nat.not_lt]
  rfl

theorem ne_zero_of_one_le_toNat {p : Byte} (hp : 1 ≤ p.toNat) : p ≠ 0#8 := by
  rintro rfl
  exact absurd hp (by decide)

/-- The state in which `ENCG.START p` leaves a block it opens a session in (R141). -/
def golombOpened (p : Byte) (s : State) : State :=
  reply .ok 0#64 ((((zeroCursor s).setAcc 0#64).setP (widthOf p.toNat)).setMode .encg)

/-- The state in which `ENCF.START p` leaves a block it opens a session in (R161). -/
def fixedOpened (p : Byte) (s : State) : State :=
  reply .ok 0#64 (((zeroCursor s).setP (widthOf p.toNat)).setMode .encf)

section Start

variable {s : State} {p : Byte} (hs : s.fault = none) (hg : s.mode ≠ .encg) (hf : s.mode ≠ .encf)
  (hp1 : 1 ≤ p.toNat) (hp : p.toNat ≤ 56)

include hs hg hf hp1 hp

theorem exec_encgStart : exec (.encgStart p) s = .next (golombOpened p s) := by
  show execEncgStart p s = _
  rw [execEncgStart, State.faulted_eq_false hs, (admitsStart_iff _).2 ⟨hg, hf⟩,
    (widthTooLarge_eq_false_iff p).2 hp, if_neg (ne_zero_of_one_le_toNat hp1)]
  rfl

theorem exec_encfStart : exec (.encfStart p) s = .next (fixedOpened p s) := by
  show execEncfStart p s = _
  rw [execEncfStart, State.faulted_eq_false hs, (admitsStart_iff _).2 ⟨hg, hf⟩,
    (widthTooLarge_eq_false_iff p).2 hp, if_neg (ne_zero_of_one_le_toNat hp1)]
  rfl

end Start

theorem golombOpened_p {p : Byte} (hp : p.toNat ≤ 56) (s : State) : (golombOpened p s).p.val = p.toNat :=
  widthOf_val hp

theorem fixedOpened_p {p : Byte} (hp : p.toNat ≤ 56) (s : State) : (fixedOpened p s).p.val = p.toNat :=
  widthOf_val hp

/-- A Golomb session just opened has put out nothing. -/
theorem SessionPass.golombNil {p : Byte} {s : State} (hs : s.fault = none) (hp1 : 1 ≤ p.toNat) (hp : p.toNat ≤ 56)
    (hw : s.memSize ≤ 2 ^ 60) (hform : Memory.wf s.mem) (hinside : ∀ c ∈ s.mem, c.1 < s.memSize) :
    SessionPass .encg (golombOpened p s) (golombOpened p s) [] :=
  ⟨hs, rfl, by rwa [golombOpened_p hp], rfl, rfl, rfl, hw, hform, fun _ => hinside,
    OutputExtends.refl (clean_zeroCursor s)⟩

/-- A fixed-width session just opened has put out nothing. -/
theorem SessionPass.fixedNil {p : Byte} {s : State} (hs : s.fault = none) (hp1 : 1 ≤ p.toNat) (hp : p.toNat ≤ 56)
    (hw : s.memSize ≤ 2 ^ 60) (hform : Memory.wf s.mem) :
    SessionPass .encf (fixedOpened p s) (fixedOpened p s) [] :=
  ⟨hs, rfl, by rwa [fixedOpened_p hp], rfl, rfl, rfl, hw, hform, nofun, OutputExtends.refl (clean_zeroCursor s)⟩

theorem golombStream_ne_nil {p : Nat} {prev : Word} {vs : List Word} (h : vs ≠ []) :
    golombStream p prev vs ≠ [] := by
  cases vs with
  | nil => exact absurd rfl h
  | cons v vs => simp [golombStream, golombItem]

theorem length_fixedStream (p : Nat) (vs : List Word) : (fixedStream p vs).length = vs.length * p := by
  simp [fixedStream, List.length_flatMap]

theorem fixedStream_ne_nil {p : Nat} {vs : List Word} (hp : 1 ≤ p) (h : vs ≠ []) : fixedStream p vs ≠ [] := by
  have hlen : 0 < vs.length * p := Nat.mul_pos (List.length_pos_of_ne_nil h) hp
  rw [← length_fixedStream] at hlen
  exact List.ne_nil_of_length_pos hlen

/-- A call whose `START` opens a session at position 0 and whose items are all answered `OK` issues its `END`, which
stores the stream of the items. -/
theorem StreamStored.of_call {m : Mode} {start e : Instr} {items : List Instr} {bits : List Bool} {s o : State}
    (hstart : exec start s = .next o) (hok : o.answeredOk = true)
    (hitems : allAnsweredOk items o = true ∧ SessionPass m o (issueAll items o) bits)
    (he : e ∈ [Instr.encgEnd, .encfEnd]) (hm : m ∈ admittedModes e) (hpos : o.pos = 0) (hbits : bits ≠ [])
    (hin : (bits.length + 7) / 8 ≤ o.memSize) :
    StreamStored e o.mem bits (issueAll (start :: items) s) (issueWhileOk (start :: items ++ [e]) s) := by
  obtain ⟨hoks, hpass⟩ := hitems
  have hall : allAnsweredOk (start :: items) s = true := by
    rw [allAnsweredOk_cons, issue_of_next hstart, hok, hoks, Bool.and_self]
  rw [issueWhileOk_concat_of_ok hall, issueAll_cons, issue_of_next hstart]
  exact hpass.close he hm hpos hbits hin

/-- Settles O47: `ENCG.START` opens the session at position 0 with `ACC` 0, each `ENCG.ITEM` appends its item, and
`ENCG.END` stores the rest. -/
theorem encodeGolombWritesTheStream : Obligations.EncodeGolombWritesTheStream := by
  intro s p values ⟨_, hw⟩ hform hinside hs hg hf hp1 hp hne hfits hcap
  have hpos : (golombOpened p s).pos = 0 := rfl
  have hitems := (SessionPass.golombNil hs hp1 hp hw hform hinside).encgItems (vs := values)
  rw [List.nil_append, golombOpened_p hp, hpos, Nat.zero_add] at hitems
  have hfloor : (golombStream p.toNat 0#64 values).length / 8 ≤ s.memSize := by omega
  exact StreamStored.of_call (m := .encg) (o := golombOpened p s) (exec_encgStart hs hg hf hp1 hp) rfl
    (hitems hfloor hcap) (by decide) (by decide) hpos (golombStream_ne_nil hne) hfits

/-- Settles O48: `ENCF.START` opens the session at position 0, each `ENCF.ITEM` appends its field, and `ENCF.END`
stores the rest; no step looks at `CAP`. -/
theorem encodeFixedWritesTheStream : Obligations.EncodeFixedWritesTheStream := by
  intro s p values ⟨_, hw⟩ hform hs hg hf hp1 hp hne hvalues hfits
  have hpos : (fixedOpened p s).pos = 0 := rfl
  have hitems := (SessionPass.fixedNil hs hp1 hp hw hform).encfItems (vs := values)
  rw [List.nil_append, fixedOpened_p hp, hpos, Nat.zero_add] at hitems
  rw [← length_fixedStream] at hfits ⊢
  have hfloor : (fixedStream p.toNat values).length / 8 ≤ s.memSize := by omega
  exact StreamStored.of_call (m := .encf) (o := fixedOpened p s) (exec_encfStart hs hg hf hp1 hp) rfl
    (hitems hvalues hfloor) (by decide) (by decide) hpos (fixedStream_ne_nil hp1 hne) hfits

end Sys2Proof.Machine
end

section
/-! `INIT`: the fresh cursor, the refusal, and the one word that carries it (R100). -/

namespace Sys2Proof.Machine

/-- The operation byte `0x01` belongs to `INIT` alone (R82). -/
theorem eq_init_of_decode {w : CmdWord} {i : Instr} (hop : opField w = Opcode.init.byte) (h : decode w = .ok i) :
    i = .init := by
  obtain ⟨o, ho, -, hops⟩ := decode_eq_ok_iff.1 h
  obtain rfl := Opcode.byte_injective (hop.symm.trans ho)
  exact (Except.ok.inj hops).symm

theorem toNat_encode_init : (encode .init).toNat = 2 ^ 72 := rfl

/-- Settles O25: the two answers of `INIT` are those of `exec_init` and `exec_of_faulted`, in any mode, and a legal word
is the one encoding of its command. -/
theorem initCreatesAFreshCursor : Obligations.InitCreatesAFreshCursor := by
  refine ⟨fun s hs => exec_init hs, fun s hs => ?_, fun w i hw h => ?_⟩
  · obtain ⟨c, hc⟩ := Option.ne_none_iff_exists'.1 hs
    exact exec_of_faulted hc nofun
  · have hop : opField w = Opcode.init.byte := BitVec.eq_of_toNat_eq ((toNat_opField w).trans hw)
    obtain rfl := eq_init_of_decode hop h
    obtain ⟨-, henc⟩ := legalWordIsItsCommandsEncoding w .init h
    exact ⟨henc ▸ toNat_encode_init, rfl⟩

end Sys2Proof.Machine
end

section
/-! The write side on any cursor, clean or not: what `PUTBITS` and `FINALIZE` store byte for byte, and the one fault that
keeps work done, a partial byte past the window after its drain (R121 to R126, R211). -/

namespace Sys2Proof.Machine

/-! ### `PUTBITS` -/

/-- Settles O33: the next state is `putState` with its answer; its buffer is the drained one. -/
theorem putbitsOnAnyCursorOrsTheValueIn : Obligations.PutbitsOnAnyCursorOrsTheValueIn := by
  intro v n s hs hm hn1 hn hv hb hform hw hin
  have hb63 : s.bitOff.val ≤ 63 := by omega
  have hlt : s.byteOff.toNat + s.bitOff.val / 8 < 2 ^ 64 := by omega
  have hkept := putState_control v n.toNat s
  exact ⟨_, exec_putbits hs hm hn1 hn hv hb63 (by rwa [State.pos_div]), putState_lookahead v n.toNat s,
    by rw [s.pos_mod]; exact putState_bitOff v s hn, s.drained_byteOff hlt, s.read_drained hform hb63, rfl, rfl,
    hkept.fault.trans hs, hkept.acc, hkept.p, hkept.cap, hkept.memSize, hkept.inputs⟩

/-! ### `FINALIZE` -/

/-- `FINALIZE` where it is admitted: `U.FINALW`, then `DONE` and the byte count (R126). -/
theorem exec_finalize_eq {s : State} (hs : s.fault = none) (hm : s.mode.admitsWrite = true) :
    exec .finalize s = .next ((finalW s).finish fun _ t => reply .ok t.byteOff (t.setMode .done)) := by
  show execFinalize s = _
  rw [execFinalize, State.faulted_eq_false hs, hm]
  rfl

/-- `U.FINALW` completes where nothing is queued, even at a `BYTEOFF` past the window, and where what is queued fits. -/
theorem finalW_eq_closed {s : State} (hb : s.bitOff.val < 64) (hw : s.memSize ≤ 2 ^ 60)
    (hin : s.bitOff.val = 0 ∨ s.byteOff.toNat + (s.bitOff.val + 7) / 8 ≤ s.memSize) :
    finalW s = .done () s.closed := by
  rw [finalW_eq s (by omega), if_neg (by omega), if_neg (by omega), if_neg (by omega)]

/-- Settles O34: the next state is `closed` with the answer, and `closed` holds every queued byte. -/
theorem finalizeStoresEveryQueuedBit : Obligations.FinalizeStoresEveryQueuedBit := by
  intro s hs hm hb hform hw hin
  have hb63 : s.bitOff.val ≤ 63 := by omega
  have hlt : s.byteOff.toNat + (s.bitOff.val + 7) / 8 < 2 ^ 64 := by omega
  have hkept := s.closed_control
  have hexec := exec_finalize_eq hs ((Mode.admitsWrite_iff _).2 hm)
  rw [finalW_eq_closed hb hw hin, Micro.finish_done] at hexec
  exact ⟨_, hexec, s.closed_byteOff hlt, rfl, hkept.fault.trans hs, rfl, s.read_closed hform hb63 hlt, rfl,
    s.drained_bitOff, hkept.acc, hkept.p, hkept.cap, hkept.memSize, hkept.inputs⟩

/-! ### A partial byte past the window -/

/-- `U.FINALW` whose drain can be done and whose partial byte does not fit: the fault carries the drained state. -/
theorem finalW_raised_drained {s : State} (hb : s.bitOff.val < 64) (hpart : s.bitOff.val % 8 ≠ 0)
    (hw : s.memSize ≤ 2 ^ 60)
    (hin : s.bitOff.val / 8 = 0 ∨ s.byteOff.toNat + s.bitOff.val / 8 ≤ s.memSize)
    (hpast : s.memSize < s.byteOff.toNat + s.bitOff.val / 8 + 1) : finalW s = .raised .bus s.drained := by
  rw [finalW_eq s (by omega), if_neg (by omega), if_neg (by omega), if_pos ⟨hpart, hpast⟩]

/-- A fault of `U.FINALW` ends each command that closes a write pass in that fault, at the state it carries (R211). -/
theorem exec_close_of_finalW_raised {i : Instr} {s t : State} {c : FaultCode}
    (hi : i ∈ [Instr.finalize, .encgEnd, .encfEnd]) (hs : s.fault = none) (hm : s.mode ∈ admittedModes i)
    (h : finalW s = .raised c t) : exec i s = .next (raiseFault c t) := by
  rcases List.mem_cons.1 hi with rfl | hend
  · rw [exec_finalize_eq hs (mem_admittedModes_finalize_iff.1 hm), h, Micro.finish_raised]
  · rw [exec_end hend hs hm, endSession, h, Micro.finish_raised]

/-- Settles O36: `U.FINALW` raises `F_BUS` at the drained state, and the drain moves no control register. -/
theorem partialByteFaultKeepsTheDrain : Obligations.PartialByteFaultKeepsTheDrain := by
  intro i s hi hs hm hb hpart hform hw hin hpast
  have hexec := exec_close_of_finalW_raised hi hs hm (finalW_raised_drained hb hpart hw hin hpast)
  rw [raiseFault_eq_faultedBy (s.drained_control.fault.trans hs)] at hexec
  exact ⟨_, hexec, s.drained_byteOff (by omega), s.drained_bitOff, rfl, s.read_drained hform (by omega),
    s.drained_control⟩

end Sys2Proof.Machine
end

section
/-! The two `START`s: the session they open, and the three checks that open none (R141, R161, R213). -/

namespace Sys2Proof.Machine

theorem mem_session_iff (m : Mode) : m = .encg ∨ m = .encf ↔ m.admitsStart = false := by
  cases m <;> decide

/-- The width operand of a `START` whose width is latched (R29, R83). -/
theorem widthOf_ofNat (w : Fin 57) : widthOf (BitVec.ofNat 8 w.val).toNat = w := by
  rw [BitVec.toNat_ofNat, Nat.mod_eq_of_lt (by omega)]
  exact Fin.ext (widthOf_val (by omega))

/-- The checks of the two `START`s, in the order of R213, whatever session they open. -/
theorem exec_start_checks {i : Instr} {p : Byte} {s : State} (hi : i ∈ [Instr.encgStart p, .encfStart p])
    (hs : s.fault = none) :
    ∃ u, exec i s =
      if s.mode.admitsStart = false then .next (raiseFault .seq s)
      else if p = 0#8 then .next (raiseFault .count s)
      else if widthTooLarge p = true then .next (reply .eParam 0#64 s)
      else .next u := by
  have hf := State.faulted_eq_false hs
  simp only [List.mem_cons, List.not_mem_nil, or_false] at hi
  rcases hi with rfl | rfl
  · refine ⟨golombOpened p s, ?_⟩
    show execEncgStart p s = _
    simp only [execEncgStart, hf, Bool.not_eq_true', Bool.false_eq_true, if_false]
    rfl
  · refine ⟨fixedOpened p s, ?_⟩
    show execEncfStart p s = _
    simp only [execEncfStart, hf, Bool.not_eq_true', Bool.false_eq_true, if_false]
    rfl

/-- Settles O37: the opened sessions are `golombOpened` and `fixedOpened`; each other clause is one of the checks. -/
theorem startOpensASession : Obligations.StartOpensASession := by
  refine ⟨fun s w hs hg hf hw1 => ?_, fun i p s hi hs => ?_⟩
  · have hwidth : (BitVec.ofNat 8 w.val).toNat = w.val := Nat.mod_eq_of_lt (by omega)
    have hw : (BitVec.ofNat 8 w.val).toNat ≤ 56 := by omega
    rw [← hwidth] at hw1
    rw [exec_encgStart hs hg hf hw1 hw, exec_encfStart hs hg hf hw1 hw, golombOpened, fixedOpened, widthOf_ofNat]
    exact ⟨rfl, rfl⟩
  · obtain ⟨u, hexec⟩ := exec_start_checks hi hs
    rw [hexec, ← raiseFault_eq_faultedBy hs, ← raiseFault_eq_faultedBy hs]
    refine ⟨fun hm => if_pos ((mem_session_iff _).1 hm), fun hg hf hp => ?_, fun hg hf hp => ?_⟩
    · have hopen : s.mode.admitsStart = true := (admitsStart_iff _).2 ⟨hg, hf⟩
      rw [if_neg (by simp [hopen]), if_pos (BitVec.eq_of_toNat_eq hp)]
    · have hopen : s.mode.admitsStart = true := (admitsStart_iff _).2 ⟨hg, hf⟩
      have hwide : widthTooLarge p = true := decide_eq_true hp
      rw [if_neg (by simp [hopen]), if_neg (ne_zero_of_one_le_toNat (by omega)), if_pos hwide]
      rfl

/-- A `START` answered `OK` found the block unfaulted, outside a session, and a legal width. -/
theorem start_of_answeredOk {i : Instr} {p : Byte} {s : State} (hi : i ∈ [Instr.encgStart p, .encfStart p])
    (hok : (issue i s).answeredOk = true) :
    s.fault = none ∧ s.mode ≠ .encg ∧ s.mode ≠ .encf ∧ 1 ≤ p.toNat ∧ p.toNat ≤ 56 := by
  have hnot : ∀ t : State, t.answeredOk = false → exec i s ≠ .next t := by
    intro t ht hexec
    rw [issue_of_next hexec, ht] at hok
    cases hok
  have hs : s.fault = none := by
    by_contra hfault
    obtain ⟨c, hc⟩ := Option.ne_none_iff_exists'.1 hfault
    have hrd : ∀ g, i ≠ .rdreg g := by rintro g rfl; simp at hi
    exact hnot (refuse s) rfl (exec_of_faulted hc hrd)
  obtain ⟨hseq, hcount, hparam⟩ := startOpensASession.2 i p s hi hs
  have hg : s.mode ≠ .encg := fun hm => hnot (faultedBy .seq s) rfl (hseq (.inl hm))
  have hf : s.mode ≠ .encf := fun hm => hnot (faultedBy .seq s) rfl (hseq (.inr hm))
  refine ⟨hs, hg, hf, Nat.pos_of_ne_zero fun hp => ?_, Nat.le_of_not_lt fun hp => ?_⟩
  · exact hnot (faultedBy .count s) rfl (hcount hg hf hp)
  · exact hnot (reply .eParam 0#64 s) rfl (hparam hg hf hp)

end Sys2Proof.Machine
end

section
/-! A session at the window's end: only the window stops an encoder, where it stops it, and the margin that keeps it from
there (R143, R144, R148, R150, R162, R164). -/

namespace Sys2Proof.Machine

/-! ### The one fault of a session's micro-operations -/

/-- `ACC`, which an item updates before its bits are put (R143), does not count. -/
theorem Ready.setAcc {s : State} (h : Ready s) (v : Word) : Ready (s.setAcc v) :=
  ⟨h.window, h.form, h.inside, h.clean, h.offset⟩

/-- The micro-operation raises no fault but `F_BUS`. -/
def BusOnly {α : Type} (m : Micro α) : Prop := ∀ c t, m = .raised c t → c = .bus

theorem BusOnly.done {α : Type} (v : α) (s : State) : BusOnly (Micro.done v s) := nofun

theorem BusOnly.raised {α : Type} (s : State) : BusOnly (Micro.raised .bus s : Micro α) := by
  rintro _ _ ⟨⟩
  rfl

theorem putBits_busOnly (v : Word) (n : Nat) {s : State} (h : Ready s) : BusOnly (putBits v n s) := by
  by_cases hin : s.pos / 8 ≤ s.memSize
  · rw [putBits_done v n h.clean.1 hin]
    exact .done () _
  · rw [putBits_overrun h.clean.1 h.offset (Nat.lt_of_not_le hin)]
    exact .raised s

theorem putItem_busOnly (d : Word) {p : Nat} {s : State} (h : Ready s) (hp1 : 1 ≤ p) (hp : p ≤ 56) :
    BusOnly (putItem d p s) := by
  by_cases hin : (s.pos + d.toNat / 2 ^ p + 1) / 8 ≤ s.memSize
  · obtain ⟨t, hput, -⟩ := putItem_ready d h hp1 hp hin
    rw [hput]
    exact .done () t
  · obtain ⟨u, hput, -⟩ := putItem_overrun d h (Nat.lt_of_not_le hin)
    rw [hput]
    exact .raised u

/-- A final drain that would pass the window (R124), at its whole bytes or at the partial one. -/
theorem finalW_overrun {s : State} (hb : s.bitOff.val ≤ 63) (hw : s.memSize ≤ 2 ^ 60)
    (hoff : s.byteOff.toNat ≤ s.memSize) (hout : s.memSize < (s.pos + 7) / 8) : ∃ u, finalW s = .raised .bus u := by
  rw [State.pos_add_seven_div] at hout
  rw [finalW_eq s (by omega), if_neg (by omega)]
  by_cases hdrain : 1 ≤ s.bitOff.val / 8 ∧ s.memSize < s.byteOff.toNat + s.bitOff.val / 8
  · exact ⟨s, if_pos hdrain⟩
  · exact ⟨s.drained, by rw [if_neg hdrain, if_pos (by omega)]⟩

theorem finalW_busOnly {s : State} (h : Ready s) : BusOnly (finalW s) := by
  by_cases hin : (s.pos + 7) / 8 ≤ s.memSize
  · rw [finalW_done h.clean.1 h.window hin]
    exact .done () _
  · obtain ⟨u, hfin⟩ := finalW_overrun h.clean.1 h.window h.offset (Nat.lt_of_not_le hin)
    rw [hfin]
    exact .raised u

/-- A command whose micro-operations raise no fault but `F_BUS`, and whose answer raises none, ends in no other. -/
theorem BusOnly.finish {α : Type} {s : State} {m : Micro α} {k : α → State → State} (hm : BusOnly m)
    (hs : s.fault = none) (hc : SameControl s m.endState) (hk : ∀ v t, (k v t).fault = t.fault) {c : FaultCode}
    (h : (m.finish k).fault = some c) : c = .bus := by
  cases m with
  | done v t =>
    have hnone : t.fault = none := hc.fault.trans hs
    rw [Micro.finish_done, hk, hnone] at h
    cases h
  | raised f t =>
    have hnone : t.fault = none := hc.fault.trans hs
    obtain rfl := hm f t rfl
    rw [Micro.finish_raised, raiseFault_eq_faultedBy hnone] at h
    exact (Option.some.inj h).symm

theorem itemAnswer_fault (t : State) : (itemAnswer t).fault = t.fault := by
  unfold itemAnswer
  split <;> rfl

theorem endSession_fault_bus {s : State} {c : FaultCode} (h : Ready s) (hs : s.fault = none)
    (hc : (endSession s).fault = some c) : c = .bus := by
  refine (finalW_busOnly h).finish hs (finalW_control s) (fun _ t => ?_) hc
  split <;> rfl

/-- `ENCF.ITEM` in its session: the width check, then the put (R162). -/
theorem exec_encfItem_eq {v : Word} {s : State} (hs : s.fault = none) (hm : s.mode = .encf) :
    exec (.encfItem v) s =
      if fitsIn v s.p.val = false then .next (raiseFault .width s)
      else .next ((putBits v s.p.val s).finish fun _ t => reply .ok 0#64 t) := by
  show execEncfItem v s = _
  rw [execEncfItem, State.faulted_eq_false hs, hm]
  simp only [Bool.not_eq_true', Bool.false_eq_true, if_false]
  rfl

/-- Settles O24: the micro-operations of a session's commands are `BusOnly` on the cursor that `Inv` gives. -/
theorem sessionCommandsFaultOnlyOnTheBus : Obligations.SessionCommandsFaultOnlyOnTheBus := by
  intro s t c v hinv hs
  refine ⟨fun hm hexec hc => ?_, fun hm hexec hc => ?_, fun hm hexec hc => ?_⟩
  · have hready := hinv.ready (.inl hm)
    rcases hexec with hexec | hexec
    · obtain ⟨hp1, -, -⟩ := hinv.session (.inl hm)
      rw [exec_encgItem hs hm] at hexec
      obtain rfl := Host.Outcome.next.inj hexec
      exact (putItem_busOnly _ (hready.setAcc v) hp1 (by omega)).finish (s := s.setAcc v) hs (putItem_control _ _ _)
        (fun _ => itemAnswer_fault) hc
    · rw [exec_end (by decide) hs (by rw [hm]; decide)] at hexec
      obtain rfl := Host.Outcome.next.inj hexec
      exact endSession_fault_bus hready hs hc
  · rw [exec_end (by decide) hs (by rw [hm]; decide)] at hexec
    obtain rfl := Host.Outcome.next.inj hexec
    exact endSession_fault_bus (hinv.ready (.inr hm)) hs hc
  · rw [exec_encfItem_eq hs hm] at hexec
    split at hexec
    · obtain rfl := Host.Outcome.next.inj hexec
      rw [raiseFault_eq_faultedBy hs] at hc
      exact .inr (Option.some.inj hc).symm
    · obtain rfl := Host.Outcome.next.inj hexec
      exact .inl ((putBits_busOnly v s.p.val (hinv.ready (.inr hm))).finish hs (putBits_control v _ s)
        (fun _ => reply_fault .ok 0#64) hc)

/-! ### An item that passes the window -/

/-- The bits an item has put out when the window is full and eight bits are queued (R144). -/
theorem OutputExtends.eq_take {s u : State} {bits item : List Bool} {size : Nat} (h : OutputExtends s u bits)
    (hpre : bits <+: item) (hoff : u.byteOff.toNat = size) (hbit : u.bitOff.val = 8) :
    bits = item.take (8 * size + 8 - s.pos) := by
  have hpos : u.pos = 8 * size + 8 := by rw [State.pos, hoff, hbit]
  have hlen : 8 * size + 8 - s.pos = bits.length := by
    have := h.pos
    omega
  rw [hlen]
  exact List.prefix_iff_eq_take.1 hpre

/-- An item some drain of which would pass the window (R143, R144): `F_BUS` with `ACC` already its value, the cursor
untouched or the window full. -/
theorem exec_encgItem_overrun {v : Word} {s : State} (hs : s.fault = none) (hm : s.mode = .encg) (h : Ready s)
    (hout : s.memSize < (s.pos + (v - s.acc).toNat / 2 ^ s.p.val + 1) / 8) :
    ∃ u, exec (.encgItem v) s = .next (faultedBy .bus u) ∧ SameControl (s.setAcc v) u ∧
      (s.memSize < s.pos / 8 ∧ u = s.setAcc v ∨
        s.pos / 8 ≤ s.memSize ∧ u.byteOff.toNat = s.memSize ∧ u.bitOff.val = 8 ∧
          OutputExtends s u ((golombItem s.p.val (v - s.acc).toNat).take (8 * s.memSize + 8 - s.pos))) := by
  obtain ⟨u, hput, hkept, -, hwhere⟩ := putItem_overrun (p := s.p.val) (v - s.acc) (h.setAcc v) hout
  have hfault : u.fault = none := hkept.fault.trans hs
  refine ⟨u, ?_, hkept, hwhere.imp_right fun ⟨hlater, hfull, hqueued, bits, hpre, hext⟩ =>
    ⟨hlater, hfull, hqueued, ?_⟩⟩
  · rw [exec_encgItem hs hm, hput, Micro.finish_raised, raiseFault_eq_faultedBy hfault]
  · have hbits : OutputExtends s u bits := hext.of_setAcc
    rwa [hbits.eq_take hpre hfull hqueued] at hbits

/-- Settles O39: a fault moves nothing of what `exec_encgItem_overrun` gives. -/
theorem encgItemStopsAtTheWindowsEnd : Obligations.EncgItemStopsAtTheWindowsEnd := by
  intro v s hs hm hw hform hinside ⟨_, hc, hoff⟩ hout
  obtain ⟨u, hexec, hkept, hwhere⟩ := exec_encgItem_overrun hs hm ⟨hw, hform, hinside, hc, hoff⟩ hout
  refine ⟨_, hexec, rfl, rfl, hkept.acc, hkept.mode.trans hm, hkept.p, hkept.cap, hkept.memSize, hkept.inputs, ?_⟩
  rcases hwhere with ⟨hfirst, rfl⟩ | ⟨hlater, hfull, hqueued, hext⟩
  · rw [if_pos hfirst]
    exact ⟨rfl, rfl, rfl, rfl⟩
  · rw [if_neg (Nat.not_lt.2 hlater)]
    exact ⟨hfull, hqueued, hext.pos, hext.earlier, hext.appended, hext.clean, hext.rises, hext.elsewhere⟩

/-! ### The margin -/

/-- Settles O43: from an output offset 1024 bytes below the window's end, 63 queued bits and 8128 more reach no further
than the end, and so both commands complete. -/
theorem marginProtectsTheWindow : Obligations.MarginProtectsTheWindow := by
  intro s hinv hs hm hmargin hcap
  have hready := hinv.ready (.inl hm)
  obtain ⟨hp1, hc, hoff⟩ := hinv.session (.inl hm)
  have hpos : s.pos = 8 * s.byteOff.toNat + s.bitOff.val := rfl
  have hb := hc.1
  refine ⟨fun v hlen => ?_, ?_⟩
  · rw [length_golombItem] at hlen
    obtain ⟨t, hexec, -, hkept, -⟩ := exec_encgItem_completes (v := v) hs hm hready hp1 (by omega)
    exact ⟨_, hexec, (itemAnswer_fault t).trans (hkept.fault.trans hs)⟩
  · obtain ⟨t, hexec, -, -, hfault, -⟩ := endStoresTheStreamAndReportsItsLength .encgEnd s (by decide) hs
      (by rw [hm]; decide) hready.window hready.form ⟨hp1, hc, hoff⟩ (by omega)
    exact ⟨t, hexec, hfault⟩

end Sys2Proof.Machine
end

section
/-! Golomb-Rice items read back: where the buffer holds the item of a value, `DECG` returns that value, and where it holds a
stream, the loop of `DECODE_GCS` returns its values (R71, R91, R171). -/

namespace Sys2Proof.Machine

/-! ### A list of bits in the buffer -/

/-- The stream bits of the buffer from `k` on are `bits` (R10). -/
def Memory.HoldsBits (m : Memory) (k : Nat) (bits : List Bool) : Prop :=
  ∀ j, j < bits.length → bits[j]? = some (Memory.streamBit m (k + j))

namespace Memory.HoldsBits

variable {m : Memory} {k : Nat}

theorem left {xs ys : List Bool} (h : Memory.HoldsBits m k (xs ++ ys)) : Memory.HoldsBits m k xs := by
  intro j hj
  rw [← List.getElem?_append_left hj]
  exact h j (by rw [List.length_append]; omega)

theorem right {xs ys : List Bool} (h : Memory.HoldsBits m k (xs ++ ys)) : Memory.HoldsBits m (k + xs.length) ys := by
  intro j hj
  have hbit := h (xs.length + j) (by rw [List.length_append]; omega)
  rwa [List.getElem?_append_right (by omega), Nat.add_sub_cancel_left, ← Nat.add_assoc] at hbit

theorem head {b : Bool} {bs : List Bool} (h : Memory.HoldsBits m k (b :: bs)) : Memory.streamBit m k = b :=
  (Option.some.inj (h 0 (by simp))).symm

theorem replicate {q : Nat} {b : Bool} (h : Memory.HoldsBits m k (List.replicate q b)) :
    ∀ j < q, Memory.streamBit m (k + j) = b := by
  intro j hj
  have hbit := h j (by rwa [List.length_replicate])
  rw [List.getElem?_replicate_of_lt hj] at hbit
  exact (Option.some.inj hbit).symm

/-- A field of the buffer that holds the low bits of a number reads as them (R10, R74). -/
theorem streamBits_eq {v n : Nat} (h : Memory.HoldsBits m k (bitsOf v n)) : Memory.streamBits m k n = v % 2 ^ n := by
  apply Nat.eq_of_testBit_eq
  intro j
  rw [Memory.testBit_streamBits, Nat.testBit_mod_two_pow]
  by_cases hj : j < n
  · have hbit := h (n - 1 - j) (by rw [length_bitsOf]; omega)
    rw [getElem?_bitsOf _ _ _ (by omega), show n - 1 - (n - 1 - j) = j by omega,
      show k + (n - 1 - j) = k + n - 1 - j by omega] at hbit
    rw [Option.some.inj hbit]
  · simp only [hj, decide_false, Bool.false_and]

/-- The three parts of an item (R71): `q` ones, a zero, the remainder. -/
theorem golombItem_parts {p d : Nat} (h : Memory.HoldsBits m k (golombItem p d)) :
    (∀ j < d / 2 ^ p, Memory.streamBit m (k + j) = true) ∧ Memory.streamBit m (k + d / 2 ^ p) = false ∧
      Memory.streamBits m (k + d / 2 ^ p + 1) p = d % 2 ^ p := by
  have hrest := h.right
  rw [List.length_replicate] at hrest
  have hfield : Memory.HoldsBits m (k + d / 2 ^ p + 1) (bitsOf (d % 2 ^ p) p) := hrest.right (xs := [false])
  exact ⟨h.left.replicate, hrest.head, by rw [hfield.streamBits_eq, Nat.mod_mod]⟩

end Memory.HoldsBits

/-! ### Reading an item back -/

/-- The item read of `DECG` on a run of `q` ones and a zero whose remainder can be refilled (R171). -/
theorem readItem_run {p q : Nat} {s : State} (hp : p ≤ 57) (hw : s.memSize ≤ 2 ^ 60)
    (hones : ∀ j < q, Memory.streamBit s.mem (s.pos + j) = true)
    (hzero : Memory.streamBit s.mem (s.pos + q) = false) (hin : (s.pos + q + 1) / 8 + 8 ≤ s.memSize) :
    readItem p s = .done (q, BitVec.ofNat 64 (Memory.streamBits s.mem (s.pos + q + 1) p))
      (s.afterRead (s.pos + q + 1) p) := by
  have hpos : (s.afterRead (s.pos + q) 1).pos = s.pos + q + 1 := State.pos_afterRead s (by omega) (by omega)
  rw [readItem, readUnary_run q s hw hones hzero (by omega), Micro.andThen_done, getBits_eq _ hp, hpos,
    State.afterRead_memSize, if_neg (by omega)]
  rfl

/-- The quotient of a 64-bit value passes the check of R174. -/
theorem quotientFits_div (d : Word) {p : Nat} (hp : p ≤ 64) : quotientFits (d.toNat / 2 ^ p) p = true := by
  refine decide_eq_true (Nat.div_lt_of_lt_mul ?_)
  rw [← Nat.pow_add, Nat.add_sub_cancel' hp]
  exact d.isLt

/-- The quotient and the remainder of a value give it back (R72, R171). -/
theorem itemValue_div_mod (d : Word) (p : Nat) :
    itemValue (d.toNat / 2 ^ p) p (BitVec.ofNat 64 (d.toNat % 2 ^ p)) = d := by
  have hmod : d.toNat % 2 ^ p < 2 ^ 64 := (Nat.mod_le _ _).trans_lt d.isLt
  rw [itemValue, BitVec.toNat_ofNat, Nat.mod_eq_of_lt hmod, Nat.div_add_mod', BitVec.ofNat_toNat, BitVec.setWidth_eq]

/-- `DECG p` where the buffer holds the item of a 64-bit value returns that value and stands past the item. -/
theorem exec_decg_item {p : Byte} {s : State} {d : Word} (hs : s.fault = none) (hm : s.mode = .fresh ∨ s.mode = .rd)
    (hp1 : 1 ≤ p.toNat) (hp : p.toNat ≤ 57) (hw : s.memSize ≤ 2 ^ 60)
    (hbits : Memory.HoldsBits s.mem s.pos (golombItem p.toNat d.toNat))
    (hin : (s.pos + d.toNat / 2 ^ p.toNat + 1) / 8 + 8 ≤ s.memSize) :
    exec (.decg p) s =
      .next (reply .ok d ((s.afterRead (s.pos + d.toNat / 2 ^ p.toNat + 1) p.toNat).setMode .rd)) := by
  obtain ⟨hones, hzero, hrem⟩ := hbits.golombItem_parts
  rw [exec_decg hs hm hp1 hp, readItem_run hp hw hones hzero hin, hrem, Micro.finish_done,
    if_pos (quotientFits_div d (by omega)), itemValue_div_mod]

/-- A read pass stands before `bits`, with room in the window for the refill of every one of them (R59). -/
structure ReadsFrom (s : State) (bits : List Bool) : Prop where
  unfaulted : s.fault = none
  admits : s.mode = .fresh ∨ s.mode = .rd
  window : s.memSize ≤ 2 ^ 60
  holds : Memory.HoldsBits s.mem s.pos bits
  room : (s.pos + bits.length + 7) / 8 + 7 ≤ s.memSize

namespace ReadsFrom

variable {p : Byte} {s : State}

/-- One `DECG` of a read pass at an item. -/
theorem decg {d : Word} {bits : List Bool} (h : ReadsFrom s (golombItem p.toNat d.toNat ++ bits))
    (hp1 : 1 ≤ p.toNat) (hp : p.toNat ≤ 57) :
    (issue (.decg p) s).resp = some ⟨.ok, d⟩ ∧ ReadsFrom (issue (.decg p) s) bits := by
  have hw := h.window
  have hroom := h.room
  have hrest := h.holds.right
  rw [List.length_append, length_golombItem] at hroom
  rw [length_golombItem] at hrest
  have hpos : (s.afterRead (s.pos + d.toNat / 2 ^ p.toNat + 1) p.toNat).pos =
      s.pos + (d.toNat / 2 ^ p.toNat + 1 + p.toNat) := by
    rw [State.pos_afterRead s hp (by omega)]
    omega
  rw [issue_of_next (exec_decg_item h.unfaulted h.admits hp1 hp hw h.holds.left (by omega))]
  refine ⟨rfl, h.unfaulted, .inr rfl, hw, ?_, ?_⟩
  · exact hpos ▸ hrest
  · show ((s.afterRead _ _).pos + bits.length + 7) / 8 + 7 ≤ s.memSize
    omega

/-- `DECODE_GCS`'s loop on the stream of `vs` (R91): every `DECG` answers `OK`, and the running sums are the values. -/
theorem decodesValues {vs : List Word} {prev : Word} (h : ReadsFrom s (golombStream p.toNat prev vs))
    (hp1 : 1 ≤ p.toNat) (hp : p.toNat ≤ 57) :
    ReadEndedWell (List.replicate vs.length (.decg p)) s ∧ (decodeGcsItems p vs.length prev s).1 = vs ∧
      (decodeGcsItems p vs.length prev s).2.fault = none := by
  induction vs generalizing s prev with
  | nil => exact ⟨.nil h.unfaulted, rfl, h.unfaulted⟩
  | cons v vs ih =>
    obtain ⟨hresp, hrest⟩ := h.decg hp1 hp
    have hok : (issue (.decg p) s).answeredOk = true := (State.answeredOk_iff _).2 ⟨_, hresp⟩
    have hsum : prev + (issue (.decg p) s).answer = v := by
      rw [State.answer, hresp]
      show prev + (v - prev) = v
      rw [BitVec.add_comm, BitVec.sub_add_cancel]
    obtain ⟨hends, hvalues, hfault⟩ := ih hrest
    simp only [List.length_cons, List.replicate_succ, decodeGcsItems, hok, if_true, hsum]
    exact ⟨readEndedWell_cons.2 ⟨rfl, hok, hends⟩, by rw [hvalues], hfault⟩

end ReadsFrom

end Sys2Proof.Machine
end

section
/-! The Golomb-Rice round trip: an `ENCODE_GOLOMB` answered `OK` has stored its stream, and `DECODE_GCS` reads it back (R88,
R91, R151). -/

namespace Sys2Proof.Machine

/-! ### What an `OK` says of a session -/

/-- An `ENCG.ITEM` answered `OK` has put its whole item: the window had room for it. -/
theorem SessionPass.encgItem_of_answeredOk {o t : State} {bits : List Bool} {v : Word} (h : SessionPass .encg o t bits)
    (hoff : t.byteOff.toNat ≤ t.memSize) (hok : (issue (.encgItem v) t).answeredOk = true) :
    (issue (.encgItem v) t).acc = v ∧
      (issue (.encgItem v) t).byteOff.toNat ≤ (issue (.encgItem v) t).memSize ∧
      SessionPass .encg o (issue (.encgItem v) t) (bits ++ golombItem o.p.val (v - t.acc).toNat) := by
  have hready : Ready t := ⟨h.window, h.form, h.inside rfl, h.output.clean, hoff⟩
  by_cases hin : (t.pos + (v - t.acc).toNat / 2 ^ t.p.val + 1) / 8 ≤ t.memSize
  · obtain ⟨u, hexec, hout, hkept, hu, -⟩ := exec_encgItem_completes (v := v) h.unfaulted h.mode hready h.width hin
    have hp : u.p = t.p := hkept.p
    have hcap : u.cap = t.cap := hkept.cap
    have hsize : u.memSize = t.memSize := hkept.memSize
    by_cases hreached : u.cap.toNat ≤ u.byteOff.toNat + 1024
    · rw [itemAnswer_of_reached hreached] at hexec
      rw [issue_of_next hexec] at hok
      cases hok
    · rw [itemAnswer_of_room (Nat.lt_of_not_le hreached)] at hexec
      rw [issue_of_next hexec, ← h.p]
      exact ⟨hkept.acc, hu.offset, hkept.fault.trans h.unfaulted, hkept.mode.trans h.mode,
        by rw [reply_p, hp]; exact h.width, hp.trans h.p, hcap.trans h.cap, hsize.trans h.memSize, hu.window, hu.form,
        fun _ => hu.inside, h.output.trans (hout.reply .ok 0#64)⟩
  · obtain ⟨u, hexec, -⟩ := exec_encgItem_overrun (v := v) h.unfaulted h.mode hready (Nat.lt_of_not_le hin)
    rw [issue_of_next hexec] at hok
    cases hok

/-- The items of a Golomb session that are all answered `OK` have put out their stream. -/
theorem SessionPass.encgItems_of_answeredOk {o t : State} {bits : List Bool} {vs : List Word}
    (h : SessionPass .encg o t bits) (hoff : t.byteOff.toNat ≤ t.memSize)
    (hok : allAnsweredOk (vs.map .encgItem) t = true) :
    (issueAll (vs.map .encgItem) t).byteOff.toNat ≤ (issueAll (vs.map .encgItem) t).memSize ∧
      SessionPass .encg o (issueAll (vs.map .encgItem) t) (bits ++ golombStream o.p.val t.acc vs) := by
  induction vs generalizing t bits with
  | nil => exact ⟨hoff, by simpa [golombStream] using h⟩
  | cons v vs ih =>
    rw [List.map_cons, allAnsweredOk_cons, Bool.and_eq_true] at hok
    obtain ⟨hitem, hitems⟩ := hok
    obtain ⟨hacc, hoff', hput⟩ := h.encgItem_of_answeredOk hoff hitem
    have hrest := ih hput hoff' hitems
    rwa [hacc, List.append_assoc] at hrest

/-- An `END` answered `OK` had room for what was queued, and had put out at least a bit (R148). -/
theorem SessionPass.fits_of_endedWell {m : Mode} {o u t : State} {bits : List Bool} {e : Instr} {n : Word}
    (h : SessionPass m o u bits) (hoff : u.byteOff.toNat ≤ u.memSize) (he : e ∈ [Instr.encgEnd, .encfEnd])
    (hm : m ∈ admittedModes e) (hend : EndedWell e u t n) : u.pos ≠ 0 ∧ (u.pos + 7) / 8 ≤ u.memSize := by
  obtain ⟨-, hexec, hresp⟩ := hend
  have hb := h.output.clean.1
  have hmode : u.mode ∈ admittedModes e := by rwa [h.mode]
  by_cases hin : (u.pos + 7) / 8 ≤ u.memSize
  · refine ⟨fun hzero => ?_, hin⟩
    rw [exec_end he h.unfaulted hmode, endSession_eq hb h.window hin] at hexec
    obtain rfl := Host.Outcome.next.inj hexec
    rw [State.setResp_resp, endResponse, if_pos hzero] at hresp
    cases hresp
  · obtain ⟨v, hfin⟩ := finalW_overrun hb h.window hoff (Nat.lt_of_not_le hin)
    rw [exec_close_of_finalW_raised (List.mem_cons_of_mem _ he) h.unfaulted hmode hfin] at hexec
    obtain rfl := Host.Outcome.next.inj hexec
    cases hresp

/-- An `END` answered `OK` has left the session's bits at the start of the buffer, and its answer is their length. -/
theorem SessionPass.stored_of_endedWell {m : Mode} {o u t : State} {bits : List Bool} {e : Instr} {n : Word}
    (h : SessionPass m o u bits) (hoff : u.byteOff.toNat ≤ u.memSize) (he : e ∈ [Instr.encgEnd, .encfEnd])
    (hm : m ∈ admittedModes e) (hstart : o.pos = 0) (hend : EndedWell e u t n) :
    t.memSize = o.memSize ∧ t.fault = none ∧ n.toNat = (bits.length + 7) / 8 ∧ Memory.HoldsBits t.mem 0 bits := by
  obtain ⟨hpos, hin⟩ := h.fits_of_endedWell hoff he hm hend
  obtain ⟨-, hexec, hresp⟩ := hend
  rw [h.output.pos, hstart, Nat.zero_add] at hpos hin
  rw [h.memSize] at hin
  have hstored := h.close he hm hstart (fun hnil => hpos (List.length_eq_zero_iff.2 hnil)) hin
  rw [issue_of_next hexec] at hstored
  obtain ⟨n', hlen, ⟨-, -, hresp'⟩, -, hfault, hbits, -⟩ := hstored
  obtain rfl : n' = n := by simpa [hresp] using hresp'.symm
  have hcodec : writesCodec e = false := by
    simp only [List.mem_cons, List.not_mem_nil, or_false] at he
    rcases he with rfl | rfl <;> rfl
  have hsize := (exec_codec hcodec u t hexec).memSize
  exact ⟨hsize.trans h.memSize, hfault, hlen, fun j hj => by rw [Nat.zero_add]; exact hbits j hj⟩

/-- An `ENCODE_GOLOMB` answered `OK` was given a legal width and left its stream at the start of the buffer. -/
theorem encodeGolomb_of_ok {s : State} {p : Byte} {values : List Word} {n : Word} (hw : s.memSize ≤ 2 ^ 60)
    (hform : Memory.wf s.mem) (hinside : ∀ c ∈ s.mem, c.1 < s.memSize)
    (hresp : (encodeGolomb p values s).resp = some ⟨.ok, n⟩) :
    1 ≤ p.toNat ∧ p.toNat ≤ 56 ∧ (encodeGolomb p values s).memSize = s.memSize ∧
      (encodeGolomb p values s).fault = none ∧ n.toNat = ((golombStream p.toNat 0#64 values).length + 7) / 8 ∧
      Memory.HoldsBits (encodeGolomb p values s).mem 0 (golombStream p.toNat 0#64 values) := by
  obtain ⟨hall, hend⟩ := (encodeCallsAnswerOkExactlyAtAGoodEnd s p values n).1.1 hresp
  rw [allAnsweredOk_cons, Bool.and_eq_true] at hall
  obtain ⟨hstart, hitems⟩ := hall
  obtain ⟨hs, hg, hf, hp1, hp⟩ := start_of_answeredOk (p := p) (by simp) hstart
  have hopen := issue_of_next (exec_encgStart hs hg hf hp1 hp)
  rw [hopen] at hitems
  rw [issueAll_cons, hopen] at hend
  obtain ⟨hoff, hpass⟩ := (SessionPass.golombNil hs hp1 hp hw hform hinside).encgItems_of_answeredOk
    (Nat.zero_le _) hitems
  rw [List.nil_append, golombOpened_p hp] at hpass
  exact ⟨hp1, hp, hpass.stored_of_endedWell hoff (by decide) (by decide) rfl hend⟩

/-! ### Encoding, then decoding -/

/-- Settles O49: the `OK` of `ENCODE_GOLOMB` gives the stream in the buffer, and from `INIT`'s position 0 on
`DECODE_GCS` reads it back item by item. -/
theorem golombRoundTrip : Obligations.GolombRoundTrip := by
  intro s p values n ⟨_, hw⟩ hform hinside hresp hover
  obtain ⟨hp1, hp, hsize, hfault, hn, hholds⟩ := encodeGolomb_of_ok hw hform hinside hresp
  have hinit := issue_of_next (exec_init hfault)
  have hread : ReadsFrom (issue .init (encodeGolomb p values s)) (golombStream p.toNat 0#64 values) := by
    rw [hinit]
    refine ⟨hfault, .inl rfl, hsize.trans_le hw, hholds, ?_⟩
    show (0 + _ + 7) / 8 + 7 ≤ (encodeGolomb p values s).memSize
    omega
  exact hread.decodesValues hp1 (by omega)

end Sys2Proof.Machine
end

section
/-! The fixed-width round trip: an `ENCODE_FIXED` answered `OK` has stored fields its width holds, and `DECODE_FIXED` reads
them back (R89, R90, R166). -/

namespace Sys2Proof.Machine

theorem fixedStream_cons (p : Nat) (v : Word) (vs : List Word) :
    fixedStream p (v :: vs) = bitsOf v.toNat p ++ fixedStream p vs := List.flatMap_cons

/-! ### What an `OK` says of a fixed-width session -/

/-- An `ENCF.ITEM` answered `OK` passed the width check, and its drain stayed in the window (R162). -/
theorem encfItem_fits_of_answeredOk {v : Word} {s : State} (hs : s.fault = none) (hm : s.mode = .encf)
    (hb : s.bitOff.val ≤ 63) (hoff : s.byteOff.toNat ≤ s.memSize)
    (hok : (issue (.encfItem v) s).answeredOk = true) : v.toNat < 2 ^ s.p.val ∧ s.pos / 8 ≤ s.memSize := by
  have hexec := exec_encfItem_eq (v := v) hs hm
  cases hfit : fitsIn v s.p.val with
  | false =>
    rw [if_pos hfit] at hexec
    rw [issue_of_next hexec] at hok
    cases hok
  | true =>
    refine ⟨(fitsIn_iff v _).1 hfit, Nat.le_of_not_lt fun hout => ?_⟩
    rw [if_neg (by simp [hfit]), putBits_overrun hb hoff hout] at hexec
    rw [issue_of_next hexec] at hok
    cases hok

namespace SessionPass

variable {o t : State} {bits : List Bool}

/-- An `ENCF.ITEM` answered `OK` has put its whole field: the value and the window had room for it. -/
theorem encfItem_of_answeredOk {v : Word} (h : SessionPass .encf o t bits) (hoff : t.byteOff.toNat ≤ t.memSize)
    (hok : (issue (.encfItem v) t).answeredOk = true) :
    v.toNat < 2 ^ o.p.val ∧ (issue (.encfItem v) t).byteOff.toNat ≤ (issue (.encfItem v) t).memSize ∧
      SessionPass .encf o (issue (.encfItem v) t) (bits ++ bitsOf v.toNat o.p.val) := by
  have hb := h.output.clean.1
  have hw := h.window
  obtain ⟨hv, hin⟩ := encfItem_fits_of_answeredOk h.unfaulted h.mode hb hoff hok
  have hexec := exec_encfItem h.unfaulted h.mode hv hb hin
  have hoff' : (issue (.encfItem v) t).byteOff.toNat ≤ (issue (.encfItem v) t).memSize := by
    rw [issue_of_next hexec]
    have hlt : t.byteOff.toNat + t.bitOff.val / 8 < 2 ^ 64 := by
      rw [State.pos_div] at hin
      omega
    exact (putState_byteOff v t.p.val t hlt).trans_le hin
  rw [h.p] at hv
  rw [h.output.pos, h.memSize] at hin
  exact ⟨hv, hoff', (h.encfItem hv hin).2⟩

/-- The items of a fixed-width session that are all answered `OK` are in range and have put out their fields. -/
theorem encfItems_of_answeredOk {vs : List Word} (h : SessionPass .encf o t bits)
    (hoff : t.byteOff.toNat ≤ t.memSize) (hok : allAnsweredOk (vs.map .encfItem) t = true) :
    (∀ v ∈ vs, v.toNat < 2 ^ o.p.val) ∧
      (issueAll (vs.map .encfItem) t).byteOff.toNat ≤ (issueAll (vs.map .encfItem) t).memSize ∧
      SessionPass .encf o (issueAll (vs.map .encfItem) t) (bits ++ fixedStream o.p.val vs) := by
  induction vs generalizing t bits with
  | nil => exact ⟨nofun, hoff, by simpa [fixedStream] using h⟩
  | cons v vs ih =>
    rw [List.map_cons, allAnsweredOk_cons, Bool.and_eq_true] at hok
    obtain ⟨hitem, hitems⟩ := hok
    obtain ⟨hv, hoff', hput⟩ := h.encfItem_of_answeredOk hoff hitem
    obtain ⟨hvs, hend, hpass⟩ := ih hput hoff' hitems
    rw [fixedStream_cons, ← List.append_assoc]
    exact ⟨List.forall_mem_cons.2 ⟨hv, hvs⟩, hend, hpass⟩

end SessionPass

/-- An `ENCODE_FIXED` answered `OK` was given a legal width and values below `2^p`, and left their fields at the start of
the buffer. -/
theorem encodeFixed_of_ok {s : State} {p : Byte} {values : List Word} {n : Word} (hw : s.memSize ≤ 2 ^ 60)
    (hform : Memory.wf s.mem) (hresp : (encodeFixed p values s).resp = some ⟨.ok, n⟩) :
    1 ≤ p.toNat ∧ p.toNat ≤ 56 ∧ (∀ v ∈ values, v.toNat < 2 ^ p.toNat) ∧
      (encodeFixed p values s).memSize = s.memSize ∧ (encodeFixed p values s).fault = none ∧
      n.toNat = ((fixedStream p.toNat values).length + 7) / 8 ∧
      Memory.HoldsBits (encodeFixed p values s).mem 0 (fixedStream p.toNat values) := by
  obtain ⟨hall, hend⟩ := (encodeCallsAnswerOkExactlyAtAGoodEnd s p values n).2.1 hresp
  rw [allAnsweredOk_cons, Bool.and_eq_true] at hall
  obtain ⟨hstart, hitems⟩ := hall
  obtain ⟨hs, hg, hf, hp1, hp⟩ := start_of_answeredOk (p := p) (by simp) hstart
  have hopen := issue_of_next (exec_encfStart hs hg hf hp1 hp)
  rw [hopen] at hitems
  rw [issueAll_cons, hopen] at hend
  obtain ⟨hvalues, hoff, hpass⟩ := (SessionPass.fixedNil hs hp1 hp hw hform).encfItems_of_answeredOk
    (Nat.zero_le _) hitems
  rw [fixedOpened_p hp] at hvalues
  rw [List.nil_append, fixedOpened_p hp] at hpass
  exact ⟨hp1, hp, hvalues, hpass.stored_of_endedWell hoff (by decide) (by decide) rfl hend⟩

/-! ### Reading the fields back -/

/-- `DECF p` where the buffer holds the field of a value below `2^p` returns that value and stands past the field (R177). -/
theorem exec_decf_field {p : Byte} {s : State} {v : Word} (hs : s.fault = none) (hm : s.mode = .fresh ∨ s.mode = .rd)
    (hp1 : 1 ≤ p.toNat) (hp : p.toNat ≤ 57) (hv : v.toNat < 2 ^ p.toNat)
    (hbits : Memory.HoldsBits s.mem s.pos (bitsOf v.toNat p.toNat)) (hin : s.pos / 8 + 8 ≤ s.memSize) :
    exec (.decf p) s = .next (reply .ok v ((s.afterRead s.pos p.toNat).setMode .rd)) := by
  rw [exec_fieldRead (n := p) (by simp) hs, readField_eq hm hp1 hp, getBits_eq s hp, if_neg (Nat.not_lt.2 hin),
    hbits.streamBits_eq, Nat.mod_eq_of_lt hv, BitVec.ofNat_toNat, BitVec.setWidth_eq, Micro.finish_done]

namespace ReadsFrom

variable {p : Byte} {s : State}

/-- One `DECF` of a read pass at a field. -/
theorem decf {v : Word} {bits : List Bool} (h : ReadsFrom s (bitsOf v.toNat p.toNat ++ bits))
    (hp1 : 1 ≤ p.toNat) (hp : p.toNat ≤ 57) (hv : v.toNat < 2 ^ p.toNat) :
    (issue (.decf p) s).resp = some ⟨.ok, v⟩ ∧ ReadsFrom (issue (.decf p) s) bits := by
  have hw := h.window
  have hroom := h.room
  have hrest := h.holds.right
  rw [List.length_append, length_bitsOf] at hroom
  rw [length_bitsOf] at hrest
  have hpos : (s.afterRead s.pos p.toNat).pos = s.pos + p.toNat := State.pos_afterRead s hp (by omega)
  rw [issue_of_next (exec_decf_field h.unfaulted h.admits hp1 hp hv h.holds.left (by omega))]
  refine ⟨rfl, h.unfaulted, .inr rfl, hw, ?_, ?_⟩
  · exact hpos ▸ hrest
  · show ((s.afterRead _ _).pos + bits.length + 7) / 8 + 7 ≤ s.memSize
    omega

/-- `DECODE_FIXED`'s loop on the fields of `vs` (R90): every `DECF` answers `OK` with its value. -/
theorem decodesFields {vs : List Word} (h : ReadsFrom s (fixedStream p.toNat vs)) (hp1 : 1 ≤ p.toNat)
    (hp : p.toNat ≤ 57) (hvs : ∀ v ∈ vs, v.toNat < 2 ^ p.toNat) :
    ReadEndedWell (List.replicate vs.length (.decf p)) s ∧ (decodeFixedItems p vs.length s).1 = vs ∧
      (decodeFixedItems p vs.length s).2.fault = none := by
  induction vs generalizing s with
  | nil => exact ⟨.nil h.unfaulted, rfl, h.unfaulted⟩
  | cons v vs ih =>
    obtain ⟨hv, hvs⟩ := List.forall_mem_cons.1 hvs
    rw [fixedStream_cons] at h
    obtain ⟨hresp, hrest⟩ := h.decf hp1 hp hv
    have hok : (issue (.decf p) s).answeredOk = true := (State.answeredOk_iff _).2 ⟨_, hresp⟩
    have hanswer : (issue (.decf p) s).answer = v := by
      rw [State.answer, hresp]
      rfl
    obtain ⟨hends, hvalues, hfault⟩ := ih hrest hvs
    simp only [List.length_cons, List.replicate_succ, decodeFixedItems, hanswer]
    exact ⟨readEndedWell_cons.2 ⟨rfl, hok, hends⟩, by rw [hvalues], hfault⟩

/-- `INIT` starts a read pass at position 0 (R100). -/
theorem ofInit {t : State} {bits : List Bool} (hs : t.fault = none) (hw : t.memSize ≤ 2 ^ 60)
    (hholds : Memory.HoldsBits t.mem 0 bits) (hroom : (bits.length + 7) / 8 + 7 ≤ t.memSize) :
    ReadsFrom (issue .init t) bits := by
  rw [issue_of_next (exec_init hs)]
  refine ⟨hs, .inl rfl, hw, hholds, ?_⟩
  show (0 + bits.length + 7) / 8 + 7 ≤ t.memSize
  rwa [Nat.zero_add]

end ReadsFrom

/-! ### Encoding, then decoding -/

/-- Settles O50: the `OK` of `ENCODE_FIXED` gives values in range and their fields in the buffer, and from `INIT`'s
position 0 on `DECODE_FIXED` reads them back field by field. -/
theorem fixedRoundTrip : Obligations.FixedRoundTrip := by
  intro s p values n ⟨_, hw⟩ hform hresp hover
  obtain ⟨hp1, hp, hvalues, hsize, hfault, hn, hholds⟩ := encodeFixed_of_ok hw hform hresp
  rw [hn, ← hsize] at hover
  exact (ReadsFrom.ofInit hfault (hsize.trans_le hw) hholds hover).decodesFields hp1 (by omega) hvalues

end Sys2Proof.Machine
end

section
/-! `DECG` where it ends: the value of the item at the position, the overflow of its quotient, and the two ways into the
window's end (R171, R174, R175). -/

namespace Sys2Proof.Machine

/-! ### The item read and what its quotient decides -/

theorem quotientFits_iff (q p : Nat) : quotientFits q p = true ↔ q < 2 ^ (64 - p) :=
  decide_eq_true_iff

/-- The remainder read from the stream has at most 57 bits, so the value is the sum on numbers (R72). -/
theorem itemValue_streamBits {q p : Nat} (m : Memory) (k : Nat) (hp : p ≤ 57) :
    itemValue q p (BitVec.ofNat 64 (Memory.streamBits m k p)) =
      BitVec.ofNat 64 (q * 2 ^ p + Memory.streamBits m k p) := by
  have hlt : Memory.streamBits m k p < 2 ^ 64 :=
    (Memory.streamBits_lt m k p).trans_le (Nat.pow_le_pow_right (by decide) (by omega))
  rw [itemValue, BitVec.toNat_ofNat, Nat.mod_eq_of_lt hlt]

/-- `DECG p` on a run of `q` ones and a zero whose remainder can be refilled: the cursor stands past the item, and
whether the value fits in 64 bits decides the answer (R171, R174). -/
theorem exec_decg_run {p : Byte} {s : State} {q : Nat} (hs : s.fault = none) (hm : s.mode = .fresh ∨ s.mode = .rd)
    (hp1 : 1 ≤ p.toNat) (hp : p.toNat ≤ 57) (hw : s.memSize ≤ 2 ^ 60)
    (hones : ∀ j < q, Memory.streamBit s.mem (s.pos + j) = true)
    (hzero : Memory.streamBit s.mem (s.pos + q) = false) (hin : (s.pos + q + 1) / 8 + 8 ≤ s.memSize) :
    exec (.decg p) s = .next (
      if quotientFits q p.toNat then
        reply .ok (BitVec.ofNat 64 (q * 2 ^ p.toNat + Memory.streamBits s.mem (s.pos + q + 1) p.toNat))
          ((s.afterRead (s.pos + q + 1) p.toNat).setMode .rd)
      else faultedBy .ovf (s.afterRead (s.pos + q + 1) p.toNat)) := by
  have hfault : (s.afterRead (s.pos + q + 1) p.toNat).fault = none := hs
  rw [exec_decg hs hm hp1 hp, readItem_run hp hw hones hzero hin, Micro.finish_done, itemValue_streamBits _ _ hp,
    raiseFault_eq_faultedBy hfault]

/-- Settles O29: the run's quotient fits, so the item's value is answered. -/
theorem decgReturnsTheItemsValue : Obligations.DecgReturnsTheItemsValue := by
  intro p s q hs hm hp1 hp hw hones hzero hin hq
  refine ⟨bitOffOf ((s.pos + q + 1) % 8 + p.toNat), bitOffOf_val (by omega), ?_⟩
  rw [exec_decg_run hs hm hp1 hp hw hones hzero hin, if_pos ((quotientFits_iff _ _).2 hq), State.afterRead,
    Memory.readBytes_eq_streamBits]
  rfl

/-- Settles O30: the run's quotient does not fit, and the remainder has been read. -/
theorem decgQuotientOverflowFaults : Obligations.DecgQuotientOverflowFaults := by
  intro p s q hs hm hp1 hp hw hones hzero hin hq
  rw [exec_decg_run hs hm hp1 hp hw hones hzero hin, if_neg (mt (quotientFits_iff _ _).1 (Nat.not_lt.2 hq))]

/-! ### The window's end -/

/-- A fault of the item read is the fault of `DECG`, in the state it was raised in (R211). -/
theorem exec_decg_of_raised {p : Byte} {s t : State} {c : FaultCode} (hs : s.fault = none)
    (hm : s.mode = .fresh ∨ s.mode = .rd) (hp1 : 1 ≤ p.toNat) (hp : p.toNat ≤ 57)
    (h : readItem p.toNat s = .raised c t) (ht : t.fault = none) : exec (.decg p) s = .next (faultedBy c t) := by
  rw [exec_decg hs hm hp1 hp, h, Micro.finish_raised, raiseFault_eq_faultedBy ht]

/-- The cursor after the last bit that can be read, at position `8·MEMSIZE - 57` (R175). -/
theorem State.afterRead_last {s : State} (h : 8 ≤ s.memSize) :
    s.afterRead (8 * s.memSize - 57) 1 = { s with
      lookahead := BitVec.ofNat 64 (Memory.streamBits s.mem (8 * (s.memSize - 8)) 64)
      bitOff := 8
      byteOff := BitVec.ofNat 64 (s.memSize - 8) } := by
  have hdiv : (8 * s.memSize - 57) / 8 = s.memSize - 8 := by omega
  have hmod : (8 * s.memSize - 57) % 8 = 7 := by omega
  rw [State.afterRead, hdiv, hmod, Memory.readBytes_eq_streamBits]
  rfl

/-- The item read stops after a terminator that leaves no room for the refill of the remainder (R175). -/
theorem readItem_terminator {p q : Nat} {s : State} (hp : p ≤ 57) (hw : s.memSize ≤ 2 ^ 60)
    (hones : ∀ j < q, Memory.streamBit s.mem (s.pos + j) = true)
    (hzero : Memory.streamBit s.mem (s.pos + q) = false) (hin : (s.pos + q) / 8 + 8 ≤ s.memSize)
    (hout : s.memSize < (s.pos + q + 1) / 8 + 8) :
    readItem p s = .raised .bus (s.afterRead (s.pos + q) 1) := by
  have hpos : (s.afterRead (s.pos + q) 1).pos = s.pos + q + 1 := State.pos_afterRead s (by omega) (by omega)
  rw [readItem, readUnary_run q s hw hones hzero hin, Micro.andThen_done, getBits_eq _ hp, hpos,
    State.afterRead_memSize, if_pos hout, Micro.andThen_raised]

/-- Settles O31: a run of ones stops the unary loop after the last bit that can be read, a late terminator stops the
read of the remainder. -/
theorem decgRunsIntoTheWindowsEnd : Obligations.DecgRunsIntoTheWindowsEnd := by
  intro p s hs hm hp1 hp hw
  refine ⟨fun hfirst hones => ?_, fun q hones hzero hin hout => ?_⟩
  · have hrun : readUnary s = .raised .bus (s.afterRead (8 * s.memSize - 57) 1) :=
      readUnary_overrun s hw hfirst fun k hk hlast => hones k (by omega) hk (by omega)
    rw [exec_decg_of_raised hs hm hp1 hp (readItem_of_raised hrun) hs, State.afterRead_last (by omega)]
  · exact exec_decg_of_raised hs hm hp1 hp (readItem_terminator hp hw hones hzero hin hout) hs

end Sys2Proof.Machine
end

section
/-! A read pass resumed by `WRREG BYTEOFF` and `WRREG BITOFF` (R190, R192, R32). -/

namespace Sys2Proof.Machine

/-- The two register writes of a resumed pass set the stream position; `LOOKAHEAD`, `MODE` and the buffer stay (R192). -/
theorem issue_restoreCursor {s : State} (hs : s.fault = none) (hm : s.mode = .fresh ∨ s.mode = .rd ∨ s.mode = .wr)
    (byte : Word) (bit : Fin 65) :
    issue (.wrreg .bitoff (BitVec.ofNat 64 bit.val)) (issue (.wrreg .byteoff byte) s) =
      { s with byteOff := byte, bitOff := bit, resp := some ⟨.ok, 0#64⟩ } := by
  obtain ⟨hwrites, -, -, -⟩ := wrregWritesTheWritableRegisters
  obtain ⟨-, hbyte, -, -⟩ := hwrites s byte hs hm
  rw [issue_of_next hbyte]
  obtain ⟨-, -, -, hbit⟩ := hwrites { s with byteOff := byte, resp := some ⟨.ok, 0#64⟩ } 0#64 hs hm
  exact issue_of_next (hbit bit)

/-- Settles O46: the restored cursor stands at the position written, and a read depends on the cursor by its position
alone, whatever `LOOKAHEAD` holds. -/
theorem restoredCursorReadsOn : Obligations.RestoredCursorReadsOn := by
  intro s byte bit n hs hm hn1 hn hw hin
  have hmode : s.mode = .fresh ∨ s.mode = .rd ∨ s.mode = .wr := hm.imp_right .inl
  obtain ⟨_, -, hread⟩ := getbitsAndDecfReturnTheNextBits (.getbits n) n
    { s with byteOff := byte, bitOff := bit, resp := some ⟨.ok, 0#64⟩ } (by simp) hs hm hn1 hn hw hin
  rw [issue_restoreCursor hs hmode, issue_of_next hread]
  rfl

end Sys2Proof.Machine
end

section
/-! The checks of a command and its ends: in an unfaulted block the first check of R213 that fails is the fault, with
nothing else changed, and where all pass the command has one of five ends (R201 to R213). -/

namespace Sys2Proof.Machine

/-! ### The faults raised past the checks -/

/-- The faults that a micro-operation or the end of a rule can raise (R213): all but those of the first checks. -/
def lateFaults : List FaultCode := [.cursor, .bus, .ovf]

/-- The micro-operation raises no fault of the first checks. -/
def RaisesLate {α : Type} (m : Micro α) : Prop := ∀ c t, m = .raised c t → c ∈ lateFaults

theorem RaisesLate.done {α : Type} (v : α) (s : State) : RaisesLate (Micro.done v s) := nofun

theorem RaisesLate.raised {α : Type} {c : FaultCode} (hc : c ∈ lateFaults) (s : State) :
    RaisesLate (Micro.raised c s : Micro α) := by
  rintro _ _ ⟨⟩
  exact hc

theorem RaisesLate.andThen {α β : Type} {m : Micro α} {k : α → State → Micro β} (hm : RaisesLate m)
    (hk : ∀ v t, RaisesLate (k v t)) : RaisesLate (m.andThen k) := by
  cases m with
  | done v t => exact hk v t
  | raised c t => exact .raised (hm c t rfl) t

theorem refill_raisesLate (s : State) : RaisesLate (refill s) := by
  rw [refill_eq]
  split
  · exact .raised (by decide) s
  · exact .done () _

theorem getBits_raisesLate (n : Nat) (s : State) : RaisesLate (getBits n s) :=
  (refill_raisesLate s).andThen fun _ _ => .done _ _

theorem readUnaryFuel_raisesLate (fuel q : Nat) (s : State) : RaisesLate (readUnaryFuel fuel q s) := by
  induction fuel generalizing q s with
  | zero => exact .raised (by decide) s
  | succ fuel ih =>
    refine (getBits_raisesLate 1 s).andThen fun b t => ?_
    split
    · exact ih (q + 1) t
    · exact .done q t

theorem readItem_raisesLate (p : Nat) (s : State) : RaisesLate (readItem p s) :=
  (readUnaryFuel_raisesLate _ 0 s).andThen fun _ t => (getBits_raisesLate p t).andThen fun _ _ => .done _ _

theorem refillW_raisesLate (s : State) : RaisesLate (refillW s) := by
  rw [refillW_eq]
  split
  · exact .raised (by decide) s
  · split
    · exact .raised (by decide) s
    · exact .done () _

theorem putBits_raisesLate (v : Word) (n : Nat) (s : State) : RaisesLate (putBits v n s) :=
  (refillW_raisesLate s).andThen fun _ _ => .done _ _

theorem putPartialByte_raisesLate (s : State) : RaisesLate (putPartialByte s) := by
  unfold putPartialByte
  split
  · exact .done () s
  · split
    · exact .raised (by decide) s
    · exact .done () _

theorem finalW_raisesLate (s : State) : RaisesLate (finalW s) :=
  (refillW_raisesLate s).andThen fun _ t => putPartialByte_raisesLate t

theorem putOnes_raisesLate (q : Nat) (s : State) : RaisesLate (putOnes q s) := by
  induction q generalizing s with
  | zero => exact .done () s
  | succ q ih => exact (putBits_raisesLate 1#64 1 s).andThen fun _ t => ih t

theorem putItem_raisesLate (d : Word) (p : Nat) (s : State) : RaisesLate (putItem d p s) :=
  (putOnes_raisesLate _ s).andThen fun _ t =>
    (putBits_raisesLate 0#64 1 t).andThen fun _ u => putBits_raisesLate _ p u

/-! ### The first check that fails -/

/-- The fault of the first check that fails, in the order of R213, none where the rule goes on to its work. -/
def firstCheck (i : Instr) (s : State) : Option FaultCode :=
  if i.wellFormed = false then some .cmd
  else if s.mode ∉ admittedModes i then some .seq
  else if countOutOfRange i = true then some .count
  else if tooWide s i = true then some .width
  else none

section WellFormed

variable {i : Instr} {s : State} (hi : i.wellFormed = true)

include hi

theorem firstCheck_eq_seq_iff : firstCheck i s = some .seq ↔ s.mode ∉ admittedModes i := by
  rw [firstCheck, if_neg (by simp [hi])]
  split
  · next hm => exact iff_of_true rfl hm
  · next hm =>
    refine iff_of_false ?_ hm
    split
    · nofun
    · split <;> nofun

variable (hm : s.mode ∈ admittedModes i)

include hm

theorem firstCheck_eq_count_iff : firstCheck i s = some .count ↔ countOutOfRange i = true := by
  rw [firstCheck, if_neg (by simp [hi]), if_neg (not_not.2 hm)]
  split
  · next hc => exact iff_of_true rfl hc
  · next hc =>
    refine iff_of_false ?_ hc
    split <;> nofun

theorem firstCheck_eq_width_iff (hc : countOutOfRange i = false) :
    firstCheck i s = some .width ↔ tooWide s i = true := by
  rw [firstCheck, if_neg (by simp [hi]), if_neg (not_not.2 hm), if_neg (by simp [hc])]
  split
  · next hw => exact iff_of_true rfl hw
  · next hw => exact iff_of_false nofun hw

end WellFormed

/-! ### The checks that a rule writes and the terms of the statements -/

theorem Mode.mem_all (m : Mode) : m ∈ [Mode.fresh, .rd, .wr, .encg, .encf, .done] := by cases m <;> decide

theorem Mode.not_admitsRead_iff (m : Mode) : (!m.admitsRead) = true ↔ m ∉ [Mode.fresh, .rd] := by
  cases m <;> decide

theorem Mode.not_admitsWrite_iff (m : Mode) : (!m.admitsWrite) = true ↔ m ∉ [Mode.fresh, .wr] := by
  cases m <;> decide

theorem Mode.not_admitsStart_iff (m : Mode) : (!m.admitsStart) = true ↔ m ∉ [Mode.fresh, .rd, .wr, .done] := by
  cases m <;> decide

theorem Mode.not_admitsGolombItem_iff (m : Mode) : (!m.admitsGolombItem) = true ↔ m ∉ [Mode.encg] := by
  cases m <;> decide

theorem Mode.not_admitsFixedItem_iff (m : Mode) : (!m.admitsFixedItem) = true ↔ m ∉ [Mode.encf] := by
  cases m <;> decide

theorem Mode.not_admitsRegWrite_iff (m : Mode) : (!m.admitsRegWrite) = true ↔ m ∉ [Mode.fresh, .rd, .wr] := by
  cases m <;> decide

theorem not_readCountOk_iff (n : Byte) :
    (!readCountOk n) = true ↔ decide (n.toNat = 0 ∨ 57 < n.toNat) = true := by
  rw [Bool.not_eq_true', ← Bool.not_eq_true, readCountOk_iff, decide_eq_true_iff]
  omega

theorem not_writeCountOk_iff (v : Word) (n : Byte) :
    (!writeCountOk n) = true ↔ countOutOfRange (.putbits v n) = true := by
  rw [Bool.not_eq_true', ← Bool.not_eq_true, ← countOutOfRange_putbits_eq_false_iff, Bool.not_eq_false]

theorem eq_zero_iff_toNat (p : Byte) : p = 0#8 ↔ decide (p.toNat = 0) = true := by
  rw [decide_eq_true_iff, ← BitVec.toNat_inj]
  rfl

theorem not_fitsIn_iff (v : Word) (n : Nat) : (!fitsIn v n) = true ↔ decide (2 ^ n ≤ v.toNat) = true := by
  rw [Bool.not_eq_true', ← Bool.not_eq_true, fitsIn_iff, decide_eq_true_iff, Nat.not_lt]

/-! ### The ends of a rule -/

/-- How a command whose checks have passed can end at `s` (R213): in a late fault, with nothing of the control
registers moved but `ACC` (R143, R211), with `OK`, or with one of the three reported errors where it arises. -/
inductive Ends (i : Instr) (s : State) : State → Prop
  | late {c : FaultCode} {a : Word} {t : State} (hc : c ∈ lateFaults) (ht : SameControl (s.setAcc a) t) :
      Ends i s (raiseFault c t)
  | ok {t : State} (v : Word) (ht : t.fault = none) : Ends i s (reply .ok v t)
  | param {p : Byte} (hi : i = .encgStart p ∨ i = .encfStart p) (hp : 56 < p.toNat) :
      Ends i s (reply .eParam 0#64 s)
  | capacity {t : State} (hi : ∃ v, i = .encgItem v) (ht : t.fault = none)
      (hcap : t.cap.toNat ≤ t.byteOff.toNat + 1024) : Ends i s (reply .eCapacity 0#64 (t.setMode .done))
  | empty {t : State} (hi : i = .encgEnd ∨ i = .encfEnd) (ht : t.fault = none) (hoff : t.byteOff = 0#64) :
      Ends i s (reply .eEmpty 0#64 (t.setMode .done))

/-- A rule ends in the fault of its micro-operations or by its own answer. -/
theorem Ends.finish {α : Type} {i : Instr} {s : State} {m : Micro α} {k : α → State → State} (a : Word)
    (hm : SameControl (s.setAcc a) m.endState) (hlate : RaisesLate m)
    (hk : ∀ v t, SameControl (s.setAcc a) t → Ends i s (k v t)) : Ends i s (m.finish k) := by
  cases m with
  | done v t => exact hk v t hm
  | raised c t => exact .late (hlate c t rfl) hm

/-- The end of `GETBITS`, `DECF`, `PUTBITS`, `FINALIZE` and `ENCF.ITEM`: their micro-operations, then `OK`. -/
theorem Ends.finish_ok {α : Type} {i : Instr} {s : State} {m : Micro α} {v : α → State → Word}
    {k : State → State} (hs : s.fault = none) (hm : SameControl s m.endState) (hlate : RaisesLate m)
    (hk : ∀ t, (k t).fault = t.fault) : Ends i s (m.finish fun x t => reply .ok (v x t) (k t)) :=
  .finish s.acc hm hlate fun _ t ht => .ok _ ((hk t).trans (ht.fault.trans hs))

theorem endSession_ends {i : Instr} {s : State} (hi : i = .encgEnd ∨ i = .encfEnd) (hs : s.fault = none) :
    Ends i s (endSession s) := by
  refine .finish s.acc (finalW_control s) (finalW_raisesLate s) fun _ t ht => ?_
  have hfault : t.fault = none := ht.fault.trans hs
  split
  · next hoff => exact .empty hi hfault hoff
  · exact .ok _ hfault

/-- The capacity check of an item comes after its bits (R146). -/
theorem itemAnswer_ends (v : Word) {s t : State} (ht : t.fault = none) : Ends (.encgItem v) s (itemAnswer t) := by
  unfold itemAnswer
  split
  · next hcap => exact .capacity ⟨v, rfl⟩ ht ((capacityReached_iff _ _).1 hcap)
  · exact .ok _ ht

/-- A width above 56 is a parameter error (R141, R161), else the session is open. -/
theorem start_ends {i : Instr} {p : Byte} {s t : State} (hi : i = .encgStart p ∨ i = .encfStart p)
    (ht : t.fault = none) :
    Ends i s (if widthTooLarge p = true then reply .eParam 0#64 s else reply .ok 0#64 t) := by
  split
  · next hp => exact .param hi (of_decide_eq_true hp)
  · exact .ok _ ht

/-! ### Every command by its checks and its ends -/

/-- The outcome is the fault of the first check that fails, with nothing else changed, or an end of the rule. -/
def Runs (i : Instr) (s : State) (verdict : Option FaultCode) (o : Host.Outcome State Fault Refusal) : Prop :=
  ∃ u, Ends i s u ∧ o = .next (verdict.elim u fun c => faultedBy c s)

section Runs

variable {i : Instr} {s : State} {verdict : Option FaultCode} {o : Host.Outcome State Fault Refusal}

theorem Runs.next {u : State} (h : Ends i s u) : Runs i s none (.next u) := ⟨u, h, rfl⟩

/-- A check of R213 that the rule of the command writes. -/
theorem Runs.check {P Q : Prop} [Decidable P] [Decidable Q] {c : FaultCode} (hs : s.fault = none) (hPQ : P ↔ Q)
    (h : Runs i s verdict o) : Runs i s (if Q then some c else verdict) (if P then .next (raiseFault c s) else o) := by
  obtain ⟨u, hu, ho⟩ := h
  refine ⟨u, hu, ?_⟩
  by_cases hP : P
  · rw [if_pos hP, if_pos (hPQ.1 hP), raiseFault_eq_faultedBy hs]
    rfl
  · rw [if_neg hP, if_neg (mt hPQ.2 hP), ho]

/-- A check of R213 that always passes for the command, so that its rule writes none. -/
theorem Runs.pass {Q : Prop} [Decidable Q] {c : FaultCode} (hQ : ¬Q) (h : Runs i s verdict o) :
    Runs i s (if Q then some c else verdict) o := by
  rwa [if_neg hQ]

theorem Runs.notRefused {u : State} (hs : s.fault = none) (h : Runs i s verdict o) :
    Runs i s verdict (if s.faulted then .next u else o) := by
  simpa [State.faulted, hs] using h

end Runs

/-- The field read of `GETBITS` and `DECF` (R105, R177): the mode, the count, the read. -/
theorem readField_runs {i : Instr} {n : Byte} {s : State} (hi : i = .getbits n ∨ i = .decf n)
    (hs : s.fault = none) : Runs i s (firstCheck i s) (.next (readField n s)) := by
  have hsame : firstCheck i s = firstCheck (.getbits n) s := by rcases hi with rfl | rfl <;> rfl
  rw [hsame, readField, apply_ite Host.Outcome.next, apply_ite Host.Outcome.next]
  exact .pass nofun <| .check hs s.mode.not_admitsRead_iff <| .check hs (not_readCountOk_iff n) <| .pass nofun <|
    .next <| .finish_ok hs (getBits_control _ s) (getBits_raisesLate _ s) fun _ => rfl

theorem execDecg_runs (p : Byte) {s : State} (hs : s.fault = none) :
    Runs (.decg p) s (firstCheck (.decg p) s) (execDecg p s) := by
  refine .notRefused hs <| .pass nofun <| .check hs s.mode.not_admitsRead_iff <|
    .check hs (not_readCountOk_iff p) <| .pass nofun <| .next ?_
  refine .finish s.acc (readItem_control _ s) (readItem_raisesLate _ s) fun item t ht => ?_
  split
  · exact .ok _ (ht.fault.trans hs)
  · exact .late (by decide) ht

/-- The two `START`s make the same checks (R141, R161); the width above 56 is past them. -/
theorem start_runs {i : Instr} {p : Byte} {s t : State} (hi : i = .encgStart p ∨ i = .encfStart p)
    (hs : s.fault = none) (ht : t.fault = none) :
    Runs i s (firstCheck i s)
      (if s.faulted then .next (refuse s)
      else if !s.mode.admitsStart then .next (raiseFault .seq s)
      else if p = 0#8 then .next (raiseFault .count s)
      else if widthTooLarge p then .next (reply .eParam 0#64 s)
      else .next (reply .ok 0#64 t)) := by
  have hsame : firstCheck i s = firstCheck (.encgStart p) s := by rcases hi with rfl | rfl <;> rfl
  rw [hsame, ← apply_ite Host.Outcome.next (widthTooLarge p = true)]
  exact .notRefused hs <| .pass nofun <| .check hs s.mode.not_admitsStart_iff <| .check hs (eq_zero_iff_toNat p) <|
    .pass nofun <| .next <| start_ends hi ht

/-- `WRREG` (R192): a read-only register, the mode, then a `BITOFF` above 64, which is past the checks. -/
theorem execWrreg_runs (r : Reg) (v : Word) {s : State} (hs : s.fault = none) :
    Runs (.wrreg r v) s (firstCheck (.wrreg r v) s) (execWrreg r v s) := by
  refine .notRefused hs <| .check hs (by rw [Bool.not_eq_true']; rfl) <| .check hs s.mode.not_admitsRegWrite_iff <|
    .pass nofun <| .pass nofun ?_
  rw [← apply_ite Host.Outcome.next]
  refine .next ?_
  split
  · exact .late (a := s.acc) (by decide) (SameControl.refl s)
  · exact .ok _ ((writeReg_fault r v s).trans hs)

/-- Each command's checks in the order of R213, those that it has none of passed, then its end. -/
theorem exec_runs (i : Instr) {s : State} (hs : s.fault = none) : Runs i s (firstCheck i s) (exec i s) := by
  cases i with
  | init =>
    exact .notRefused hs <| .pass nofun <| .pass (not_not.2 s.mode.mem_all) <| .pass nofun <| .pass nofun <|
      .next <| .ok _ hs
  | getbits n => exact .notRefused hs <| readField_runs (.inl rfl) hs
  | putbits v n =>
    exact .notRefused hs <| .pass nofun <| .check hs s.mode.not_admitsWrite_iff <|
      .check hs (not_writeCountOk_iff v n) <| .check hs (not_fitsIn_iff v _) <|
      .next <| .finish_ok hs (putBits_control v _ s) (putBits_raisesLate v _ s) fun _ => rfl
  | finalize =>
    exact .notRefused hs <| .pass nofun <| .check hs s.mode.not_admitsWrite_iff <| .pass nofun <| .pass nofun <|
      .next <| .finish_ok hs (finalW_control s) (finalW_raisesLate s) fun _ => rfl
  | decg p => exact execDecg_runs p hs
  | decf p => exact .notRefused hs <| readField_runs (.inr rfl) hs
  | encgStart p => exact start_runs (.inl rfl) hs hs
  | encgItem v =>
    exact .notRefused hs <| .pass nofun <| .check hs s.mode.not_admitsGolombItem_iff <| .pass nofun <| .pass nofun <|
      .next <| .finish _ (putItem_control _ _ _) (putItem_raisesLate _ _ _) fun _ _ ht =>
        itemAnswer_ends v (ht.fault.trans hs)
  | encgEnd =>
    exact .notRefused hs <| .pass nofun <| .check hs s.mode.not_admitsGolombItem_iff <| .pass nofun <| .pass nofun <|
      .next <| endSession_ends (.inl rfl) hs
  | encfStart p => exact start_runs (.inr rfl) hs hs
  | encfItem v =>
    exact .notRefused hs <| .pass nofun <| .check hs s.mode.not_admitsFixedItem_iff <| .pass nofun <|
      .check hs (not_fitsIn_iff v _) <|
      .next <| .finish_ok hs (putBits_control v _ s) (putBits_raisesLate v _ s) fun _ => rfl
  | encfEnd =>
    exact .notRefused hs <| .pass nofun <| .check hs s.mode.not_admitsFixedItem_iff <| .pass nofun <| .pass nofun <|
      .next <| endSession_ends (.inr rfl) hs
  | rdreg r =>
    exact .pass nofun <| .pass (not_not.2 s.mode.mem_all) <| .pass nofun <| .pass nofun <| .next <| .ok _ hs
  | wrreg r v => exact execWrreg_runs r v hs

/-! ### What the outcome says of the checks -/

section Unfaulted

variable {i : Instr} {s : State} (hs : s.fault = none)

include hs

theorem exec_of_firstCheck {c : FaultCode} (h : firstCheck i s = some c) : exec i s = .next (faultedBy c s) := by
  obtain ⟨u, -, hexec⟩ := exec_runs i hs
  rw [hexec, h]
  rfl

/-- The one inversion of a command in an unfaulted block. -/
theorem firstCheck_or_ends {t : State} (h : exec i s = .next t) :
    (∃ c, firstCheck i s = some c ∧ t = faultedBy c s) ∨ Ends i s t := by
  obtain ⟨u, hu, hexec⟩ := exec_runs i hs
  obtain rfl := Host.Outcome.next.inj (h.symm.trans hexec)
  cases hfirst : firstCheck i s with
  | none => exact .inr hu
  | some c => exact .inl ⟨c, rfl, rfl⟩

end Unfaulted

/-- An end that latches a fault is the late fault. -/
theorem Ends.of_fault {i : Instr} {s t : State} {c : FaultCode} (h : Ends i s t) (hs : s.fault = none)
    (hc : t.fault = some c) :
    c ∈ lateFaults ∧ t.mode = s.mode ∧ t.p = s.p ∧ t.cap = s.cap ∧ t.resp = some ⟨.fault c, 0#64⟩ := by
  cases h with
  | @late f a u hf hu =>
    have hnone : u.fault = none := hu.fault.trans hs
    rw [raiseFault_eq_faultedBy hnone] at hc ⊢
    obtain rfl := Option.some.inj hc
    exact ⟨hf, hu.mode, hu.p, hu.cap, rfl⟩
  | ok v hnone => exact nomatch hnone.symm.trans hc
  | param hi hp => exact nomatch hs.symm.trans hc
  | capacity hi hnone hcap => exact nomatch hnone.symm.trans hc
  | empty hi hnone hoff => exact nomatch hnone.symm.trans hc

/-- A fault that is none of the late ones comes from the checks. -/
theorem firstCheck_of_fault {i : Instr} {s t : State} {c : FaultCode} (hs : s.fault = none)
    (h : exec i s = .next t) (hc : t.fault = some c) (hearly : c ∉ lateFaults) :
    firstCheck i s = some c ∧ t = faultedBy c s := by
  rcases firstCheck_or_ends hs h with ⟨f, hfirst, rfl⟩ | hends
  · obtain rfl := Option.some.inj hc
    exact ⟨hfirst, rfl⟩
  · exact absurd (hends.of_fault hs hc).1 hearly

theorem not_mem_lateFaults {c : FaultCode} (hc : c ∈ [FaultCode.cmd, .seq, .count, .width]) : c ∉ lateFaults := by
  revert c
  decide

/-! ### The faults of the checks -/

/-- Settles O18: `F_SEQ` is the mode check of `firstCheck`, and no late fault. -/
theorem fSeqExactlyOutsideTheAdmittedModes : Obligations.FSeqExactlyOutsideTheAdmittedModes := by
  refine ⟨rfl, fun i s hi hs => ⟨fun hm => ?_, fun t h hc => ?_⟩⟩
  · exact exec_of_firstCheck hs ((firstCheck_eq_seq_iff hi).2 hm)
  · exact (firstCheck_eq_seq_iff hi).1 (firstCheck_of_fault hs h hc (by decide)).1

/-- Settles O19: `F_COUNT` is the operand check of `firstCheck`, and no late fault. -/
theorem fCountExactlyOnOperandsOutOfRange : Obligations.FCountExactlyOnOperandsOutOfRange := by
  refine ⟨rfl, fun i s hi hs hm => ⟨fun hcount => ?_, fun t h hc => ?_⟩⟩
  · exact exec_of_firstCheck hs ((firstCheck_eq_count_iff hi hm).2 hcount)
  · exact (firstCheck_eq_count_iff hi hm).1 (firstCheck_of_fault hs h hc (by decide)).1

/-- Settles O20: `F_WIDTH` is the last check of `firstCheck`, and no late fault. -/
theorem fWidthExactlyOnValuesTooWide : Obligations.FWidthExactlyOnValuesTooWide := by
  refine ⟨rfl, fun i s hi hs hm hcount => ⟨fun hwide => ?_, fun t h hc => ?_⟩⟩
  · exact exec_of_firstCheck hs ((firstCheck_eq_width_iff hi hm hcount).2 hwide)
  · exact (firstCheck_eq_width_iff hi hm hcount).1 (firstCheck_of_fault hs h hc (by decide)).1

/-- Settles O13: a check faults at the state the command began in, a late fault moves none of `MODE`, `P` and `CAP`. -/
theorem faultsArePrecise : Obligations.FaultsArePrecise := by
  intro i s t c hs h hc
  rcases firstCheck_or_ends hs h with ⟨f, -, rfl⟩ | hends
  · obtain rfl := Option.some.inj hc
    exact ⟨rfl, rfl, rfl, rfl, fun _ => rfl⟩
  · obtain ⟨hlate, hmode, hp, hcap, hresp⟩ := hends.of_fault hs hc
    exact ⟨hmode, hp, hcap, hresp, fun hearly => absurd hlate (not_mem_lateFaults hearly)⟩

end Sys2Proof.Machine
end

section
/-! The reported errors: each of the three is one end of one or two commands (R201, R202, R203). -/

namespace Sys2Proof.Machine

/-- The statuses that report an error without a fault (R201 to R203). -/
def reportedErrors : List Status := [.eParam, .eCapacity, .eEmpty]

/-- A reported error comes from an unfaulted block, past the checks. -/
theorem ends_of_reported {i : Instr} {s t : State} {r : Response} (h : exec i s = .next t)
    (hr : t.resp = some r) (hst : r.status ∈ reportedErrors) : Ends i s t := by
  cases hs : s.fault with
  | none =>
    refine (firstCheck_or_ends hs h).resolve_left ?_
    rintro ⟨c, -, rfl⟩
    obtain rfl := Option.some.inj hr
    simp [reportedErrors] at hst
  | some c =>
    obtain ⟨t', r', h', hr', -, hfaulted⟩ := everyCommandAnswersInOneWay i s
    obtain rfl := Host.Outcome.next.inj (h.symm.trans h')
    obtain rfl := Option.some.inj (hr.symm.trans hr')
    obtain ⟨-, ⟨-, hok⟩ | rfl⟩ := hfaulted c hs
    · rw [hok] at hst
      exact absurd hst (by decide)
    · exact absurd hst (by decide)

theorem Ends.of_eParam {i : Instr} {s t : State} {v : Word} (h : Ends i s t)
    (hr : t.resp = some ⟨.eParam, v⟩) : ∃ p : Byte, 56 < p.toNat ∧ (i = .encgStart p ∨ i = .encfStart p) := by
  cases h with
  | param hi hp => exact ⟨_, hp, hi⟩
  | _ => exact nomatch hr

theorem Ends.of_eCapacity {i : Instr} {s t : State} {v : Word} (h : Ends i s t)
    (hr : t.resp = some ⟨.eCapacity, v⟩) :
    (∃ x, i = .encgItem x) ∧ v = 0#64 ∧ t.mode = .done ∧ t.fault = none ∧
      t.cap.toNat ≤ t.byteOff.toNat + 1024 := by
  cases h with
  | capacity hi ht hcap =>
    obtain rfl : 0#64 = v := congrArg Response.value (Option.some.inj hr)
    exact ⟨hi, rfl, rfl, ht, hcap⟩
  | _ => exact nomatch hr

theorem Ends.of_eEmpty {i : Instr} {s t : State} {v : Word} (h : Ends i s t)
    (hr : t.resp = some ⟨.eEmpty, v⟩) :
    (i = .encgEnd ∨ i = .encfEnd) ∧ v = 0#64 ∧ t.mode = .done ∧ t.fault = none ∧ t.byteOff = 0#64 := by
  cases h with
  | empty hi ht hoff =>
    obtain rfl : 0#64 = v := congrArg Response.value (Option.some.inj hr)
    exact ⟨hi, rfl, rfl, ht, hoff⟩
  | _ => exact nomatch hr

/-- Settles O22: the checks of a `START` are `startOpensASession`'s, and `Ends.param` is the one end with `E_PARAM`. -/
theorem parameterErrorChangesNothing : Obligations.ParameterErrorChangesNothing := by
  obtain ⟨-, hstart⟩ := startOpensASession
  refine ⟨rfl, fun s p hs hg hf hp => ?_, fun s p hs hm hp => ?_, fun i s t v h hr => ?_⟩
  · obtain ⟨-, -, hgolomb⟩ := hstart (.encgStart p) p s (by simp) hs
    obtain ⟨-, -, hfixed⟩ := hstart (.encfStart p) p s (by simp) hs
    exact ⟨hgolomb hg hf hp, hfixed hg hf hp⟩
  · obtain ⟨hgolomb, -, -⟩ := hstart (.encgStart p) p s (by simp) hs
    obtain ⟨hfixed, -, -⟩ := hstart (.encfStart p) p s (by simp) hs
    exact ⟨hgolomb hm, hfixed hm⟩
  · exact (ends_of_reported h hr (by simp [reportedErrors])).of_eParam hr

theorem itemAnswer_cap (t : State) : (itemAnswer t).cap = t.cap := by
  unfold itemAnswer
  split <;> rfl

theorem itemAnswer_byteOff (t : State) : (itemAnswer t).byteOff = t.byteOff := by
  unfold itemAnswer
  split <;> rfl

/-- A command that leaves no fault latched has done its micro-operations (R210). -/
theorem Micro.finish_of_unfaulted {α : Type} {m : Micro α} {k : α → State → State}
    (h : (m.finish k).fault = none) : ∃ v u, m.finish k = k v u := by
  cases m with
  | done v u => exact ⟨v, u, rfl⟩
  | raised c u => exact nomatch h

/-- An item whose bits are put and whose `BYTEOFF` has come within 1024 bytes of `CAP` reports it (R146). -/
theorem exec_encgItem_reports {x : Word} {s t : State} (hs : s.fault = none) (hm : s.mode = .encg)
    (h : exec (.encgItem x) s = .next t) (ht : t.fault = none) (hcap : t.cap.toNat ≤ t.byteOff.toNat + 1024) :
    t.resp = some ⟨.eCapacity, 0#64⟩ := by
  obtain rfl := Host.Outcome.next.inj ((exec_encgItem hs hm).symm.trans h)
  obtain ⟨-, u, hu⟩ := Micro.finish_of_unfaulted ht
  rw [hu, itemAnswer_cap, itemAnswer_byteOff] at hcap
  rw [hu, itemAnswer_of_reached hcap]
  rfl

/-- Settles O23: `E_CAPACITY` and `E_EMPTY` are each one end of the rules, and the item's own answer reports. -/
theorem capacityAndEmptyAreReportedWhereTheyArise : Obligations.CapacityAndEmptyAreReportedWhereTheyArise := by
  refine ⟨fun i s t v h hr => ?_, fun x s t hs hm h ht hcap => exec_encgItem_reports hs hm h ht hcap,
    fun i s t v h hr => ?_⟩
  · exact (ends_of_reported h hr (by simp [reportedErrors])).of_eCapacity hr
  · exact (ends_of_reported h hr (by simp [reportedErrors])).of_eEmpty hr

end Sys2Proof.Machine
end

section
/-! The breached cursor and the faulted block: `F_CURSOR` where `BITOFF` is 64 or would go above it, and the latch that
only reset clears (R207, R212). -/

namespace Sys2Proof.Machine

/-! ### `F_CURSOR` -/

theorem refillW_breached {s : State} (hb : s.bitOff.val = 64) : refillW s = .raised .cursor s := by
  rw [refillW_eq, if_pos hb.ge]

theorem finalW_breached {s : State} (hb : s.bitOff.val = 64) : finalW s = .raised .cursor s := by
  rw [finalW, refillW_breached hb, Micro.andThen_raised]

theorem putBits_breached (v : Word) (n : Nat) {s : State} (hb : s.bitOff.val = 64) :
    putBits v n s = .raised .cursor s := by
  rw [putBits, refillW_breached hb, Micro.andThen_raised]

/-- `PUTBITS` where its mode, its count and its value are admitted: the put decides (R125). -/
theorem exec_putbits_eq {v : Word} {n : Byte} {s : State} (hs : s.fault = none) (hm : s.mode.admitsWrite = true)
    (hn : writeCountOk n = true) (hv : fitsIn v n.toNat = true) :
    exec (.putbits v n) s =
      .next ((putBits v n.toNat s).finish fun _ t => reply .ok 0#64 (t.setMode .wr)) := by
  show execPutbits v n s = _
  rw [execPutbits, State.faulted_eq_false hs, hm, hn, hv]
  rfl

/-- Settles O21: the drain is the first micro-operation of both writes, and `WRREG` checks its value. -/
theorem fCursorOnABreachedCursor : Obligations.FCursorOnABreachedCursor := by
  refine ⟨fun s v n hs hm hb => ?_, fun s v hs hm hv => ?_⟩
  · have hadmits := (Mode.admitsWrite_iff _).2 hm
    rw [← raiseFault_eq_faultedBy hs]
    refine ⟨?_, fun hn1 hn hfit => ?_⟩
    · rw [exec_finalize_eq hs hadmits, finalW_breached hb, Micro.finish_raised]
    · rw [exec_putbits_eq hs hadmits ((writeCountOk_iff n).2 ⟨hn1, hn⟩) ((fitsIn_iff v _).2 hfit),
        putBits_breached _ _ hb, Micro.finish_raised]
  · obtain ⟨-, -, -, hcursor⟩ := wrregWritesTheWritableRegisters
    exact hcursor s v hs (by rcases hm with hm | hm | hm <;> simp [hm]) hv

/-! ### The faulted block -/

theorem illegalCommand_of_faulted {s : State} {c : FaultCode} (hs : s.fault = some c) :
    illegalCommand s = refuse s :=
  if_pos (by rw [State.faulted, hs]; rfl)

/-- A faulted block refuses every word but a legal `RDREG`, illegal words too (R85, R212). -/
theorem runCommand_of_faulted {w : CmdWord} {s : State} {c : FaultCode} (hs : s.fault = some c)
    (hw : ∀ r, decode w ≠ .ok (.rdreg r)) : runCommand w s = .next (refuse s) := by
  unfold runCommand
  split
  · next i hi => exact exec_of_faulted hs fun r hr => hw r (hr ▸ hi)
  · rw [illegalCommand_of_faulted hs]

theorem readReg_setInputs (r : Reg) (s : State) (rest : List PortEvent) :
    readReg r (s.setInputs rest) = readReg r s := by
  cases r <;> rfl

/-- `t` has the fault `c` latched. -/
def Latched (c : FaultCode) (t : State) : Prop := t.fault = some c

theorem runCommand_keepsLatch (w : CmdWord) {s : State} {c : FaultCode} (hs : Latched c s) :
    Leaves (Latched c) (runCommand w s) := by
  by_cases hw : ∃ r, decode w = .ok (.rdreg r)
  · obtain ⟨r, hr⟩ := hw
    rw [runCommand_of_ok hr]
    exact .next hs
  · rw [runCommand_of_faulted hs fun r hr => hw ⟨r, hr⟩]
    exact .next hs

theorem runPoke_keepsLatch (a : Nat) (b : Byte) {s : State} {c : FaultCode} (hs : Latched c s) :
    Leaves (Latched c) (runPoke a b s) := by
  unfold runPoke
  split
  · exact fun _ ht => nomatch ht
  · exact .next hs

/-- No event but reset clears or changes the latch (R212, R230). -/
theorem step_keepsLatch {s : State} {c : FaultCode} (hs : Latched c s) (hreset : ∀ rest, s.inputs ≠ .reset :: rest) :
    Leaves (Latched c) (step s) := by
  have hstep : step s = takeEvent s := rfl
  rw [hstep, takeEvent]
  split
  · exact .next hs
  · next e rest hin =>
    have hrest : Latched c (s.setInputs rest) := hs
    cases e with
    | command w => exact runCommand_keepsLatch w hrest
    | reset => exact absurd hin (hreset rest)
    | poke a b => exact runPoke_keepsLatch a b hrest

/-- Settles O7: `runCommand_of_faulted` refuses, `RDREG` replies, and the latch is kept by every event but reset. -/
theorem faultedBlockRefusesAllButRdreg : Obligations.FaultedBlockRefusesAllButRdreg := by
  refine ⟨rfl, fun s c w rest hs hin hw => ?_, fun s c w rest r hs hin hw => ?_,
    fun s t c hs hreset h => step_keepsLatch hs hreset t h, fun s rest hin => ⟨_, step_of_reset hin, rfl⟩⟩
  · have hrest : (s.setInputs rest).fault = some c := hs
    rw [step_of_command hin, runCommand_of_faulted hrest hw]
    rfl
  · rw [step_of_command hin, runCommand_of_ok hw, ← readReg_setInputs r s rest]
    rfl

end Sys2Proof.Machine
end

section
/-! The host between commands: waiting for the next event, and writes of the buffer (R230, R243, log 4, log 6). -/

namespace Sys2Proof.Machine

theorem step_of_no_event {s : State} (h : s.inputs = []) : step s = .next s := by
  simp only [step, takeEvent, h]

theorem step_of_poke {s : State} {a : Nat} {b : Byte} {rest : List PortEvent} (h : s.inputs = .poke a b :: rest) :
    step s = runPoke a b (s.setInputs rest) := by
  simp only [step, takeEvent, h, runEvent]

/-- A single byte is outside the window from `MEMSIZE` on (R50, R52). -/
theorem State.outOfWindow_byte_iff (s : State) (a : Nat) : s.outOfWindow a 1 = true ↔ s.memSize ≤ a := by
  rw [State.outOfWindow, decide_eq_true_iff]
  omega

/-- Settles O9: a host write is one `Memory.write` inside the window and `pokeOutsideWindow` past it. -/
theorem hostWritesAndWaiting : Obligations.HostWritesAndWaiting := by
  refine ⟨fun s hin => step_of_no_event hin, fun s a b rest hform hin ha => ?_, fun s a b rest hin ha => ?_⟩
  · have hinside : ¬ (s.setInputs rest).outOfWindow a 1 = true :=
      mt (State.outOfWindow_byte_iff _ a).1 (Nat.not_le.2 ha)
    refine ⟨Memory.write s.mem a b, ?_, Memory.read_write hform a b⟩
    rw [step_of_poke hin, runPoke, if_neg hinside]
    rfl
  · have hout : (s.setInputs rest).outOfWindow a 1 = true := (State.outOfWindow_byte_iff _ a).2 ha
    rw [step_of_poke hin, runPoke, if_pos hout]

end Sys2Proof.Machine
end

section
/-! A read pass of fields inside over-allocated data: every refill fits, so every field is answered `OK` (R59, R235,
R249). -/

namespace Sys2Proof.Machine

/-- A read pass has `need` bits left to read, all inside the first `len` bytes of a window over-allocated by 7 (R59). -/
structure ReadsInside (len : Nat) (s : State) (need : Nat) : Prop where
  unfaulted : s.fault = none
  admits : s.mode = .fresh ∨ s.mode = .rd
  window : s.memSize ≤ 2 ^ 60
  data : s.pos + need ≤ 8 * len
  room : len + 7 ≤ s.memSize

/-- One field of the pass: it is answered `OK`, and the pass goes on past it in the same buffer. -/
theorem ReadsInside.field {len need : Nat} {i : Instr} {n : Byte} {s : State}
    (h : ReadsInside len s (n.toNat + need)) (hi : i = .getbits n ∨ i = .decf n) (hn1 : 1 ≤ n.toNat)
    (hn : n.toNat ≤ 57) :
    (issue i s).answeredOk = true ∧ (issue i s).pos = s.pos + n.toNat ∧ (issue i s).mem = s.mem ∧
      ReadsInside len (issue i s) need := by
  obtain ⟨hs, hm, hw, hdata, hover⟩ := h
  have hfield : i ∈ [Instr.getbits n, .decf n] := by simpa using hi
  obtain ⟨b, -, hread⟩ := getbitsAndDecfReturnTheNextBits i n s hfield hs hm hn1 hn hw (by omega)
  obtain ⟨t, hexec, hfault, -, hpos⟩ :=
    overAllocationMakesReadsSafe i n s len hfield hs hm hn1 hn hw (by omega) hover
  obtain rfl := Host.Outcome.next.inj (hexec.symm.trans hread)
  rw [issue_of_next hread]
  exact ⟨(State.answeredOk_iff _).2 ⟨_, rfl⟩, hpos, rfl, hfault, .inr rfl, hw, by omega, hover⟩

/-- Settles O55: by induction over the fields, each of which is `ReadsInside.field`. -/
theorem readPassInsideTheDataEndsWell : Obligations.ReadPassInsideTheDataEndsWell := by
  intro items ns s len hitems hns hs hm hw hdata hover
  have h : ReadsInside len s (ns.map BitVec.toNat).sum := ⟨hs, hm, hw, hdata, hover⟩
  clear hs hm hw hdata hover
  induction hitems generalizing s with
  | nil => exact ⟨.nil h.unfaulted, rfl, rfl⟩
  | @cons i n items ns hi hitems ih =>
    obtain ⟨⟨hn1, hn⟩, hns⟩ := List.forall_mem_cons.1 hns
    rw [List.map_cons, List.sum_cons] at h ⊢
    obtain ⟨hok, hpos, hmem, hrest⟩ := h.field hi hn1 hn
    obtain ⟨hends, hposEnd, hmemEnd⟩ := ih (issue i s) hns hrest
    have hreads : readsItem i = true := (readsItem_iff i).2 ⟨n, hi.imp_right .inr⟩
    rw [issueAll_cons, hposEnd, hmemEnd, hpos, hmem, Nat.add_assoc]
    exact ⟨readEndedWell_cons.2 ⟨hreads, hok, hends⟩, rfl, rfl⟩

end Sys2Proof.Machine
end

section
/-! The good end of a write pass: the closing command was admitted, its `U.FINALW` completed, and the buffer holds what
the pass had put out (R33, R124, R245, R249). -/

namespace Sys2Proof.Machine

/-! ### What a good end says of the closing command -/

/-- `U.FINALW` completes nowhere but where `finalW_eq_closed` says (R124). -/
theorem finalW_eq_done_iff {s t : State} (hw : s.memSize ≤ 2 ^ 60) :
    finalW s = .done () t ↔ s.bitOff.val < 64 ∧
      (s.bitOff.val = 0 ∨ s.byteOff.toNat + (s.bitOff.val + 7) / 8 ≤ s.memSize) ∧ t = s.closed := by
  refine ⟨fun h => ?_, fun ⟨hb, hin, ht⟩ => by rw [finalW_eq_closed hb hw hin, ht]⟩
  by_cases hdrain : DrainOverruns s
  · rw [hdrain.finalW_raised] at h
    cases h
  have hcursor : s.bitOff.val < 64 := by
    by_contra hb
    rw [finalW_breached (by omega)] at h
    cases h
  have hfits : s.bitOff.val / 8 = 0 ∨ s.byteOff.toNat + s.bitOff.val / 8 ≤ s.memSize := by
    by_contra hout
    exact hdrain ⟨by omega, hcursor, by omega⟩
  have hin : s.bitOff.val = 0 ∨ s.byteOff.toNat + (s.bitOff.val + 7) / 8 ≤ s.memSize := by
    by_contra hout
    rw [finalW_raised_drained hcursor (by omega) hw hfits (by omega)] at h
    cases h
  rw [finalW_eq_closed hcursor hw hin] at h
  injection h with _ ht
  exact ⟨hcursor, hin, ht.symm⟩

/-- An `END` answered `OK` has completed its final drain (R148, R164). -/
theorem endSession_of_ok {s : State} {n : Word} (h : (endSession s).resp = some ⟨.ok, n⟩) :
    ∃ u, finalW s = .done () u ∧ endSession s = reply .ok n (u.setMode .done) ∧ u.byteOff = n ∧ n ≠ 0#64 := by
  unfold endSession at h ⊢
  cases hfin : finalW s with
  | raised c u =>
    rw [hfin] at h
    cases h
  | done _ u =>
    rw [hfin, Micro.finish_done] at h
    by_cases hzero : u.byteOff = 0#64
    · rw [if_pos hzero] at h
      cases h
    · rw [if_neg hzero] at h
      obtain rfl : u.byteOff = n := congrArg Response.value (Option.some.inj h)
      exact ⟨u, rfl, if_neg hzero, rfl, hzero⟩

namespace EndedWell

variable {i : Instr} {s t : State} {n : Word}

theorem mem_closing (h : EndedWell i s t n) : i ∈ [Instr.finalize, .encgEnd, .encfEnd] := by
  obtain ⟨hcloses, -, -⟩ := h
  simpa using (closesWritePass_iff i).1 hcloses

/-- A faulted block refuses a closing command (R212). -/
theorem unfaulted (h : EndedWell i s t n) : s.fault = none := by
  obtain ⟨hcloses, hexec, hresp⟩ := h
  by_contra hfault
  obtain ⟨c, hc⟩ := Option.ne_none_iff_exists'.1 hfault
  have hrd : ∀ g, i ≠ .rdreg g := by
    rintro g rfl
    cases hcloses
  obtain rfl := Host.Outcome.next.inj (hexec.symm.trans (exec_of_faulted hc hrd))
  cases hresp

/-- Where its mode is not admitted a closing command raises `F_SEQ` (R204). -/
theorem admitted (h : EndedWell i s t n) : s.mode ∈ admittedModes i := by
  have hs := h.unfaulted
  obtain ⟨hcloses, hexec, hresp⟩ := h
  have hwf : i.wellFormed = true := by
    rcases (closesWritePass_iff i).1 hcloses with rfl | rfl | rfl <;> rfl
  by_contra hm
  have hseq := exec_of_firstCheck hs ((firstCheck_eq_seq_iff hwf).2 hm)
  obtain rfl := Host.Outcome.next.inj (hexec.symm.trans hseq)
  cases hresp

/-- The one way to a good end: `U.FINALW` completes, and its `BYTEOFF` is the answer (R126, R148, R164). -/
theorem finalW_completes (h : EndedWell i s t n) :
    ∃ u, finalW s = .done () u ∧ t = reply .ok n (u.setMode .done) ∧ u.byteOff = n ∧
      (i ≠ .finalize → n ≠ 0#64) := by
  have hs := h.unfaulted
  have hm := h.admitted
  have hclosing := h.mem_closing
  obtain ⟨-, hexec, hresp⟩ := h
  rcases List.mem_cons.1 hclosing with rfl | hend
  · obtain rfl := Host.Outcome.next.inj
      (hexec.symm.trans (exec_finalize_eq hs (mem_admittedModes_finalize_iff.1 hm)))
    cases hfin : finalW s with
    | raised c u =>
      rw [hfin] at hresp
      cases hresp
    | done _ u =>
      rw [hfin, Micro.finish_done] at hresp
      obtain rfl : u.byteOff = n := congrArg Response.value (Option.some.inj hresp)
      exact ⟨u, rfl, rfl, rfl, fun hne => absurd rfl hne⟩
  · obtain rfl := Host.Outcome.next.inj (hexec.symm.trans (exec_end hend hs hm))
    obtain ⟨u, hfin, ht, hn, hne⟩ := endSession_of_ok hresp
    exact ⟨u, hfin, ht, hn, fun _ => hne⟩

theorem fault_eq_none (h : EndedWell i s t n) : t.fault = none := by
  obtain ⟨u, hfin, rfl, -, -⟩ := h.finalW_completes
  have hkept := finalW_control s
  rw [hfin] at hkept
  exact hkept.fault.trans h.unfaulted

end EndedWell

/-- Settles O51: the next state is `closed` with its answer, and `closed` holds every bit put out. -/
theorem goodEndLeavesTheStream : Obligations.GoodEndLeavesTheStream := by
  intro i s t n h hform hw
  have hs := h.unfaulted
  have hfault := h.fault_eq_none
  obtain ⟨u, hfin, rfl, hn, -⟩ := h.finalW_completes
  obtain ⟨hb, hin, rfl⟩ := (finalW_eq_done_iff hw).1 hfin
  have hlt : s.byteOff.toNat + (s.bitOff.val + 7) / 8 < 2 ^ 64 := by omega
  have hlen : n.toNat = s.byteOff.toNat + (s.bitOff.val + 7) / 8 := by rw [← hn, s.closed_byteOff hlt]
  have hstored : ∀ k, k < 8 * n.toNat → Memory.streamBit s.closed.mem k = s.outBit k := fun k hk =>
    s.streamBit_closed hform (by omega) hlt (by rwa [← hlen])
  refine ⟨hs, rfl, hfault, hn, hlen.trans s.pos_add_seven_div.symm, hstored, fun hc k hk1 hk2 => ?_, fun a ha => ?_⟩
  · exact (hstored k hk2).trans (hc.outBit_past hk1)
  · rw [hlen] at ha
    show Memory.read s.closed.mem a = _
    rw [s.read_closed hform (by omega) hlt, if_neg (by omega)]

/-- Settles O42: a length above 0 comes of a session that has put out a bit, whose last item passed the capacity check
(`MarginOk`); at most 63 bits, 8 bytes, were queued past that `BYTEOFF`. -/
theorem golombLengthStaysBelowTheCapacity : Obligations.GolombLengthStaysBelowTheCapacity := by
  intro s t n hinv hm hexec hresp
  have hend : EndedWell .encgEnd s t n := ⟨rfl, hexec, hresp⟩
  have hs := hend.unfaulted
  obtain ⟨-, hclean, -⟩ := hinv.session (.inl hm)
  have hbuffer := hinv.buffer
  obtain ⟨-, -, -, -, hlen, -, -, -⟩ :=
    goodEndLeavesTheStream .encgEnd s t n hend hbuffer.form hbuffer.window.2
  obtain ⟨-, -, -, -, hne⟩ := hend.finalW_completes
  have hpositive : n.toNat ≠ 0 := fun hzero => hne nofun (BitVec.eq_of_toNat_eq hzero)
  obtain ⟨-, -, -, -, hmargin⟩ := hinv
  have hroom : s.byteOff.toNat + 1024 < s.cap.toNat := (hmargin hs hm).resolve_left fun hpos => by omega
  have hqueued := hclean.1
  rw [State.pos_add_seven_div] at hlen
  omega

end Sys2Proof.Machine
end

section
/-! How a command moves a write pass: what it leaves of `MODE`, and so the ways out of the pass (R31, R249). -/

namespace Sys2Proof.Machine

/-- What a command in an unfaulted block does to the pass it is issued in (R31): it faults where it stands; the pass goes
on, or begins on a fresh cursor; a command opens another; a closing one ends it with `OK`; or the end is reported. -/
inductive MovesPass (i : Instr) (s t : State) : Prop
  | faults {c : FaultCode} (hc : t.fault = some c) (hm : t.mode = s.mode)
  | goesOn (ht : t.fault = none) (hi : closesWritePass i = false)
      (hm : t.mode = s.mode ∨ s.mode = .fresh ∧ t.mode ≠ .done)
  | opens (hi : i = .init ∨ ∃ p, i = .encgStart p ∨ i = .encfStart p) (hr : t.resp = some ⟨.ok, 0#64⟩)
      (hm : t.mode ≠ .done)
  | closes {n : Word} (hi : closesWritePass i = true) (hr : t.resp = some ⟨.ok, n⟩)
  | reports (hr : t.resp = some ⟨.eCapacity, 0#64⟩ ∨ t.resp = some ⟨.eEmpty, 0#64⟩)

theorem Leaves.notRefused {P : State → Prop} {s u : State} {o : Host.Outcome State Fault Refusal}
    (hs : s.fault = none) (ho : Leaves P o) : Leaves P (if s.faulted then .next u else o) := by
  simpa [State.faulted, hs] using ho

namespace MovesPass

variable {i : Instr} {s t : State}

/-- A fault is latched with `MODE` as it was (R210, R211). -/
theorem of_raised {a : Word} (c : FaultCode) (h : SameControl (s.setAcc a) t) : MovesPass i s (raiseFault c t) :=
  .faults (raiseFault_fault c t) h.mode

theorem raise (c : FaultCode) : MovesPass i s (raiseFault c s) := of_raised (a := s.acc) c (.refl s)

/-- A command that reads or puts moves a fresh cursor to its own mode and stays in that mode (R31). -/
theorem goesOn_setMode {m : Mode} {v : Word} (hs : s.fault = none) (hi : closesWritePass i = false)
    (hm : s.mode = .fresh ∨ s.mode = m) (hdone : m ≠ .done) (h : SameControl s t) :
    MovesPass i s (reply .ok v (t.setMode m)) :=
  .goesOn (h.fault.trans hs) hi (hm.symm.imp Eq.symm fun hfresh => ⟨hfresh, hdone⟩)

/-- A rule ends in the fault of its micro-operations or by its own answer. -/
theorem finish {α : Type} {m : Micro α} {k : α → State → State} (a : Word)
    (hm : SameControl (s.setAcc a) m.endState) (hk : ∀ v t, SameControl (s.setAcc a) t → MovesPass i s (k v t)) :
    MovesPass i s (m.finish k) := by
  cases m with
  | done v t => exact hk v t hm
  | raised c t => exact of_raised c hm

end MovesPass

theorem readField_movesPass {i : Instr} (n : Byte) {s : State} (hs : s.fault = none)
    (hi : closesWritePass i = false) : MovesPass i s (readField n s) := by
  unfold readField
  split
  · exact .raise .seq
  · next hm =>
    split
    · exact .raise .count
    · exact .finish s.acc (getBits_control _ s) fun _ _ ht =>
        .goesOn_setMode hs hi ((Mode.admitsRead_iff _).1 (by simpa using hm)) nofun ht

theorem endSession_movesPass {i : Instr} {s : State} (hi : closesWritePass i = true) :
    MovesPass i s (endSession s) := by
  refine .finish s.acc (finalW_control s) fun _ t _ => ?_
  split
  · exact .reports (.inr rfl)
  · exact .closes hi rfl

theorem itemAnswer_movesPass {v a : Word} {s t : State} (hs : s.fault = none) (h : SameControl (s.setAcc a) t) :
    MovesPass (.encgItem v) s (itemAnswer t) := by
  unfold itemAnswer
  split
  · exact .reports (.inl rfl)
  · exact .goesOn (h.fault.trans hs) rfl (.inl h.mode)

/-- The checks of each rule in its order, then its end. -/
theorem exec_movesPass (i : Instr) {s : State} (hs : s.fault = none) : Leaves (MovesPass i s) (exec i s) := by
  have hfault : ∀ c, MovesPass i s (raiseFault c s) := fun c => .raise c
  cases i with
  | init => exact .notRefused hs <| .next <| .opens (.inl rfl) rfl nofun
  | getbits n => exact .notRefused hs <| .next <| readField_movesPass n hs rfl
  | putbits v n =>
    exact .notRefused hs <| .check (hfault _) fun hm => .check (hfault _) fun _ => .check (hfault _) fun _ =>
      .next <| .finish s.acc (putBits_control v _ s) fun _ _ ht =>
        .goesOn_setMode hs rfl ((Mode.admitsWrite_iff _).1 (by simpa using hm)) nofun ht
  | finalize =>
    exact .notRefused hs <| .check (hfault _) fun _ =>
      .next <| .finish s.acc (finalW_control s) fun _ _ _ => .closes rfl rfl
  | decg p =>
    refine .notRefused hs <| .check (hfault _) fun hm => .check (hfault _) fun _ =>
      .next <| .finish s.acc (readItem_control _ s) fun item t ht => ?_
    split
    · exact .goesOn_setMode hs rfl ((Mode.admitsRead_iff _).1 (by simpa using hm)) nofun ht
    · exact .of_raised .ovf ht
  | decf p => exact .notRefused hs <| .next <| readField_movesPass p hs rfl
  | encgStart p =>
    exact .notRefused hs <| .check (hfault _) fun _ => .check (hfault _) fun _ =>
      .check (.goesOn hs rfl (.inl rfl)) fun _ => .next <| .opens (.inr ⟨p, .inl rfl⟩) rfl nofun
  | encgItem v =>
    exact .notRefused hs <| .check (hfault _) fun _ =>
      .next <| .finish _ (putItem_control _ _ _) fun _ _ ht => itemAnswer_movesPass hs ht
  | encgEnd => exact .notRefused hs <| .check (hfault _) fun _ => .next <| endSession_movesPass rfl
  | encfStart p =>
    exact .notRefused hs <| .check (hfault _) fun _ => .check (hfault _) fun _ =>
      .check (.goesOn hs rfl (.inl rfl)) fun _ => .next <| .opens (.inr ⟨p, .inr rfl⟩) rfl nofun
  | encfItem v =>
    exact .notRefused hs <| .check (hfault _) fun _ => .check (hfault _) fun _ =>
      .next <| .finish s.acc (putBits_control v _ s) fun _ _ ht => .goesOn (ht.fault.trans hs) rfl (.inl ht.mode)
  | encfEnd => exact .notRefused hs <| .check (hfault _) fun _ => .next <| endSession_movesPass rfl
  | rdreg r => exact .next <| .goesOn hs rfl (.inl rfl)
  | wrreg r v =>
    have hmode : (writeReg r v s).mode = s.mode := by cases r <;> rfl
    exact .notRefused hs <| .check (hfault _) fun _ => .check (hfault _) fun _ => .check (hfault _) fun _ =>
      .next <| .goesOn ((writeReg_fault r v s).trans hs) rfl (.inl hmode)

/-- A faulted block answers `RDREG` and refuses the rest: `MODE` stays (R212). -/
theorem exec_mode_of_faulted {i : Instr} {s t : State} {c : FaultCode} (hs : s.fault = some c)
    (h : exec i s = .next t) : t.mode = s.mode := by
  by_cases hi : ∃ g, i = .rdreg g
  · obtain ⟨g, rfl⟩ := hi
    obtain rfl := Host.Outcome.next.inj h
    rfl
  · obtain rfl := Host.Outcome.next.inj (h.symm.trans (exec_of_faulted hs fun g hg => hi ⟨g, hg⟩))
    rfl

/-- Settles O52: the ways out of a pass are those of `MovesPass`, and a good end answers `OK` in an unfaulted block. -/
theorem writePassEndsWellOnlyAtAnOkClose : Obligations.WritePassEndsWellOnlyAtAnOkClose := by
  refine ⟨fun i s t hs hm hexec => ?_, fun i s t n h => ?_, fun i s t hexec hdone hnot => ?_⟩
  · have hfresh : s.mode ≠ .fresh := by
      intro hmode
      rw [hmode] at hm
      exact absurd hm (by decide)
    cases exec_movesPass i hs t hexec with
    | faults hc _ => exact .inr <| .inr <| .inr <| .inl ⟨_, hc⟩
    | goesOn ht hi hmode =>
      have hstays : t.mode = s.mode := hmode.resolve_right fun hstart => hfresh hstart.1
      exact .inr <| .inr <| .inr <| .inr <| .inr <| .inr ⟨hstays, ht, hi⟩
    | opens hi hr _ =>
      rcases hi with rfl | hstart
      · exact .inr <| .inr <| .inr <| .inr <| .inl rfl
      · exact .inr <| .inr <| .inr <| .inr <| .inr <| .inl ⟨hstart, hr⟩
    | closes hi hr => exact .inl ⟨_, hi, hexec, hr⟩
    | reports hr => exact .inr <| hr.imp_right .inl
  · have hfault := h.fault_eq_none
    have hclosing := h.mem_closing
    obtain ⟨-, -, hok⟩ := h
    exact ⟨hclosing, fun v hr => (nomatch hok.symm.trans hr), fun v hr => (nomatch hok.symm.trans hr),
      fun c hc => nomatch hfault.symm.trans hc⟩
  · cases hs : s.fault with
    | some c => exact absurd ((exec_mode_of_faulted hs hexec).symm.trans hdone) hnot
    | none =>
      cases exec_movesPass i hs t hexec with
      | faults _ hmode => exact absurd (hmode.symm.trans hdone) hnot
      | goesOn _ _ hmode =>
        rcases hmode with hmode | ⟨-, hne⟩
        · exact absurd (hmode.symm.trans hdone) hnot
        · exact absurd hdone hne
      | opens _ _ hne => exact absurd hdone hne
      | closes hi hr => exact .inl ⟨_, hi, hexec, hr⟩
      | reports hr => exact .inr hr

end Sys2Proof.Machine
end
